-- ==== Sys2Proof/Word.lean ====
section
/-! DEFINITION. The widths of HUFFCORE's values: 00_scope.md R6 and R7, 10_state.md R20. -/

namespace Sys2Proof

/-- A host register or command word (10_state.md R29). -/
abbrev Word := BitVec 32

/-- A buffer data byte (10_state.md R49). -/
abbrev Byte := BitVec 8

/-- A symbol of the 7-bit alphabet, `SYM_W = 7` (R6, R107). -/
abbrev Sym := BitVec 7

/-- A weight: the 64-bit pattern of a binary64 number (R12). -/
abbrev Weight := BitVec 64

/-- A node index or NIL (R114). -/
abbrev NodeIdx := BitVec 8

/-- A bitstring, first bit first (R10). -/
abbrev Bits := List Bool

/-- The node index that means "no node" (R7). -/
abbrev nilIdx : NodeIdx := 0xFF

/-- `MAX_NODES` (R7). -/
abbrev maxNodes : Nat := 255

/-- `ALPHA` (R6). -/
abbrev alpha : Nat := 128

end Sys2Proof
end

