-- ==== Sys2Proof/Syntax.lean ====
section
/-! DEFINITION. The ten commands of 30_encoding.md R101. No command has an operand (R100). -/

namespace Sys2Proof

/-- One constructor per row of spec/opcode_table.json. -/
inductive Instr where
  /-- 0x00000001, R244: clears the session, both buffers and all flags. -/
  | clr
  /-- 0x00000002, R245: empties the input buffer. -/
  | iclr
  /-- 0x00000003, R130: builds the sorted frequency table from IBUF. -/
  | freq
  /-- 0x00000004, R150: builds the Huffman tree from the frequency table. -/
  | build
  /-- 0x00000005, R170: generates the code table from the tree. -/
  | cgen
  /-- 0x00000006, R210: encodes IBUF as symbols into packed bytes. -/
  | encode
  /-- 0x00000007, R218: decodes IBUF as packed bytes into symbols. -/
  | decode
  /-- 0x00000008, R185: packs `0`/`1` characters into bytes. -/
  | pack
  /-- 0x00000009, R195: unpacks bytes into `0`/`1` characters. -/
  | unpack
  /-- 0x0000000A, R226: FREQ, BUILD, CGEN, ENCODE in one command. -/
  | compress
deriving DecidableEq, Repr

/-- One action of the host: the two bus accesses of 30_encoding.md R116, the two loops of R117 that a list of
accesses cannot express, the same accesses on a byte-addressed bus (20_memory.md R71, R74), and the reset
input (70_reset_and_hazards.md R290). -/
inductive HostAction where
  /-- `RD`: read the register with this index. -/
  | rd (index : Nat)
  /-- `WR`: write the register with this index. -/
  | wr (index : Nat) (w : Word)
  /-- `WAIT`: read STATUS until BUSY reads 0. -/
  | wait
  /-- `POPALL`: read OBUF_POP until bit 31 reads 1. -/
  | popAll
  /-- Read `size` bytes at byte offset `offset` from BASE. -/
  | busRd (offset size : Nat)
  /-- Write `size` bytes at byte offset `offset` from BASE. -/
  | busWr (offset size : Nat) (w : Word)
  /-- The reset input is asserted and released. -/
  | rst
deriving DecidableEq, Repr

end Sys2Proof
end

