-- ==== Sys2Proof/Config.lean ====
section
/-! DEFINITION. What the spec leaves to the implementation, and the free values. An `opaque` constant has
no body: nothing can be proved of its value. -/

namespace Sys2Proof.Config

/-- The largest capacity R8 admits for IBUF_CAP and OBUF_CAP. -/
def maxCapacity : Nat := 2 ^ 32 - 1

/-- IBUF_CAP of `State.reset`. DESIGN CHOICE (log 3): the spec leaves it open; the step reads the field of
State, over which every statement quantifies. -/
def resetIbufCap : Nat := maxCapacity

/-- OBUF_CAP of `State.reset`. DESIGN CHOICE (log 3), as `resetIbufCap`. -/
def resetObufCap : Nat := maxCapacity

/-- FREE VALUE (R235, U11; log 2): how many host accesses fall between the issue of the n-th command and its
completion, where State holds no draw made beforehand. -/
opaque busyDraw : Nat → Nat

/-- FREE VALUE (R13, R248; log 7): `w_div` outside `1 <= c <= t`. -/
opaque divOutside : Nat → Nat → Weight

/-- FREE VALUE (R12, R248; log 7): `w_add` on a pattern that is not a finite non-negative number. -/
opaque addOutside : Weight → Weight → Weight

/-- FREE VALUE (R12, R248; log 7): `w_le` on a pattern that is not a finite non-negative number. -/
opaque leOutside : Weight → Weight → Bool

end Sys2Proof.Config
end

