-- ==== Sys2Proof/WellFormed.lean ====
section
/-! DEFINITION. What makes a command word, a bus access, a capacity and a pushed value well formed. A command
has no operand, so every `Instr` is well formed: what can be ill formed is the word that is to name one. -/

namespace Sys2Proof

/-- Bits [31:4] of a command word are 0 (30_encoding.md R100). -/
def reservedBitsClear (w : Word) : Bool := w.extractLsb' 4 28 == 0

/-- OPC is one of the ten opcodes of R101: 0x0 and 0xB to 0xF are reserved (R102). -/
def opcodeAssigned (w : Word) : Bool :=
  let opc := (w.extractLsb' 0 4).toNat
  1 ≤ opc && opc ≤ 10

/-- A legal command word (R102). -/
def legalWord (w : Word) : Bool := reservedBitsClear w && opcodeAssigned w

/-- An access is one whole, naturally aligned 32-bit register (20_memory.md R74). -/
def wholeRegister (offset size : Nat) : Bool := size == 4 && offset % 4 == 0

/-- A host action the spec gives a meaning (R74). -/
def HostAction.wellFormed : HostAction → Bool
  | .rd _ => true
  | .wr _ _ => true
  | .wait => true
  | .popAll => true
  | .busRd offset size => wholeRegister offset size
  | .busWr offset size _ => wholeRegister offset size
  | .rst => true

/-- A capacity is in the range of 00_scope.md R8. -/
def capacityInRange (n : Nat) : Bool := 1 ≤ n && n ≤ Config.maxCapacity

/-- The value of a `PUSH` or `PUSHERR` (30_encoding.md R117): 0 to 0xFF. -/
def pushValueInRange (v : Nat) : Bool := v ≤ 0xFF

/-- An instruction has no operand, so nothing of it can be ill formed. -/
def Instr.wellFormed : Instr → Bool
  | .clr => true
  | .iclr => true
  | .freq => true
  | .build => true
  | .cgen => true
  | .encode => true
  | .decode => true
  | .pack => true
  | .unpack => true
  | .compress => true

end Sys2Proof
end

