-- ==== Sys2Proof/Decode.lean ====
section
/-! DEFINITION. The decoder and the encoder of command words: 30_encoding.md R100 to R103. -/

namespace Sys2Proof

/-- Why a word is illegal (R102). Both kinds behave alike. -/
inductive DecodeError where
  /-- Some bit of [31:4] is 1. -/
  | reservedBitsSet
  /-- OPC is 0x0 or 0xB to 0xF. -/
  | reservedOpcode
deriving DecidableEq, Repr

/-- The command an opcode names (R101). -/
def opcodeInstr (opc : BitVec 4) : Option Instr :=
  match opc.toNat with
  | 1 => some .clr
  | 2 => some .iclr
  | 3 => some .freq
  | 4 => some .build
  | 5 => some .cgen
  | 6 => some .encode
  | 7 => some .decode
  | 8 => some .pack
  | 9 => some .unpack
  | 10 => some .compress
  | _ => none

/-- The whole-word decoder: total, any word is a command or illegal (R101, R102). -/
def decodeWord (w : Word) : Except DecodeError Instr :=
  if reservedBitsClear w then
    match opcodeInstr (w.extractLsb' 0 4) with
    | some i => .ok i
    | none => .error .reservedOpcode
  else .error .reservedBitsSet

/-- A word of `nbits` bits as spec/opcode_table.json numbers them, in the 32-bit command register. -/
def tableWord (nbits w : Nat) : Word := BitVec.ofNat 32 (w % 2 ^ nbits)

/-- What the decoder reads from a table row's bits. -/
def decodeTableWord (nbits w : Nat) : Option Instr :=
  match decodeWord (tableWord nbits w) with
  | .ok i => some i
  | .error _ => none

/-- The OPC field of a command (R101). -/
def opcode : Instr → BitVec 4
  | .clr => 0x1
  | .iclr => 0x2
  | .freq => 0x3
  | .build => 0x4
  | .cgen => 0x5
  | .encode => 0x6
  | .decode => 0x7
  | .pack => 0x8
  | .unpack => 0x9
  | .compress => 0xA

/-- The command word: RSV in [31:4], OPC in [3:0] (R100). -/
def encode (i : Instr) : Word := (0 : BitVec 28) ++ opcode i

end Sys2Proof
end

