-- ==== Sys2Proof/Machine/State.lean ====
section
/-! DEFINITION. The state of HUFFCORE (10_state.md R20), the host agent beside it, and the reset state (R57). -/

namespace Sys2Proof.Machine

/-- PHASE (R23). -/
inductive Phase where
  | idle
  | busy
deriving DecidableEq, Repr

/-- An IBUF element: 9 bits, {tag, data} (R49, R105). -/
structure Elem where
  tag : Bool
  data : Byte
deriving DecidableEq, Repr, Inhabited

/-- A FrequencyEntry (R52). -/
structure FtEntry where
  sym : Sym
  prob : Weight
deriving DecidableEq, Repr, Inhabited

/-- A TreeNode (R53). -/
structure Node where
  leaf : Bool
  sym : Sym
  prob : Weight
  left : NodeIdx
  right : NodeIdx
deriving DecidableEq, Repr, Inhabited

/-- A code table entry (R55): `bits` is the code, first branch from the root first. -/
structure CtEntry where
  valid : Bool
  len : BitVec 7
  bits : Bits
deriving DecidableEq, Repr, Inhabited

/-- The faults: none. The spec has no outcome of a command beside ok and the eight errors (R16), which are
next states, and nothing in HUFFCORE is stuck (93_implementation_defined.md, end of part 1). -/
inductive Fault where
deriving DecidableEq, Repr

/-- Why a step is given no meaning. -/
inductive Refusal where
  /-- Raised by an arm of `exec` whose instruction has no meaning yet (none is left). Safe: nothing is claimed. -/
  | notModelled (mnemonic : String)
  /-- Raised by BUILD on FT_VALID = 1 with FT_LEN outside 2 to 128, which is no HUFFCORE state (R158, U2; log 5).
  Safe: the spec says to refuse it. -/
  | leavesOutOfRange
  /-- Raised by the host's bus access that is not one whole aligned 32-bit register (R74, U14; log 10).
  Safe: the spec says to refuse it. -/
  | notWholeRegister
deriving DecidableEq, Repr

/-- The machine's state. -/
structure State where
  phase : Phase
  pend : Word
  done : Bool
  err : Bool
  errcode : BitVec 4
  erridx : Word
  errval : Byte
  ftValid : Bool
  treeValid : Bool
  ctValid : Bool
  synth : Bool
  midcode : Bool
  cur : NodeIdx
  iovf : Bool
  sel : BitVec 8
  ibuf : List Elem
  obuf : List Byte
  cnt : Vector Word 128
  total : Word
  ft : Vector FtEntry 128
  ftLen : BitVec 8
  node : Vector Node 255
  nodeCnt : BitVec 8
  root : NodeIdx
  ct : Vector CtEntry 128
  -- working state (R50, R54)
  sqHead : BitVec 8
  tqHead : BitVec 8
  tqTail : BitVec 8
  bitbuf : Bits
  -- the spec's parameters (R8); nothing writes them
  ibufCap : Nat
  obufCap : Nat
  -- the model's own fields: the host agent (log 1) and the free BUSY durations (log 2)
  hostScript : List HostAction
  hostReads : List Word
  busyLeft : Nat
  busyDraws : List Nat
  issued : Nat
deriving DecidableEq, Repr

/-- The reset state for the parameters of R8: R57, and log 4 for the contents R57 leaves unspecified. -/
def State.resetWith (ibufCap obufCap : Nat) : State where
  phase := .idle
  pend := 0
  done := false
  err := false
  errcode := 0
  erridx := 0
  errval := 0
  ftValid := false
  treeValid := false
  ctValid := false
  synth := false
  midcode := false
  cur := nilIdx
  iovf := false
  sel := 0
  ibuf := []
  obuf := []
  cnt := Vector.replicate 128 0
  total := 0
  ft := Vector.replicate 128 default
  ftLen := 0
  node := Vector.replicate 255 default
  nodeCnt := 0
  root := nilIdx
  ct := Vector.replicate 128 default
  sqHead := 0
  tqHead := 0
  tqTail := 0
  bitbuf := []
  ibufCap := ibufCap
  obufCap := obufCap
  hostScript := []
  hostReads := []
  busyLeft := 0
  busyDraws := []
  issued := 0

/-- The machine right after reset. -/
def State.reset : State := State.resetWith Config.resetIbufCap Config.resetObufCap

end Sys2Proof.Machine
end

