-- ==== Sys2Proof/Machine/Flags.lean ====
section
/-! DEFINITION. The flags: the STATUS word (10_state.md R31) and the ways commands clear the session
(60_exceptions.md R272). -/

namespace Sys2Proof.Machine

/-- The BUSY bit of STATUS (R31). -/
def State.busyBit (s : State) : Bool := s.phase == .busy

/-- STATUS (R31). -/
def State.statusWord (s : State) : Word :=
  (0 : BitVec 16) ++ s.errcode ++ (0 : BitVec 3) ++ BitVec.ofBool s.iovf ++ BitVec.ofBool s.midcode
    ++ BitVec.ofBool s.synth ++ BitVec.ofBool s.ctValid ++ BitVec.ofBool s.treeValid
    ++ BitVec.ofBool s.ftValid ++ BitVec.ofBool s.err ++ BitVec.ofBool s.done ++ BitVec.ofBool s.busyBit

/-- The level output `done` (R48). -/
def State.doneOut (s : State) : Bool := s.done

/-- The level output `err` (R48). -/
def State.errOut (s : State) : Bool := s.err

/-- `for s in 0..127: CT[s].valid <- 0`. -/
def unsetAll (ct : Vector CtEntry 128) : Vector CtEntry 128 :=
  ct.map fun e => { e with valid := false }

/-- Discard the code table: the first assignments of CGEN (42_code_table.md R170). -/
def State.dropCodes (s : State) : State :=
  { s with ctValid := false, ct := unsetAll s.ct }

/-- Discard the tree and the code table: the first assignments of BUILD (41_tree_builder.md R150). -/
def State.dropTree (s : State) : State :=
  { s with
    treeValid := false, ctValid := false, nodeCnt := 0, root := nilIdx, ct := unsetAll s.ct }

/-- Begin a new session: the first assignments of FREQ (40_frequency_table.md R131). -/
def State.beginSession (s : State) : State :=
  { s with
    ftValid := false, treeValid := false, ctValid := false, synth := false
    ftLen := 0, nodeCnt := 0, root := nilIdx, ct := unsetAll s.ct }

end Sys2Proof.Machine
end

