-- ==== Sys2Proof/Machine/Ops.lean ====
section
/-! DEFINITION. The shared operations: issue and completion of a command (45_control_and_host_access.md R236,
R237), what an error does (60_exceptions.md R271), and reads of the internal memories. -/

namespace Sys2Proof.Machine

/-- The eight errors (R260). -/
inductive CmdError where
  | emptyInput
  | invalidBitstring
  | io
  | sequence
  | alphabet
  | noCode
  | illegalCommand
  | capacity
deriving DecidableEq, Repr

/-- ERRCODE of an error (R260). -/
def CmdError.code : CmdError → BitVec 4
  | .emptyInput => 1
  | .invalidBitstring => 2
  | .io => 3
  | .sequence => 4
  | .alphabet => 5
  | .noCode => 6
  | .illegalCommand => 7
  | .capacity => 8

/-- `raise error(idx, val)` (R271). -/
structure Raise where
  error : CmdError
  idx : Word
  val : Byte
deriving DecidableEq, Repr

/-- `raise SequenceError(0, 0)` (R264). -/
def Raise.sequence : Raise := ⟨.sequence, 0, 0⟩

/-- `raise CapacityError(0, 1)`: the input was truncated (R268). -/
def Raise.inputCapacity : Raise := ⟨.capacity, 0, 1⟩

/-- `raise CapacityError(0, 2)`: the output is too long (R268). -/
def Raise.outputCapacity : Raise := ⟨.capacity, 0, 2⟩

/-- `raise EmptyInputError(0, 0)` (R261). -/
def Raise.emptyInput : Raise := ⟨.emptyInput, 0, 0⟩

/-- How a command's pseudocode ends, with the state its assignments have made (R16, R237). -/
inductive Run where
  /-- It ran to its end. -/
  | ok (s : State)
  /-- It stopped at a `raise`. -/
  | raise (e : Raise) (s : State)
deriving DecidableEq, Repr

/-- Run the next pseudocode on the state an ok outcome left; an error stops the chain (R226). -/
def Run.andThen (r : Run) (next : State → Run) : Run :=
  match r with
  | .ok s => next s
  | .raise e s => .raise e s

/-- The pseudocode's state, without the outcome. -/
def Run.state : Run → State
  | .ok s => s
  | .raise _ s => s

/-- Completion with outcome ok (R237, R24). -/
def State.completeOk (s : State) : State :=
  { s with phase := .idle, done := true, err := false, errcode := 0, erridx := 0, errval := 0 }

/-- TAKING AN ERROR: completion with outcome error(code, idx, val) (R237, R271). Nothing is saved elsewhere and
control goes nowhere: the engine becomes idle with the record written. -/
def State.completeError (s : State) (e : Raise) : State :=
  { s with
    phase := .idle, done := true, err := true
    errcode := e.error.code, erridx := e.idx, errval := e.val }

/-- The completion of a command (R237). -/
def Run.complete : Run → State
  | .ok s => s.completeOk
  | .raise e s => s.completeError e

/-- The draw for the next command: how many host accesses fall before its completion (R235; log 2). -/
def State.nextDraw (s : State) : Nat :=
  match s.busyDraws with
  | [] => Config.busyDraw s.issued
  | d :: _ => d

/-- Accept a command word, with `d` host accesses to fall before its completion (R236). It also clears the
record of the last command, which is all the RETURN from an error there is (R273). -/
def State.accept (s : State) (w : Word) (d : Nat) : State :=
  { s with
    pend := w, phase := .busy
    done := false, err := false, errcode := 0, erridx := 0, errval := 0
    busyLeft := d }

/-- Issue: a host write of `w` to CMD while IDLE (R236). -/
def State.issue (s : State) (w : Word) : State :=
  { s.accept w s.nextDraw with busyDraws := s.busyDraws.tail, issued := s.issued + 1 }

/-- The outcome of an illegal word: only the error record (R102, R267). -/
def State.completeIllegal (s : State) : State := s.completeError ⟨.illegalCommand, s.pend, 0⟩

/-- `OBUF <- []`. -/
def State.emptyObuf (s : State) : State := { s with obuf := [] }

/-- `FT[i]`. Outside 0 to 127 there is no entry (log 6). -/
def State.ftAt (s : State) (i : Nat) : FtEntry := s.ft[i]?.getD default

/-- `NODE[i]`. Index 0xFF is NIL and names no node (R114; log 6). -/
def State.nodeAt (s : State) (i : NodeIdx) : Node := s.node[i.toNat]?.getD default

/-- `CNT[s]`. -/
def State.cntAt (s : State) (x : Sym) : Word := s.cnt[x.toNat]'x.isLt

/-- `CT[s]`. -/
def State.ctAt (s : State) (x : Sym) : CtEntry := s.ct[x.toNat]'x.isLt

/-- The reset event (70_reset_and_hazards.md R290): the reset state, whatever was pending; the parameters and
the host agent are not HUFFCORE's and stay (log 11). -/
def State.assertReset (s : State) : State :=
  { State.resetWith s.ibufCap s.obufCap with
    hostScript := s.hostScript, hostReads := s.hostReads, busyDraws := s.busyDraws, issued := s.issued }

/-- The state in which the word of a table row is the pending command and completes at the next step (R82:
nothing is fetched, the host's CMD write places the command; log 1). -/
def State.placeCommand (s : State) (nbits w : Nat) : State := s.accept (tableWord nbits w) 0

end Sys2Proof.Machine
end

