-- ==== Sys2Proof/Machine/Codes.lean ====
section
/-! DEFINITION. CGEN: 42_code_table.md R170 to R177. -/

namespace Sys2Proof.Machine

/-- `search(n, s, path)`, to depth `fuel` (R172): the path of the first matching leaf, left before right. -/
def State.search (s : State) (x : Sym) : Nat → NodeIdx → Bits → Option Bits
  | 0, _, _ => none
  | fuel + 1, n, path =>
    let nd := s.nodeAt n
    if nd.leaf then if nd.sym = x then some path else none
    else
      match s.search x fuel nd.left (path ++ [false]) with
      | some p => some p
      | none => s.search x fuel nd.right (path ++ [true])

/-- The path of a symbol's leaf from ROOT. The search goes at most 127 edges deep (R175). -/
def State.codePath (s : State) (x : Sym) : Option Bits := s.search x 128 s.root []

/-- `CT[s] <- (valid = 1, len = |p|, bits = p)` (R173); a symbol that is on no leaf keeps no entry (log 6). -/
def State.writeCode (s : State) (x : Sym) : State :=
  match s.codePath x with
  | some p => { s with ct := s.ct.set x.toNat ⟨true, BitVec.ofNat 7 p.length, p⟩ x.isLt }
  | none => s

/-- The list of symbols needing codes: FT[0] to FT[FT_LEN-1] (R171). -/
def State.ftSyms (s : State) : List Sym := (s.ft.toList.take s.ftLen.toNat).map FtEntry.sym

/-- The pseudocode of CGEN (R170). -/
def runCgen (s : State) : Run :=
  if s.treeValid then
    .ok { s.ftSyms.foldl State.writeCode s.dropCodes with ctValid := true }
  else .raise .sequence s

/-- CGEN: its completion. -/
def execCgen (s : State) : Host.Outcome State Fault Refusal := .next (runCgen s).complete

end Sys2Proof.Machine
end

