-- ==== Sys2Proof/Machine/Control.lean ====
section
/-! DEFINITION. CLR and ICLR: 45_control_and_host_access.md R244, R245. -/

namespace Sys2Proof.Machine

/-- The pseudocode of CLR (R244). -/
def runClr (s : State) : Run :=
  .ok { s.beginSession with
    midcode := false, iovf := false, cur := nilIdx, sel := 0, ibuf := [], obuf := [] }

/-- The pseudocode of ICLR (R245). -/
def runIclr (s : State) : Run := .ok { s with ibuf := [], iovf := false }

/-- CLR: its completion. -/
def execClr (s : State) : Host.Outcome State Fault Refusal := .next (runClr s).complete

/-- ICLR: its completion. -/
def execIclr (s : State) : Host.Outcome State Fault Refusal := .next (runIclr s).complete

end Sys2Proof.Machine
end

