-- ==== Sys2Proof/Machine/Binary64.lean ====
section
/-! DEFINITION. The weights' arithmetic on binary64 bit patterns: `w_div`, `w_add`, `w_le` (00_scope.md R12 to
R14). A pattern with significand `m` and scale `e` is the number `m * 2^(e - 1075)`; the model computes with `m`
and `e` as natural numbers, exactly, and rounds once, to nearest, ties to even. -/

namespace Sys2Proof.Machine

/-- The pattern of +infinity, one above the largest finite number (R12). -/
def infinityBits : Nat := 0x7FF0000000000000

/-- `1.0` (R12). -/
def weightOne : Weight := 0x3FF0000000000000

/-- `+0.0` (R12). -/
def weightZero : Weight := 0

/-- Finite and not negative (nor -0.0): the patterns the reachable weights are among (R12). -/
def weightFinite (w : Weight) : Bool := w.toNat < infinityBits

/-- The exponent field, with the implicit exponent 1 of the patterns whose field is 0 (R12). -/
def weightScale (w : Weight) : Nat := max 1 (w.toNat / 2 ^ 52)

/-- The significand: the fraction with its hidden bit, where there is one (R12). -/
def weightSig (w : Weight) : Nat :=
  if w.toNat / 2 ^ 52 = 0 then w.toNat % 2 ^ 52 else 2 ^ 52 + w.toNat % 2 ^ 52

/-- The pattern with significand `m` and scale `e`, for `m <= 2^53` and `1 <= e`; `m = 2^53` carries into the
exponent. -/
def packWeight (m e : Nat) : Weight :=
  let b := (e - 1) * 2 ^ 52 + m
  BitVec.ofNat 64 (if b < infinityBits then b else infinityBits)

/-- `n / 2^k` rounded to the nearest integer, ties to even (R13). -/
def roundShift (n k : Nat) : Nat :=
  let q := n / 2 ^ k
  let r := n % 2 ^ k
  if 2 ^ k < 2 * r ∨ (2 * r = 2 ^ k ∧ q % 2 = 1) then q + 1 else q

/-- The binary64 number nearest to `n * 2^(e - 1075)`, ties to even, for `1 <= e` (R13, R14). -/
def nearestWeight (n e : Nat) : Weight :=
  let l := n.log2
  if l ≤ 52 then
    let k := min (52 - l) (e - 1)
    packWeight (n * 2 ^ k) (e - k)
  else packWeight (roundShift n (l - 52)) (e + (l - 52))

/-- `w_div(c, t)` (R13). The quotient is taken to 96 binary places and its lowest bit then records whether a
remainder is left, far below the bits that are kept, so that the one rounding is that of the real quotient. -/
def wDiv (c t : Nat) : Weight :=
  if 1 ≤ c ∧ c ≤ t then
    let q := c * 2 ^ 96 / t
    let sticky := if c * 2 ^ 96 % t = 0 then 0 else 1
    nearestWeight (2 * q + sticky) 978
  else Config.divOutside c t

/-- `w_add(a, b)` (R14): the exact sum at the smaller of the two scales, rounded once. -/
def wAdd (a b : Weight) : Weight :=
  if weightFinite a && weightFinite b then
    let e := min (weightScale a) (weightScale b)
    nearestWeight (weightSig a * 2 ^ (weightScale a - e) + weightSig b * 2 ^ (weightScale b - e)) e
  else Config.addOutside a b

/-- `w_le(a, b)` (R14): on finite non-negative numbers the order of the values is the order of the patterns. -/
def wLe (a b : Weight) : Bool :=
  if weightFinite a && weightFinite b then a ≤ b else Config.leOutside a b

end Sys2Proof.Machine
end

