-- ==== Sys2Proof/Machine/BitStream.lean ====
section
/-! DEFINITION. Bits and bytes: 30_encoding.md R109 to R111, 43_bit_packer.md R185 to R201. -/

namespace Sys2Proof.Machine

/-- A packed byte: the first bit is bit 7 (R109). -/
def byteOfBits (b0 b1 b2 b3 b4 b5 b6 b7 : Bool) : Byte :=
  BitVec.ofNat 8 (b0.toNat * 128 + b1.toNat * 64 + b2.toNat * 32 + b3.toNat * 16
    + b4.toNat * 8 + b5.toNat * 4 + b6.toNat * 2 + b7.toNat)

/-- `bits(y)`: most significant bit first (R195, R196). -/
def bitsOfByte (y : Byte) : Bits :=
  [y.getLsbD 7, y.getLsbD 6, y.getLsbD 5, y.getLsbD 4, y.getLsbD 3, y.getLsbD 2, y.getLsbD 1, y.getLsbD 0]

/-- The bytes of a bitstring whose length is a multiple of 8 (R188). -/
def bytesOfBits : Bits → List Byte
  | b0 :: b1 :: b2 :: b3 :: b4 :: b5 :: b6 :: b7 :: rest =>
    byteOfBits b0 b1 b2 b3 b4 b5 b6 b7 :: bytesOfBits rest
  | _ => []

/-- The number of padding bits for a payload of `n` bits, 1 to 8 (R111). -/
def paddingLength (n : Nat) : Nat := 8 - n % 8

/-- The padding marker `0^(p-1) ++ "1"` (R187). -/
def paddingMarker (p : Nat) : Bits := List.replicate (p - 1) false ++ [true]

/-- `pack(B)` (R185, R187, R188). -/
def packBits (b : Bits) : List Byte := bytesOfBits (paddingMarker (paddingLength b.length) ++ b)

/-- The number of bytes `pack` makes from `n` bits (R111, R189). -/
def packedLength (n : Nat) : Nat := n / 8 + 1

/-- What follows the first `1` among the first `k` bits; what follows those `k` bits when they hold no `1`
(R197, R198). -/
def dropMarker : Nat → Bits → Bits
  | 0, s => s
  | _ + 1, [] => []
  | _ + 1, true :: s => s
  | k + 1, false :: s => dropMarker k s

/-- `unpack(Y)` (R195 to R199). -/
def unpackBytes (ys : List Byte) : Bits := dropMarker 8 (ys.flatMap bitsOfByte)

/-- The natural number a bitstring writes, first bit most significant. -/
def natOfBits (b : Bits) : Nat := b.foldl (fun n x => 2 * n + x.toNat) 0

/-- The value `C` of the CT window: bit `127 - i` is bit `i` of the code, the other bits 0 (10_state.md R46). -/
def leftAligned (b : Bits) : BitVec 128 := BitVec.ofNat 128 (natOfBits b * 2 ^ (128 - b.length))

end Sys2Proof.Machine
end

