-- ==== Sys2Proof/Machine/Operands.lean ====
section
/-! DEFINITION. The operands: how a command reads IBUF (30_encoding.md R105 to R108), the checks of its input in
the order of 60_exceptions.md R270, and how it writes OBUF (R106). No command word has an operand field (R100). -/

namespace Sys2Proof.Machine

/-- The element a word written to IBUF_PUSH makes (R105). -/
def elemOfWord (w : Word) : Elem := ⟨w.getLsbD 8, w.extractLsb' 0 8⟩

/-- `data[6:0]`: the element read as a symbol (R105). -/
def Elem.sym (e : Elem) : Sym := e.data.extractLsb' 0 7

/-- `data[0]`: the element read as a `0` or `1` character (R108). -/
def Elem.bit (e : Elem) : Bool := e.data.getLsbD 0

/-- `0x30 + bit`: the character of a bit (R108, R200). -/
def charOfBit (b : Bool) : Byte := if b then 0x31 else 0x30

/-- The check of an element read as a packed byte: the tag (R263). -/
def checkByte (e : Elem) : Option CmdError := if e.tag then some .io else none

/-- The check of an element read as a symbol: the tag, then data[7] (R132). -/
def checkSymbol (e : Elem) : Option CmdError :=
  if e.tag then some .io else if e.data.getLsbD 7 then some .alphabet else none

/-- The check of an element read as a character: the tag, then the two legal values (R186). -/
def checkChar (e : Elem) : Option CmdError :=
  if e.tag then some .io
  else if e.data ≠ 0x30 ∧ e.data ≠ 0x31 then some .invalidBitstring else none

/-- The check of an element to be encoded: as a symbol, then the presence of its code (R211). -/
def checkCoded (s : State) (e : Elem) : Option CmdError :=
  match checkSymbol e with
  | some err => some err
  | none => if (s.ctAt e.sym).valid then none else some .noCode

/-- The scan in ascending index order from index `i`: the first element that fails decides (R270). -/
def scanElems (check : Elem → Option CmdError) : Nat → List Elem → Option Raise
  | _, [] => none
  | i, e :: es =>
    match check e with
    | some err => some ⟨err, BitVec.ofNat 32 i, e.data⟩
    | none => scanElems check (i + 1) es

/-- The checks common to the six commands that read IBUF, in the order of R270: CapacityError cause 1, then
EmptyInputError where the command needs a text, then the element scan. -/
def State.inputError (s : State) (needsText : Bool) (check : Elem → Option CmdError) : Option Raise :=
  if s.iovf then some .inputCapacity
  else if needsText && s.ibuf.isEmpty then some .emptyInput
  else scanElems check 0 s.ibuf

/-- Run `k` on a checked input, or stop at the error found. -/
def State.onInput (s : State) (needsText : Bool) (check : Elem → Option CmdError) (k : State → Run) : Run :=
  match s.inputError needsText check with
  | some e => .raise e s
  | none => k s

/-- IBUF read as bytes (R105). -/
def State.inputBytes (s : State) : List Byte := s.ibuf.map Elem.data

/-- IBUF read as characters: the bitstring (R185). -/
def State.inputBits (s : State) : Bits := s.ibuf.map Elem.bit

/-- IBUF read as symbols (R105). -/
def State.inputSyms (s : State) : List Sym := s.ibuf.map Elem.sym

/-- The capacity of BITBUF in bits (R8, R50). No command exceeds it: `keepPacked` and `keepUnpacked` are the only
operations that fill it. -/
def State.bitbufCap (s : State) : Nat := 8 * max s.ibufCap s.obufCap

/-- Fill the working bit buffer (R50). -/
def State.fillBits (s : State) (b : Bits) : State := { s with bitbuf := b }

/-- Empty the working bit buffer at the end of the command that filled it (R50). -/
def State.emptyBits (s : State) : State := { s with bitbuf := [] }

/-- `if |out| > OBUF_CAP: raise CapacityError(0, 2)`, else `OBUF <- out`: output whole or not at all (R190). -/
def State.emit (s : State) (out : List Byte) : Run :=
  if s.obufCap < out.length then .raise .outputCapacity s else .ok { s with obuf := out }

/-- Keep a bitstring to be packed: `if floor(|B|/8) + 1 > OBUF_CAP: raise CapacityError(0, 2)`, tested before the
bits are kept (R50, R189, R213). -/
def State.keepPacked (s : State) (b : Bits) : Run :=
  if s.obufCap < packedLength b.length then .raise .outputCapacity s else .ok (s.fillBits b)

/-- Keep the bitstring unpacked from IBUF, which comes from at most IBUF_CAP bytes (R50, R195). -/
def State.keepUnpacked (s : State) : State := s.fillBits (unpackBytes s.inputBytes)

/-- `OBUF <- pack(BITBUF)` (R188, R213). -/
def State.packOut (s : State) : State := { s.emptyBits with obuf := packBits s.bitbuf }

/-- The end of PACK and ENCODE on their bitstring: keep it, then output it packed (R185, R210). -/
def State.emitPacked (s : State) (b : Bits) : Run := (s.keepPacked b).andThen fun t => .ok t.packOut

end Sys2Proof.Machine
end

