-- ==== Sys2Proof/Machine/Frequency.lean ====
section
/-! DEFINITION. FREQ: 40_frequency_table.md R130 to R142. -/

namespace Sys2Proof.Machine

/-- CNT of a text: how often each symbol stands in it (R133). -/
def countSyms (text : List Sym) : Vector Word 128 :=
  Vector.ofFn fun i : Fin 128 => BitVec.ofNat 32 (text.count (BitVec.ofNat 7 i.val))

/-- The unsorted list E: one entry per symbol with a count, in ascending symbol order (R134, R135). -/
def entries (cnt : Vector Word 128) (total : Word) : List FtEntry :=
  (List.finRange 128).filterMap fun i =>
    if cnt[i] = 0 then none
    else some ⟨BitVec.ofNat 7 i.val, wDiv cnt[i].toNat total.toNat⟩

/-- The synthetic entry of the only symbol observed: a 7-bit increment (R112, R137). -/
def syntheticEntry (e : FtEntry) : FtEntry := ⟨e.sym + 1, weightZero⟩

/-- The single-symbol fix-up (R137): the list, and whether an entry was injected. -/
def fixUp : List FtEntry → List FtEntry × Bool
  | [e] => ([e, syntheticEntry e], true)
  | es => (es, false)

/-- Whether entry `x` precedes entry `y`: by weight, ties by symbol value (R138). -/
def entryBefore (x y : FtEntry) : Bool :=
  if wLe x.prob y.prob then
    if wLe y.prob x.prob then x.sym < y.sym else true
  else false

/-- Insert an entry into a sorted list. -/
def insertEntry (e : FtEntry) : List FtEntry → List FtEntry
  | [] => [e]
  | x :: xs => if entryBefore x e then x :: insertEntry e xs else e :: x :: xs

/-- E in the order of R138. The algorithm is free; the order is unique. -/
def sortEntries : List FtEntry → List FtEntry
  | [] => []
  | e :: es => insertEntry e (sortEntries es)

/-- `FT[0 .. |E|-1] <- E`; the entries above keep their content. -/
def writeFt (ft : Vector FtEntry 128) (es : List FtEntry) : Vector FtEntry 128 :=
  Vector.ofFn fun i : Fin 128 => es[i.val]?.getD ft[i]

/-- Counting (R133). -/
def State.countInput (s : State) : State :=
  { s with cnt := countSyms s.inputSyms, total := BitVec.ofNat 32 s.ibuf.length }

/-- From the counts to the sorted table (R134 to R139). -/
def State.buildFt (s : State) : State :=
  let e := fixUp (entries s.cnt s.total)
  { s with
    synth := e.2
    ft := writeFt s.ft (sortEntries e.1)
    ftLen := BitVec.ofNat 8 e.1.length
    ftValid := true }

/-- The pseudocode of FREQ (R130). -/
def runFreq (s : State) : Run :=
  s.beginSession.onInput true checkSymbol fun s => .ok s.countInput.buildFt

/-- FREQ: its completion. -/
def execFreq (s : State) : Host.Outcome State Fault Refusal := .next (runFreq s).complete

end Sys2Proof.Machine
end

