-- ==== Sys2Proof/Machine/Packer.lean ====
section
/-! DEFINITION. PACK and UNPACK: 43_bit_packer.md R185 to R202. -/

namespace Sys2Proof.Machine

/-- The pseudocode of PACK (R185). -/
def runPack (s : State) : Run :=
  s.emptyObuf.onInput false checkChar fun s => s.emitPacked s.inputBits

/-- The pseudocode of UNPACK (R195). -/
def runUnpack (s : State) : Run :=
  s.emptyObuf.onInput false checkByte fun s =>
    let b := s.keepUnpacked
    b.emptyBits.emit (b.bitbuf.map charOfBit)

/-- PACK: its completion. -/
def execPack (s : State) : Host.Outcome State Fault Refusal := .next (runPack s).complete

/-- UNPACK: its completion. -/
def execUnpack (s : State) : Host.Outcome State Fault Refusal := .next (runUnpack s).complete

end Sys2Proof.Machine
end

