-- ==== Sys2Proof/Machine/Tree.lean ====
section
/-! DEFINITION. BUILD: 41_tree_builder.md R150 to R161, the two-queue merge over the NODE memory. -/

namespace Sys2Proof.Machine

/-- Leaf `i`: a copy of FT[i] with both children NIL (R152). -/
def leafNode (e : FtEntry) : Node := ⟨true, e.sym, e.prob, nilIdx, nilIdx⟩

/-- The internal node of a merge (R155). -/
def mergedNode (s : State) (a b : NodeIdx) : Node :=
  ⟨false, 0, wAdd (s.nodeAt a).prob (s.nodeAt b).prob, a, b⟩

/-- Pre-load the source queue: NODE[i] for `i < L`, and the queue pointers (R152, R153). -/
def State.loadLeaves (s : State) : State :=
  { s with
    node := Vector.ofFn fun i : Fin 255 =>
      if i.val < s.ftLen.toNat then leafNode (s.ftAt i.val) else s.node[i]
    sqHead := 0, tqHead := s.ftLen, tqTail := s.ftLen }

/-- Dequeue from the source queue (R152). -/
def State.pickSource (s : State) : NodeIdx × State := (s.sqHead, { s with sqHead := s.sqHead + 1 })

/-- Dequeue from the target queue (R153). -/
def State.pickTarget (s : State) : NodeIdx × State := (s.tqHead, { s with tqHead := s.tqHead + 1 })

/-- One selection: only the fronts are compared, and the source queue wins ties (R154). -/
def State.pick (s : State) : NodeIdx × State :=
  if s.sqHead = s.ftLen then s.pickTarget
  else if s.tqHead = s.tqTail then s.pickSource
  else if wLe (s.nodeAt s.sqHead).prob (s.nodeAt s.tqHead).prob then s.pickSource
  else s.pickTarget

/-- Enqueue a node onto the target queue (R153). -/
def State.enqueue (s : State) (n : Node) : State :=
  { s with node := s.node.setIfInBounds s.tqTail.toNat n, tqTail := s.tqTail + 1 }

/-- One merge step: two selections, then the enqueue; the first selected is the left child (R154, R155). -/
def State.mergeStep (s : State) : State :=
  let a := s.pick
  let b := a.2.pick
  b.2.enqueue (mergedNode b.2 a.1 b.1)

/-- The number of nodes in the two queues (R156). -/
def State.queued (s : State) : Nat :=
  (s.ftLen.toNat - s.sqHead.toNat) + (s.tqTail.toNat - s.tqHead.toNat)

/-- The merge loop. It runs at most 127 times (R156), which bounds the recursion. -/
def mergeLoop : Nat → State → State
  | 0, s => s
  | k + 1, s => if 1 < s.queued then mergeLoop k s.mergeStep else s

/-- `NODE_CNT <- TQ_TAIL; ROOT <- TQ_TAIL - 1; TREE_VALID <- 1` (R157). -/
def State.closeTree (s : State) : State :=
  { s with nodeCnt := s.tqTail, root := s.tqTail - 1, treeValid := true }

/-- The pseudocode of BUILD (R150). -/
def runBuild (s : State) : Run :=
  if s.ftValid then .ok (mergeLoop 127 s.dropTree.loadLeaves).closeTree
  else .raise .sequence s

/-- FT_VALID = 1 with FT_LEN outside 2 to 128: no HUFFCORE state (R158, U2; log 5). -/
def State.leavesOutOfRange (s : State) : Bool :=
  s.ftValid && (s.ftLen.toNat < 2 || 128 < s.ftLen.toNat)

/-- BUILD: its completion; refused on a state that is no HUFFCORE state, as R158 asks. -/
def execBuild (s : State) : Host.Outcome State Fault Refusal :=
  if s.leavesOutOfRange then .refused .leavesOutOfRange else .next (runBuild s).complete

end Sys2Proof.Machine
end

