-- ==== Sys2Proof/Machine/Sequencer.lean ====
section
/-! DEFINITION. ENCODE, DECODE and COMPRESS: 44_encode_decode.md R210 to R227. -/

namespace Sys2Proof.Machine

/-- The bitstring of a text: the codes of its symbols, nothing between them (R212). -/
def State.codeBits (s : State) (text : List Sym) : Bits := text.flatMap fun x => (s.ctAt x).bits

/-- The pseudocode of ENCODE (R210). -/
def runEncode (s : State) : Run :=
  let s := s.emptyObuf
  if s.ctValid then
    s.onInput true (checkCoded s) fun s => s.emitPacked (s.codeBits s.inputSyms)
  else .raise .sequence s

/-- One move of the walker from node `c` (R219). -/
def State.child (s : State) (c : NodeIdx) (b : Bool) : NodeIdx :=
  if b then (s.nodeAt c).right else (s.nodeAt c).left

/-- The walk from node `c` over a bitstring: the symbols emitted and the node where the bits run out (R219). -/
def State.walk (s : State) : NodeIdx → Bits → List Sym × NodeIdx
  | c, [] => ([], c)
  | c, b :: bs =>
    let d := s.child c b
    if (s.nodeAt d).leaf then
      let r := s.walk s.root bs
      ((s.nodeAt d).sym :: r.1, r.2)
    else s.walk d bs

/-- The end of DECODE on the walk's result: the output, then CUR and MIDCODE (R218, R220). -/
def State.emitWalk (s : State) (r : List Sym × NodeIdx) : Run :=
  (s.emptyBits.emit (r.1.map fun x => x.setWidth 8)).andThen fun t =>
    .ok { t with cur := r.2, midcode := r.2 != s.root }

/-- The pseudocode of DECODE (R218). -/
def runDecode (s : State) : Run :=
  let s := { s.emptyObuf with midcode := false, cur := nilIdx }
  if s.treeValid then
    s.onInput false checkByte fun s =>
      let b := s.keepUnpacked
      b.emitWalk (b.walk b.root b.bitbuf)
  else .raise .sequence s

/-- The pseudocode of COMPRESS (R226): each step on the state the previous step left. -/
def runCompress (s : State) : Run :=
  (((runFreq s.emptyObuf).andThen runBuild).andThen runCgen).andThen runEncode

/-- ENCODE: its completion. -/
def execEncode (s : State) : Host.Outcome State Fault Refusal := .next (runEncode s).complete

/-- DECODE: its completion. -/
def execDecode (s : State) : Host.Outcome State Fault Refusal := .next (runDecode s).complete

/-- COMPRESS: its completion. -/
def execCompress (s : State) : Host.Outcome State Fault Refusal := .next (runCompress s).complete

end Sys2Proof.Machine
end

