-- ==== Sys2Proof/Machine/HostAccess.lean ====
section
/-! DEFINITION. The host registers (10_state.md R29 to R47) and the host's reads and writes of them
(45_control_and_host_access.md R236 to R243). -/

namespace Sys2Proof.Machine

/-- The 26 host registers, in index order (R29). -/
inductive HostReg where
  | cmd
  | status
  | erridx
  | errval
  | ibufPush
  | ibufLen
  | obufPop
  | obufLen
  | sel
  | total
  | cnt
  | ftLen
  | ftSym
  | ftPlo
  | ftPhi
  | root
  | nodeCnt
  | nodeInfo
  | nodePlo
  | nodePhi
  | ctInfo
  | ctBits0
  | ctBits1
  | ctBits2
  | ctBits3
  | cur
deriving DecidableEq, Repr

/-- The registers in index order (R29). -/
def hostRegs : List HostReg :=
  [.cmd, .status, .erridx, .errval, .ibufPush, .ibufLen, .obufPop, .obufLen, .sel, .total, .cnt, .ftLen,
    .ftSym] ++
  [.ftPlo, .ftPhi, .root, .nodeCnt, .nodeInfo, .nodePlo, .nodePhi, .ctInfo, .ctBits0, .ctBits1, .ctBits2,
    .ctBits3, .cur]

/-- The register an index selects; none at 0x1A and above (R71). -/
def regAt (i : Nat) : Option HostReg := hostRegs[i]?

/-- CNT window gate (R40). -/
def State.cntPresent (s : State) : Bool := s.ftValid && s.sel.toNat < 128

/-- FT window gate (R42). -/
def State.ftPresent (s : State) : Bool := s.ftValid && s.sel < s.ftLen

/-- NODE window gate (R45). -/
def State.nodePresent (s : State) : Bool := s.treeValid && s.sel < s.nodeCnt

/-- The CT entry SEL selects: SEL read as a symbol, where it is below 128 (R46). -/
def State.ctSel (s : State) : CtEntry := s.ctAt (s.sel.extractLsb' 0 7)

/-- CT window gate (R46). -/
def State.ctPresent (s : State) : Bool := s.ctValid && s.sel.toNat < 128 && s.ctSel.valid

/-- A window: `gate ? field : 0` (R246). -/
def gated (gate : Bool) (v : Word) : Word := if gate then v else 0

/-- FT_SYM of a present entry (R42). -/
def ftSymWord (e : FtEntry) : Word := (1 : BitVec 1) ++ (0 : BitVec 24) ++ e.sym

/-- NODE_INFO of a present node (R45). -/
def nodeInfoWord (n : Node) : Word :=
  (1 : BitVec 1) ++ (0 : BitVec 7) ++ BitVec.ofBool n.leaf ++ n.sym ++ n.right ++ n.left

/-- CT_INFO of a present entry (R46). -/
def ctInfoWord (e : CtEntry) : Word := (1 : BitVec 1) ++ (0 : BitVec 24) ++ e.len

/-- The left-aligned code of an entry: its first `len` bits (R46). -/
def CtEntry.window (e : CtEntry) : BitVec 128 := leftAligned (e.bits.take e.len.toNat)

/-- The value a register shows while IDLE (R30 to R47). OBUF_POP: what its read returns (R36). -/
def State.regValue (s : State) : HostReg → Word
  | .cmd => 0
  | .status => s.statusWord
  | .erridx => s.erridx
  | .errval => s.errval.setWidth 32
  | .ibufPush => 0
  | .ibufLen => BitVec.ofNat 32 s.ibuf.length
  | .obufPop => match s.obuf with
    | [] => 0x80000000
    | b :: _ => b.setWidth 32
  | .obufLen => BitVec.ofNat 32 s.obuf.length
  | .sel => s.sel.setWidth 32
  | .total => gated s.ftValid s.total
  | .cnt => gated s.cntPresent (s.cntAt (s.sel.extractLsb' 0 7))
  | .ftLen => s.ftLen.setWidth 32
  | .ftSym => gated s.ftPresent (ftSymWord (s.ftAt s.sel.toNat))
  | .ftPlo => gated s.ftPresent ((s.ftAt s.sel.toNat).prob.extractLsb' 0 32)
  | .ftPhi => gated s.ftPresent ((s.ftAt s.sel.toNat).prob.extractLsb' 32 32)
  | .root => s.root.setWidth 32
  | .nodeCnt => s.nodeCnt.setWidth 32
  | .nodeInfo => gated s.nodePresent (nodeInfoWord (s.nodeAt s.sel))
  | .nodePlo => gated s.nodePresent ((s.nodeAt s.sel).prob.extractLsb' 0 32)
  | .nodePhi => gated s.nodePresent ((s.nodeAt s.sel).prob.extractLsb' 32 32)
  | .ctInfo => gated s.ctPresent (ctInfoWord s.ctSel)
  | .ctBits0 => gated s.ctPresent (s.ctSel.window.extractLsb' 0 32)
  | .ctBits1 => gated s.ctPresent (s.ctSel.window.extractLsb' 32 32)
  | .ctBits2 => gated s.ctPresent (s.ctSel.window.extractLsb' 64 32)
  | .ctBits3 => gated s.ctPresent (s.ctSel.window.extractLsb' 96 32)
  | .cur => s.cur.setWidth 32

/-- The value a read of an index returns: while BUSY every register but STATUS reads 0 (R238); an index without
a register reads 0 (R243). -/
def State.readValue (s : State) (i : Nat) : Word :=
  match regAt i with
  | none => 0
  | some .status => s.statusWord
  | some r => if s.busyBit then 0 else s.regValue r

/-- The state a read leaves: only OBUF_POP while IDLE has a side effect (R239, R242, R77). -/
def State.afterRead (s : State) (i : Nat) : State :=
  if s.busyBit then s
  else match regAt i with
    | some .obufPop => { s with obuf := s.obuf.tail }
    | _ => s

/-- IBUF_PUSH (R240). -/
def State.pushElem (s : State) (e : Elem) : State :=
  if s.ibuf.length < s.ibufCap then { s with ibuf := s.ibuf ++ [e] } else { s with iovf := true }

/-- A host write: ignored while BUSY (R238), at an index without a register and at a read-only one (R243). -/
def State.hostWrite (s : State) (i : Nat) (w : Word) : State :=
  if s.busyBit then s
  else match regAt i with
    | some .cmd => s.issue w
    | some .ibufPush => s.pushElem (elemOfWord w)
    | some .sel => { s with sel := w.extractLsb' 0 8 }
    | _ => s

/-- A host read, with what it returned kept for the host (R17; log 1). -/
def State.hostRead (s : State) (i : Nat) : State :=
  { s.afterRead i with hostReads := s.hostReads ++ [s.readValue i] }

/-- One host access falls before the pending command's completion (R235; log 2). -/
def State.spendDelay (s : State) : State :=
  if s.busyBit then { s with busyLeft := s.busyLeft - 1 } else s

/-- What the host has still to do. -/
def State.setScript (s : State) (rest : List HostAction) : State := { s with hostScript := rest }

/-- Register index of STATUS (R29). -/
def statusIndex : Nat := 0x01

/-- Register index of OBUF_POP (R29). -/
def obufPopIndex : Nat := 0x06

/-- The host performs the action at the head of its script; a loop of R117 is one access a step and stays at the
head until the value it waits for is read (log 12). -/
def State.hostStep (s : State) (a : HostAction) (rest : List HostAction) : Host.Outcome State Fault Refusal :=
  let t := s.spendDelay.setScript rest
  match a with
  | .rd i => .next (t.hostRead i)
  | .wr i w => .next (t.hostWrite i w)
  | .wait =>
    .next (if (t.readValue statusIndex).getLsbD 0 then (t.hostRead statusIndex).setScript (.wait :: rest)
      else t.hostRead statusIndex)
  | .popAll =>
    .next (if (t.readValue obufPopIndex).getLsbD 31 then t.hostRead obufPopIndex
      else (t.hostRead obufPopIndex).setScript (.popAll :: rest))
  | .busRd offset size =>
    if wholeRegister offset size then .next (t.hostRead (offset / 4)) else .refused .notWholeRegister
  | .busWr offset size w =>
    if wholeRegister offset size then .next (t.hostWrite (offset / 4) w) else .refused .notWholeRegister
  | .rst => .next t.assertReset

end Sys2Proof.Machine
end

