-- ==== Sys2Proof/Machine/Engine.lean ====
section
/-! DEFINITION. The events of an execution: 45_control_and_host_access.md R235 and R237. -/

namespace Sys2Proof.Machine

/-- The engine's one step: decode PEND and complete the command, or complete with IllegalCommandError (R237). -/
def State.completion (s : State) : Host.Outcome State Fault Refusal :=
  match decodeWord s.pend with
  | .ok i => exec i s
  | .error _ => .next s.completeIllegal

/-- The completion is the next event: a command is pending and no further host access falls before it (R235;
log 2). -/
def State.completionDue (s : State) : Bool :=
  s.busyBit && (s.busyLeft == 0 || s.hostScript.isEmpty)

/-- The next event: a completion, or the host's next action; with neither, nothing happens (R80; log 2). -/
def State.nextEvent (s : State) : Host.Outcome State Fault Refusal :=
  if s.completionDue then s.completion
  else match s.hostScript with
    | [] => .next s
    | a :: rest => s.hostStep a rest

end Sys2Proof.Machine
end

