-- ==== Sys2Proof/Machine/Step.lean ====
section
/-! DEFINITION. One step of the machine. HUFFCORE has no program counter and fetches nothing (10_state.md R21):
its next instruction is the pending command. -/

namespace Sys2Proof.Machine

/-- One event (R235). -/
def step (s : State) : Host.Outcome State Fault Refusal := s.nextEvent

/-- `s` with the word placed as the pending command, whose completion is the next event (log 1). -/
def State.withFetchWord (s : State) (nbits w : Nat) : State := s.placeCommand nbits w

end Sys2Proof.Machine
end

