-- ==== Sys2Proof/Machine/HostScript.lean ====
section
/-! DEFINITION. The host script's pseudo-actions and their expansions: 30_encoding.md R117. -/

namespace Sys2Proof.Machine

/-- `PUSH v`: an untagged element. -/
def actPush (v : Byte) : HostAction := .wr 0x04 (v.setWidth 32)

/-- `PUSHERR v`: a tagged element. -/
def actPushErr (v : Byte) : HostAction := .wr 0x04 (0x100 + v.setWidth 32)

/-- `PUSHS "text"`: one PUSH per character, each by its code (R107). -/
def actPushText (text : List Char) : List HostAction :=
  text.map fun c => actPush (BitVec.ofNat 8 c.toNat)

/-- `PUSHB b0 b1 ...`: one PUSH per byte. -/
def actPushBytes (bytes : List Byte) : List HostAction := bytes.map actPush

/-- `RUN mnemonic`: the command's word to CMD, then WAIT. -/
def actRun (i : Instr) : List HostAction := [.wr 0x00 (encode i), .wait]

end Sys2Proof.Machine
end

