-- ==== Sys2Proof/Safety.lean ====
section
/-! DEFINITION. What holds of every HUFFCORE state: the flag invariants of 10_state.md R28, the bounds of R49 and
the structural invariants R58 to R60. Claims use these as premises; that every step keeps them is itself a claim. -/

namespace Sys2Proof.Machine

/-- FT[0] to FT[FT_LEN-1] (R52). -/
def State.ftList (s : State) : List FtEntry := s.ft.toList.take s.ftLen.toNat

/-- The parameters are in the range of R8. -/
def State.ParamsOk (s : State) : Prop :=
  capacityInRange s.ibufCap = true ∧ capacityInRange s.obufCap = true

/-- The flag invariants (R28, but for its last clause), with the range of ERRCODE (R115). -/
structure State.FlagInv (s : State) : Prop where
  ct_tree : s.ctValid = true → s.treeValid = true
  tree_ft : s.treeValid = true → s.ftValid = true
  synth_two : s.synth = true → s.ftValid = true ∧ s.ftLen = 2
  err_done : s.err = true → s.done = true
  errcode_err : s.errcode ≠ 0 ↔ s.err = true
  errcode_range : s.errcode.toNat ≤ 8
  busy_clear : s.phase = .busy → s.done = false ∧ s.err = false

/-- The walker's clause of R28. -/
def State.WalkerInv (s : State) : Prop := s.midcode = true → s.cur ≠ nilIdx

/-- The buffers' bounds (R49), a dropped push implies a full IBUF (R270), BITBUF is within its
capacity (R50) and empty between commands (log 9). -/
structure State.BufferInv (s : State) : Prop where
  ibuf_cap : s.ibuf.length ≤ s.ibufCap
  obuf_cap : s.obuf.length ≤ s.obufCap
  iovf_full : s.iovf = true → s.ibuf.length = s.ibufCap
  bitbuf_cap : s.bitbuf.length ≤ s.bitbufCap
  bitbuf_empty : s.bitbuf = []

/-- What lengths, ROOT and the presence bits are while a valid flag is 0 (R41, R43, R44, R57, R272). -/
structure State.GateInv (s : State) : Prop where
  ft : s.ftValid = false → s.ftLen = 0
  tree : s.treeValid = false → s.nodeCnt = 0 ∧ s.root = nilIdx
  ct : s.ctValid = false → ∀ x, (s.ctAt x).valid = false

/-- The frequency table's invariant while FT_VALID = 1 (R58). -/
structure State.FtTable (s : State) : Prop where
  len_range : 2 ≤ s.ftLen.toNat ∧ s.ftLen.toNat ≤ 128
  distinct : (s.ftList.map FtEntry.sym).Nodup
  sorted : s.ftList.Pairwise fun x y => wLe x.prob y.prob = true ∧ (wLe y.prob x.prob = true → x.sym < y.sym)
  total_pos : 1 ≤ s.total.toNat
  total_sum : s.total.toNat = (s.cnt.toList.map BitVec.toNat).sum
  observed : s.synth = false →
    s.ftLen.toNat = s.cnt.toList.countP (fun c => c ≠ 0) ∧
    ∀ e ∈ s.ftList, s.cntAt e.sym ≠ 0 ∧ e.prob = wDiv (s.cntAt e.sym).toNat s.total.toNat ∧
      wLe e.prob weightZero = false
  synthetic : s.synth = true →
    ∃ x : Sym, s.ftList = [⟨x + 1, weightZero⟩, ⟨x, weightOne⟩] ∧ s.cntAt x = s.total

/-- The tree's invariant while TREE_VALID = 1 (R59, R84): one binary tree, a child's index below its parent's,
every node but ROOT a child exactly once. -/
structure State.TreeTable (s : State) : Prop where
  count : s.nodeCnt.toNat = 2 * s.ftLen.toNat - 1
  root_last : s.root.toNat = 2 * s.ftLen.toNat - 2
  leaves : ∀ i : NodeIdx, i.toNat < s.ftLen.toNat → s.nodeAt i = leafNode (s.ftAt i.toNat)
  internal : ∀ k : NodeIdx, s.ftLen.toNat ≤ k.toNat → k.toNat ≤ 2 * s.ftLen.toNat - 2 →
    (s.nodeAt k).leaf = false ∧ (s.nodeAt k).sym = 0 ∧
    (s.nodeAt k).left < k ∧ (s.nodeAt k).right < k ∧ (s.nodeAt k).left ≠ (s.nodeAt k).right ∧
    (s.nodeAt k).prob = wAdd (s.nodeAt (s.nodeAt k).left).prob (s.nodeAt (s.nodeAt k).right).prob
  one_parent : ∀ j : NodeIdx, j.toNat < 2 * s.ftLen.toNat - 2 →
    ∃! p : NodeIdx × Bool, s.ftLen.toNat ≤ p.1.toNat ∧ p.1.toNat ≤ 2 * s.ftLen.toNat - 2 ∧ s.child p.1 p.2 = j

/-- The bits lead from node `n` down to node `m`, every node left on the way being internal (R172, R219). -/
def State.LeadsTo (s : State) : NodeIdx → Bits → NodeIdx → Prop
  | n, [], m => n = m
  | n, b :: bs, m => (s.nodeAt n).leaf = false ∧ s.LeadsTo (s.child n b) bs m

/-- The bits are the path from ROOT to the leaf of symbol `x` (R113, R172). -/
def State.IsCode (s : State) (x : Sym) (b : Bits) : Prop :=
  ∃ m, s.LeadsTo s.root b m ∧ (s.nodeAt m).leaf = true ∧ (s.nodeAt m).sym = x

/-- The code table's invariant while CT_VALID = 1 (R60). -/
structure State.CodeTable (s : State) : Prop where
  present : ∀ x, (s.ctAt x).valid = true ↔ x ∈ s.ftList.map FtEntry.sym
  path : ∀ x, (s.ctAt x).valid = true → s.IsCode x (s.ctAt x).bits
  len : ∀ x, (s.ctAt x).valid = true →
    (s.ctAt x).len.toNat = (s.ctAt x).bits.length ∧ 1 ≤ (s.ctAt x).bits.length ∧
    (s.ctAt x).bits.length ≤ s.ftLen.toNat - 1
  prefix_free : ∀ x y, (s.ctAt x).valid = true → (s.ctAt y).valid = true →
    (s.ctAt x).bits <+: (s.ctAt y).bits → x = y
  complete : ∀ b : Bits, s.ftLen.toNat - 1 ≤ b.length →
    ∃! x, (s.ctAt x).valid = true ∧ (s.ctAt x).bits <+: b

/-- The whole invariant: R28, R49, R58, R59, R60. -/
structure State.Inv (s : State) : Prop where
  params : s.ParamsOk
  flags : s.FlagInv
  walker : s.WalkerInv
  buffers : s.BufferInv
  gates : s.GateInv
  table : s.ftValid = true → s.FtTable
  tree : s.treeValid = true → s.TreeTable
  codes : s.ctValid = true → s.CodeTable

end Sys2Proof.Machine
end

