-- ==== Sys2Proof/Certificates/Slice0/Obligations.lean ====
section
/-! DEFINITION. The statements for the provers. Helpers first: they spell out, in the spec's own terms, what a
statement's conclusion says. -/

namespace Sys2Proof.Claims
open Sys2Proof Sys2Proof.Machine

/-- `s` completed with outcome ok and nothing else changed (R237, R24). -/
def okDone (s : State) : State :=
  { s with phase := .idle, done := true, err := false, errcode := 0, erridx := 0, errval := 0 }

/-- `s` completed with outcome error(code, idx, val) and nothing else changed (R271). -/
def errDone (s : State) (code : BitVec 4) (idx : Word) (val : Byte) : State :=
  { s with phase := .idle, done := true, err := true, errcode := code, erridx := idx, errval := val }

/-- The command completed ok. -/
def CompletedOk (t : State) : Prop :=
  t.phase = .idle ∧ t.done = true ∧ t.err = false ∧ t.errcode = 0 ∧ t.erridx = 0 ∧ t.errval = 0

/-- The command completed with error(code, idx, val). -/
def CompletedWith (t : State) (code : BitVec 4) (idx : Word) (val : Byte) : Prop :=
  t.phase = .idle ∧ t.done = true ∧ t.err = true ∧ t.errcode = code ∧ t.erridx = idx ∧ t.errval = val

/-- No entry of the code table is present. -/
def NoCodes (t : State) : Prop := ∀ x, (t.ctAt x).valid = false

/-- The session's structures are gone (R131, R140). -/
def SessionEnded (t : State) : Prop :=
  t.ftValid = false ∧ t.treeValid = false ∧ t.ctValid = false ∧ t.synth = false ∧
  t.ftLen = 0 ∧ t.nodeCnt = 0 ∧ t.root = 0xFF ∧ NoCodes t

/-- The element can be read as a symbol: tag 0 and data below 128 (R132). -/
def IsSymbol (e : Elem) : Prop := e.tag = false ∧ e.data.toNat < 128

/-- The element can be read as a `0` or `1` character (R186). -/
def IsBitChar (e : Elem) : Prop := e.tag = false ∧ (e.data = 0x30 ∨ e.data = 0x31)

/-- The symbol of an element: data[6:0] (R105). -/
def symOf (e : Elem) : Sym := BitVec.ofNat 7 e.data.toNat

/-- The eight bits of a byte, bit 7 first (R109). -/
def bits8 (y : Byte) : Bits := (List.range 8).map fun k => y.getMsbD k

/-- The padded bitstring of a payload (R111, R187). -/
def padded (b : Bits) : Bits := List.replicate (7 - b.length % 8) false ++ true :: b

/-- The bytes hold exactly the padded payload (R109, R188, R189). -/
def PackedAs (out : List Byte) (b : Bits) : Prop :=
  out.flatMap bits8 = padded b ∧ out.length = b.length / 8 + 1

/-- The bitstring that unpacking the bytes gives (R197 to R199). -/
def UnpackedAs (ys : List Byte) (r : Bits) : Prop :=
  (∃ k, k < 8 ∧ ys.flatMap bits8 = List.replicate k false ++ true :: r) ∨
  ((∀ k, k < 8 → (ys.flatMap bits8)[k]? ≠ some true) ∧ r = (ys.flatMap bits8).drop 8)

/-- The real number a finite non-negative pattern stands for (R12): its significand and exponent. -/
def weightValue (w : Weight) : ℚ :=
  (weightSig w : ℚ) * 2 ^ weightScale w / 2 ^ 1075

/-- `w` is the binary64 number nearest to `x`, ties to the even fraction (R13, R14). -/
def IsNearest (w : Weight) (x : ℚ) : Prop :=
  weightFinite w = true ∧
  ∀ y : Weight, weightFinite y = true → y ≠ w →
    |weightValue w - x| < |weightValue y - x| ∨
    (|weightValue w - x| = |weightValue y - x| ∧ w.getLsbD 0 = false)

/-- One selection of BUILD with the source queue `sq .. L-1` and the target queue `tq .. tail-1` takes `n` and
leaves the fronts `sq'` and `tq'` (R154). -/
def Selects (w : Nat → Weight) (L tail sq tq n sq' tq' : Nat) : Prop :=
  (n = sq ∧ sq' = sq + 1 ∧ tq' = tq ∧ sq < L ∧ (tq = tail ∨ wLe (w sq) (w tq) = true)) ∨
  (n = tq ∧ sq' = sq ∧ tq' = tq + 1 ∧ tq < tail ∧ (sq = L ∨ wLe (w sq) (w tq) = false))

/-- The host's four register actions and the byte-bus access of a whole register: everything but `rst`. -/
def IsAccess : HostAction → Prop
  | .rst => False
  | a => a.wellFormed = true

/-- The state the host's accesses leave while BUSY: HUFFCORE untouched, the host's own side moved on. -/
def OnlyHostSideMoved (s t : State) : Prop :=
  t = { s with hostScript := t.hostScript, hostReads := t.hostReads, busyLeft := t.busyLeft }

/-- `a` is the state after encoding the text in IBUF, either way R222 names. -/
def EncodedFrom (s a : State) : Prop :=
  exec .compress s = .next a ∨
  ∃ f b c, exec .freq s = .next f ∧ exec .build f = .next b ∧ exec .cgen b = .next c ∧ exec .encode c = .next a

end Sys2Proof.Claims

open Sys2Proof Sys2Proof.Machine Sys2Proof.Claims

/-! ## Decoding, and how a step runs a command -/

/-- R101: the decoder matches the whole word, ten words and no others. -/
def Obligations.CommandWordsAreTheTenOfTheMap : Prop :=
  ∀ w : Word,
    (decodeWord w = .ok .clr ↔ w = 0x00000001) ∧ (decodeWord w = .ok .iclr ↔ w = 0x00000002) ∧
    (decodeWord w = .ok .freq ↔ w = 0x00000003) ∧ (decodeWord w = .ok .build ↔ w = 0x00000004) ∧
    (decodeWord w = .ok .cgen ↔ w = 0x00000005) ∧ (decodeWord w = .ok .encode ↔ w = 0x00000006) ∧
    (decodeWord w = .ok .decode ↔ w = 0x00000007) ∧ (decodeWord w = .ok .pack ↔ w = 0x00000008) ∧
    (decodeWord w = .ok .unpack ↔ w = 0x00000009) ∧ (decodeWord w = .ok .compress ↔ w = 0x0000000A)

/-- R102: a word is illegal exactly when a bit of [31:4] is set or OPC is 0x0 or 0xB to 0xF. -/
def Obligations.ReservedWordsAreIllegal : Prop :=
  ∀ w : Word, (∀ i, decodeWord w ≠ .ok i) ↔
    (2 ^ 4 ≤ w.toNat ∨ w.toNat % 16 = 0 ∨ 11 ≤ w.toNat % 16)

/-- Decoding an encoded command gives it back, also through the table's numbering of bits. -/
def Obligations.EncodedCommandsDecodeBack : Prop :=
  ∀ i : Instr, i.wellFormed = true ∧ decodeWord (encode i) = .ok i ∧
    decodeTableWord 32 (encode i).toNat = some i

/-- A few words written out bit by bit from R100 and R101: RSV in 31:4, OPC in 3:0. -/
def Obligations.SampleWordsDecode : Prop :=
  decodeWord 0b00000000000000000000000000000001#32 = .ok .clr ∧
  decodeWord 0b00000000000000000000000000000011#32 = .ok .freq ∧
  decodeWord 0b00000000000000000000000000000100#32 = .ok .build ∧
  decodeWord 0b00000000000000000000000000000101#32 = .ok .cgen ∧
  decodeWord 0b00000000000000000000000000000111#32 = .ok .decode ∧
  decodeWord 0b00000000000000000000000000001000#32 = .ok .pack ∧
  decodeWord 0b00000000000000000000000000001010#32 = .ok .compress ∧
  decodeWord 0b00000000000000000000000000010011#32 = .error .reservedBitsSet ∧
  decodeWord 0b00000000000000000000000000000000#32 = .error .reservedOpcode ∧
  decodeWord 0b00000000000000000000000000001011#32 = .error .reservedOpcode

/-- R237: a pending legal command whose completion is due is run by the step. That it is due at once where the
host has no action left is the model's choice (log 2). -/
def Obligations.StepCompletesThePendingCommand : Prop :=
  ∀ (s : State) (i : Instr), s.phase = .busy → (s.busyLeft = 0 ∨ s.hostScript = []) →
    decodeWord s.pend = .ok i → step s = exec i s

/-- A command placed for the next step is run by the next step, with the record cleared as at its issue. -/
def Obligations.PlacedCommandRunsAtTheNextStep : Prop :=
  ∀ (s : State) (i : Instr),
    step (s.withFetchWord 32 (encode i).toNat) = exec i (s.withFetchWord 32 (encode i).toNat) ∧
    s.withFetchWord 32 (encode i).toNat =
      { s with pend := encode i, phase := .busy, done := false, err := false,
               errcode := 0, erridx := 0, errval := 0, busyLeft := 0 }

/-- R267: an illegal pending word only records itself. -/
def Obligations.IllegalWordRecordsOnlyItself : Prop :=
  ∀ s : State, s.phase = .busy → (s.busyLeft = 0 ∨ s.hostScript = []) →
    s.pend.toNat ∉ [1, 2, 3, 4, 5, 6, 7, 8, 9, 10] →
    step s = .next (errDone s 7 s.pend 0)

/-- R235, R117, R74: while IDLE the step is the host's next access, on the state without that action. WAIT reads
STATUS, which shows BUSY = 0, and is over. POPALL pops one element and stays, or reads bit 31 from an empty OBUF and
is over. A bus access of a whole register is the access to it, any other is refused. That the reads' values are kept
(log 1), that a loop makes one access a step (log 12) and that with no action left nothing happens (log 2) are the
model's choices. -/
def Obligations.IdleStepIsTheHostsAccess : Prop :=
  ∀ (s : State) (rest : List HostAction), s.phase = .idle →
    (∀ i, s.hostScript = .rd i :: rest →
      step s = .next { s.afterRead i with hostScript := rest, hostReads := s.hostReads ++ [s.readValue i] }) ∧
    (∀ i w, s.hostScript = .wr i w :: rest →
      step s = .next { s.hostWrite i w with hostScript := rest }) ∧
    (s.hostScript = .wait :: rest →
      step s = .next { s with hostScript := rest, hostReads := s.hostReads ++ [s.statusWord] } ∧
      s.statusWord.getLsbD 0 = false) ∧
    (s.hostScript = .popAll :: rest →
      (∀ b bs, s.obuf = b :: bs → ∃ v : Word, v.toNat = b.toNat ∧
        step s = .next { s with obuf := bs, hostReads := s.hostReads ++ [v] }) ∧
      (s.obuf = [] → step s = .next { s with hostScript := rest, hostReads := s.hostReads ++ [0x80000000] })) ∧
    (∀ offset size, s.hostScript = .busRd offset size :: rest →
      (size = 4 ∧ offset % 4 = 0 →
        step s = .next { s.afterRead (offset / 4) with
          hostScript := rest, hostReads := s.hostReads ++ [s.readValue (offset / 4)] }) ∧
      (¬ (size = 4 ∧ offset % 4 = 0) → step s = .refused .notWholeRegister)) ∧
    (∀ offset size w, s.hostScript = .busWr offset size w :: rest →
      (size = 4 ∧ offset % 4 = 0 → step s = .next { s.hostWrite (offset / 4) w with hostScript := rest }) ∧
      (¬ (size = 4 ∧ offset % 4 = 0) → step s = .refused .notWholeRegister)) ∧
    (s.hostScript = [] → step s = .next s)

/-- R238: while BUSY an access changes nothing of HUFFCORE, STATUS reads its value with BUSY = 1, every other
register reads 0, and each access brings the completion one nearer (R235, log 2). -/
def Obligations.BusyAccessesAreLost : Prop :=
  ∀ (s : State) (a : HostAction) (rest : List HostAction) (n : Nat), s.phase = .busy →
    s.busyLeft = n + 1 → s.hostScript = a :: rest → IsAccess a →
    (∃ t, step s = .next t ∧ OnlyHostSideMoved s t ∧ t.busyLeft = n) ∧
    (∀ i w, s.hostWrite i w = s ∧ s.afterRead i = s ∧ (i ≠ 1 → s.readValue i = 0)) ∧
    s.readValue 1 = s.statusWord ∧ (s.readValue 1).getLsbD 0 = true

/-- R235, R237, R238: with no reset to come, a pending command completes after finitely many events: within its draw
of accesses, none of which changes HUFFCORE, and one completion, which sets DONE. That the draw is `busyLeft`, and that
the completion is due at once where the host has no action left, are the model's choices (log 2). -/
def Obligations.PendingCommandCompletes : Prop :=
  ∀ s : State, s.phase = .busy → s.leavesOutOfRange = false → (∀ a ∈ s.hostScript, IsAccess a) →
    ∃ k u t, k ≤ s.busyLeft ∧ Sys2Proof.core.run k s = .next u ∧ OnlyHostSideMoved s u ∧
      step u = .next t ∧ t.phase = .idle ∧ t.done = true

/-- R74: a bus access that is not one whole aligned register is refused; one that is, is the register access
(R71). -/
def Obligations.BusAccessIsAWholeRegister : Prop :=
  ∀ (s : State) (rest : List HostAction) (offset size : Nat) (w : Word), s.phase = .idle →
    (size = 4 ∧ offset % 4 = 0 →
      s.hostStep (.busRd offset size) rest = s.hostStep (.rd (offset / 4)) rest ∧
      s.hostStep (.busWr offset size w) rest = s.hostStep (.wr (offset / 4) w) rest) ∧
    (¬ (size = 4 ∧ offset % 4 = 0) →
      s.hostStep (.busRd offset size) rest = .refused .notWholeRegister ∧
      s.hostStep (.busWr offset size w) rest = .refused .notWholeRegister)

/-! ## Host accesses while IDLE -/

/-- R236: a CMD write while IDLE keeps the word, clears the record and makes the engine BUSY, whatever the word
is; while BUSY it is ignored. The draw of the BUSY duration is the model's own side (log 2). -/
def Obligations.IssueKeepsTheWordAndClearsTheRecord : Prop :=
  ∀ (s : State) (w : Word),
    (s.phase = .idle → s.hostWrite 0x00 w =
      { s with
        pend := w, phase := .busy, done := false, err := false, errcode := 0, erridx := 0, errval := 0
        busyLeft := (s.hostWrite 0x00 w).busyLeft, busyDraws := (s.hostWrite 0x00 w).busyDraws
        issued := (s.hostWrite 0x00 w).issued }) ∧
    (s.phase = .busy → s.hostWrite 0x00 w = s)

/-- R240: a push appends {w[8], w[7:0]} or, into a full IBUF, sets IOVF; nothing else changes. -/
def Obligations.PushAppendsOrMarksOverflow : Prop :=
  ∀ (s : State) (w : Word), s.phase = .idle →
    (s.ibuf.length < s.ibufCap →
      s.hostWrite 0x04 w = { s with ibuf := s.ibuf ++ [⟨w.getLsbD 8, BitVec.ofNat 8 w.toNat⟩] }) ∧
    (s.ibufCap ≤ s.ibuf.length → s.hostWrite 0x04 w = { s with iovf := true })

/-- R241: a SEL write sets SEL to w[7:0] and nothing else. -/
def Obligations.SelWriteSetsOnlySel : Prop :=
  ∀ (s : State) (w : Word), s.phase = .idle →
    s.hostWrite 0x08 w = { s with sel := BitVec.ofNat 8 w.toNat }

/-- R242, first two sentences, and R36: OBUF_POP; a write to it is ignored. -/
def Obligations.PopTakesTheFirstElement : Prop :=
  ∀ s : State, s.phase = .idle →
    (∀ b bs, s.obuf = b :: bs →
      (s.readValue 0x06).toNat = b.toNat ∧ s.afterRead 0x06 = { s with obuf := bs }) ∧
    (s.obuf = [] → s.readValue 0x06 = 0x80000000 ∧ s.afterRead 0x06 = s) ∧
    (∀ w, s.hostWrite 0x06 w = s)

/-- R243: a write to a read-only register, and any access at 0x1A or above, does nothing; such a read gives 0. -/
def Obligations.OtherAccessesDoNothing : Prop :=
  ∀ (s : State) (i : Nat) (w : Word), s.phase = .idle →
    (i ≠ 0x00 → i ≠ 0x04 → i ≠ 0x08 → s.hostWrite i w = s) ∧
    (0x1A ≤ i → s.readValue i = 0 ∧ s.afterRead i = s)

/-- R239: while IDLE only the read of OBUF_POP changes state, and the write-only registers read 0. -/
def Obligations.OnlyThePopReadHasAnEffect : Prop :=
  ∀ (s : State) (i : Nat), s.phase = .idle →
    (i ≠ 0x06 → s.afterRead i = s) ∧ s.readValue 0x00 = 0 ∧ s.readValue 0x04 = 0

/-- R31: the fields of STATUS; what it shows from issue to completion; R48: `done` and `err` are its bits 1, 2. -/
def Obligations.StatusFields : Prop :=
  (∀ s : State,
    (s.readValue 1).getLsbD 0 = decide (s.phase = .busy) ∧ (s.readValue 1).getLsbD 1 = s.done ∧
    (s.readValue 1).getLsbD 2 = s.err ∧ (s.readValue 1).getLsbD 3 = s.ftValid ∧
    (s.readValue 1).getLsbD 4 = s.treeValid ∧ (s.readValue 1).getLsbD 5 = s.ctValid ∧
    (s.readValue 1).getLsbD 6 = s.synth ∧ (s.readValue 1).getLsbD 7 = s.midcode ∧
    (s.readValue 1).getLsbD 8 = s.iovf ∧ (s.readValue 1).toNat / 2 ^ 9 % 8 = 0 ∧
    (s.readValue 1).toNat / 2 ^ 12 = s.errcode.toNat ∧
    s.doneOut = (s.readValue 1).getLsbD 1 ∧ s.errOut = (s.readValue 1).getLsbD 2) ∧
  (∀ (s : State) (w : Word), s.phase = .idle →
    let t := s.hostWrite 0x00 w
    (t.readValue 1).toNat % 8 = 1 ∧ (t.readValue 1).toNat / 2 ^ 9 = 0 ∧
    (t.readValue 1).toNat / 8 % 64 = (s.readValue 1).toNat / 8 % 64)

/-- R39, R40: TOTAL, and CNT of the symbol SEL selects, shown only while FT_VALID = 1. -/
def Obligations.CountRegisters : Prop :=
  ∀ s : State, s.phase = .idle →
    s.readValue 0x09 = (if s.ftValid then s.total else 0) ∧
    (∀ x : Sym, s.sel.toNat = x.toNat → s.readValue 0x0A = (if s.ftValid then s.cntAt x else 0)) ∧
    (128 ≤ s.sel.toNat → s.readValue 0x0A = 0)

/-- R42: the FT window. -/
def Obligations.FtWindowShowsTheSelectedEntry : Prop :=
  ∀ s : State, s.phase = .idle →
    (∀ e, s.ftValid = true → s.ftList[s.sel.toNat]? = some e →
      (s.readValue 0x0C).toNat = 2 ^ 31 + e.sym.toNat ∧
      (s.readValue 0x0E).toNat * 2 ^ 32 + (s.readValue 0x0D).toNat = e.prob.toNat) ∧
    (¬ (s.ftValid = true ∧ s.sel.toNat < s.ftLen.toNat) →
      s.readValue 0x0C = 0 ∧ s.readValue 0x0D = 0 ∧ s.readValue 0x0E = 0)

/-- R45: the NODE window; what it shows of a leaf and of an internal node of a tree. -/
def Obligations.NodeWindowShowsTheSelectedNode : Prop :=
  ∀ s : State, s.phase = .idle →
    (s.treeValid = true → s.sel.toNat < s.nodeCnt.toNat →
      let n := s.nodeAt s.sel
      (s.readValue 0x11).toNat = 2 ^ 31 + 2 ^ 23 * n.leaf.toNat + 2 ^ 16 * n.sym.toNat
        + 2 ^ 8 * n.right.toNat + n.left.toNat ∧
      (s.readValue 0x13).toNat * 2 ^ 32 + (s.readValue 0x12).toNat = n.prob.toNat ∧
      (s.TreeTable → (n.leaf = true → n.left = 0xFF ∧ n.right = 0xFF) ∧ (n.leaf = false → n.sym = 0))) ∧
    (¬ (s.treeValid = true ∧ s.sel.toNat < s.nodeCnt.toNat) →
      s.readValue 0x11 = 0 ∧ s.readValue 0x12 = 0 ∧ s.readValue 0x13 = 0)

/-- R46: the CT window: PRESENT and `len`, and the code left-aligned in 128 bits over four registers. -/
def Obligations.CtWindowShowsTheSelectedCode : Prop :=
  ∀ s : State, s.phase = .idle →
    (∀ x : Sym, s.ctValid = true → s.sel.toNat = x.toNat → (s.ctAt x).valid = true →
      (s.readValue 0x14).toNat = 2 ^ 31 + (s.ctAt x).len.toNat ∧
      (s.CodeTable → 1 ≤ (s.ctAt x).len.toNat ∧ (s.ctAt x).len.toNat ≤ 127) ∧
      ∀ i, i < 128 →
        (s.readValue 0x18 ++ s.readValue 0x17 ++ s.readValue 0x16 ++ s.readValue 0x15).getLsbD (127 - i) =
          (decide (i < (s.ctAt x).len.toNat) && (s.ctAt x).bits[i]?.getD false)) ∧
    ((∀ x : Sym, s.ctValid = true → s.sel.toNat = x.toNat → (s.ctAt x).valid = false) →
      s.readValue 0x14 = 0 ∧ s.readValue 0x15 = 0 ∧ s.readValue 0x16 = 0 ∧ s.readValue 0x17 = 0 ∧
      s.readValue 0x18 = 0)

/-- R32, R33, R35, R37, R38, R41, R43, R44, R47: the registers that show one element. The ranges of FT_LEN, ROOT
and NODE_CNT are those of the state invariant. -/
def Obligations.PlainRegistersShowTheirElement : Prop :=
  ∀ s : State, s.phase = .idle → s.Inv →
    s.readValue 0x02 = s.erridx ∧ (s.readValue 0x03).toNat = s.errval.toNat ∧
    (s.readValue 0x05).toNat = s.ibuf.length ∧ s.ibuf.length ≤ s.ibufCap ∧
    (s.readValue 0x07).toNat = s.obuf.length ∧ s.obuf.length ≤ s.obufCap ∧
    (s.readValue 0x08).toNat = s.sel.toNat ∧
    (s.readValue 0x0B).toNat = s.ftLen.toNat ∧
    (s.ftValid = false → s.readValue 0x0B = 0) ∧
    (s.ftValid = true → 2 ≤ (s.readValue 0x0B).toNat ∧ (s.readValue 0x0B).toNat ≤ 128) ∧
    (s.readValue 0x0F).toNat = s.root.toNat ∧ (s.treeValid = false → s.readValue 0x0F = 0xFF) ∧
    (s.readValue 0x10).toNat = s.nodeCnt.toNat ∧ (s.treeValid = false → s.readValue 0x10 = 0) ∧
    (s.treeValid = true → (s.readValue 0x10).toNat = 2 * s.ftLen.toNat - 1) ∧
    (s.readValue 0x19).toNat = s.cur.toNat

/-! ## Reset -/

/-- R291: what every register reads after reset, for every capacity. -/
def Obligations.ResetRegisterValues : Prop :=
  ∀ a b i : Nat,
    (State.resetWith a b).readValue i =
      (if i = 0x06 then 0x80000000 else if i = 0x0F ∨ i = 0x19 then 0x000000FF else 0)

/-- R290: reset replaces the state by the reset state and abandons a pending command. The capacities and the host's
side are not HUFFCORE's and stay (log 11). -/
def Obligations.ResetAbandonsThePendingCommand : Prop :=
  ∀ (s : State) (rest : List HostAction) (n : Nat), s.hostScript = .rst :: rest →
    (s.phase = .idle ∨ s.busyLeft = n + 1) →
    step s = .next
      { State.resetWith s.ibufCap s.obufCap with
        hostScript := rest, hostReads := s.hostReads, busyDraws := s.busyDraws, issued := s.issued }

/-- The reset state is a HUFFCORE state, for every admitted capacity. -/
def Obligations.ResetSatisfiesTheInvariant : Prop :=
  ∀ a b : Nat, 1 ≤ a ∧ a ≤ 2 ^ 32 - 1 → 1 ≤ b ∧ b ≤ 2 ^ 32 - 1 → (State.resetWith a b).Inv

/-! ## Invariants every step keeps -/

/-- R28 (all but its last clause) and R115, from every state, reached or not. -/
def Obligations.FlagInvariantIsKept : Prop :=
  ∀ s t : State, s.FlagInv → step s = .next t → t.FlagInv

/-- R49, R50, R270: the buffers' bounds, from every state. That BITBUF is empty between commands, which U10 leaves
open, is the model's choice (log 9). -/
def Obligations.BufferBoundsAreKept : Prop :=
  ∀ s t : State, s.ParamsOk ∧ s.BufferInv → step s = .next t → t.ParamsOk ∧ t.BufferInv

/-- R41, R43, R44: what lengths, ROOT and presence bits are while a valid flag is 0, from every state. -/
def Obligations.GatedElementsStayCleared : Prop :=
  ∀ s t : State, s.GateInv → step s = .next t → t.GateInv

/-- R28, R49, R58, R59, R60: every step keeps the whole invariant; no step faults (R16), and from a HUFFCORE state
the only refusal is a bus access that is not a whole register (R74). That the invariant has BITBUF empty between
commands, which U10 leaves open, is the model's choice (log 9). -/
def Obligations.WholeInvariantIsKept : Prop :=
  ∀ s : State, s.Inv →
    (∀ t, step s = .next t → t.Inv) ∧
    (∀ f, step s ≠ .fault f) ∧
    (∀ r, step s = .refused r → r = .notWholeRegister)

/-! ## Weights -/

/-- R13: `w_div` is the correctly rounded quotient, and unequal counts give unequal weights in the same order. -/
def Obligations.WDivIsTheNearestQuotient : Prop :=
  ∀ c t : Nat, 1 ≤ c → c ≤ t → t ≤ 2 ^ 32 - 1 →
    IsNearest (wDiv c t) ((c : ℚ) / t) ∧
    ∀ c', c < c' → c' ≤ t → wLe (wDiv c t) (wDiv c' t) = true ∧ wLe (wDiv c' t) (wDiv c t) = false

/-- R14: `w_add` is the correctly rounded sum (where the sum does not exceed the largest finite number) and `w_le`
compares the values. -/
def Obligations.WAddIsTheNearestSum : Prop :=
  ∀ a b : Weight, weightFinite a = true → weightFinite b = true →
    (weightValue a + weightValue b ≤ weightValue 0x7FEFFFFFFFFFFFFF →
      IsNearest (wAdd a b) (weightValue a + weightValue b)) ∧
    (wLe a b = true ↔ weightValue a ≤ weightValue b)

/-! ## CLR and ICLR -/

/-- R244: CLR leaves the reset state but for DONE = 1 and PEND. That the data memories whose content the spec then
leaves unspecified keep theirs is the model's choice (log 8). -/
def Obligations.ClrLeavesTheResetState : Prop :=
  decodeWord 0x00000001 = .ok .clr ∧ ∀ s : State, ∃ t, exec .clr s = .next t ∧ CompletedOk t ∧ SessionEnded t ∧
    t.readValue 1 = 0x00000002 ∧
    t = { s with
      phase := .idle, done := true, err := false, errcode := 0, erridx := 0, errval := 0
      ftValid := false, treeValid := false, ctValid := false, synth := false, midcode := false, iovf := false
      ftLen := 0, nodeCnt := 0, root := 0xFF, cur := 0xFF, sel := 0, ibuf := [], obuf := [], ct := t.ct }

/-- R245: ICLR empties IBUF and clears IOVF, always completes ok, and nothing else changes. -/
def Obligations.IclrEmptiesTheInputBuffer : Prop :=
  decodeWord 0x00000002 = .ok .iclr ∧ ∀ s : State, exec .iclr s = .next (okDone { s with ibuf := [], iovf := false })

/-! ## FREQ -/

/-- R132, R140: the input checks of FREQ in their order; an error ends the session and changes nothing else, but
that nothing is said of CNT and TOTAL, which are then unspecified and read 0. That FT and NODE, which U9 leaves open
too, keep their contents is the model's choice (log 8). -/
def Obligations.FreqChecksItsInput : Prop :=
  ∀ s : State, ∃ t, exec .freq s = .next t ∧
    (t.err = true → SessionEnded t ∧ t.readValue 0x09 = 0 ∧ t.readValue 0x0A = 0 ∧
      t = { s with
        phase := t.phase, done := t.done, err := t.err, errcode := t.errcode, erridx := t.erridx
        errval := t.errval, ftValid := false, treeValid := false, ctValid := false, synth := false
        ftLen := 0, nodeCnt := 0, root := 0xFF, ct := t.ct, cnt := t.cnt, total := t.total }) ∧
    (s.iovf = true → CompletedWith t 8 0 1) ∧
    (s.iovf = false → s.ibuf = [] → CompletedWith t 1 0 0) ∧
    (∀ pre e post, s.iovf = false → s.ibuf = pre ++ e :: post → (∀ p ∈ pre, IsSymbol p) →
      (e.tag = true → CompletedWith t 3 (BitVec.ofNat 32 pre.length) e.data) ∧
      (e.tag = false → 128 ≤ e.data.toNat → CompletedWith t 5 (BitVec.ofNat 32 pre.length) e.data)) ∧
    (s.iovf = false → s.ibuf ≠ [] → (∀ e ∈ s.ibuf, IsSymbol e) → CompletedOk t)

/-- R133: the counters. -/
def Obligations.FreqCountsEverySymbol : Prop :=
  ∀ s : State, s.iovf = false → s.ibuf ≠ [] → (∀ e ∈ s.ibuf, IsSymbol e) →
    s.ibuf.length ≤ s.ibufCap → s.ibufCap ≤ 2 ^ 32 - 1 →
    ∃ t, exec .freq s = .next t ∧ CompletedOk t ∧
      (∀ x : Sym, (t.cntAt x).toNat = s.ibuf.countP fun e => symOf e = x) ∧
      t.total.toNat = s.ibuf.length ∧
      (t.cnt.toList.map BitVec.toNat).sum = t.total.toNat ∧ 1 ≤ t.total.toNat ∧ t.total.toNat ≤ s.ibufCap

/-- R139, with R58 for the table and the frame of FREQ; R138: the order is that of (CNT, symbol). -/
def Obligations.FreqBuildsTheSortedTable : Prop :=
  ∀ s : State, s.iovf = false → s.ibuf ≠ [] → (∀ e ∈ s.ibuf, IsSymbol e) → s.ibuf.length ≤ 2 ^ 32 - 1 →
    ∃ t, exec .freq s = .next t ∧ CompletedOk t ∧ t.ftValid = true ∧ t.FtTable ∧ NoCodes t ∧
      (t.synth = false → t.ftList.Pairwise fun x y =>
        (t.cntAt x.sym).toNat < (t.cntAt y.sym).toNat ∨ (t.cntAt x.sym = t.cntAt y.sym ∧ x.sym < y.sym)) ∧
      t = { s with
        phase := .idle, done := true, err := false, errcode := 0, erridx := 0, errval := 0
        ftValid := true, treeValid := false, ctValid := false, synth := t.synth
        ftLen := t.ftLen, nodeCnt := 0, root := 0xFF, ct := t.ct
        cnt := t.cnt, total := t.total, ft := t.ft }

/-- R137: the synthetic entry is injected when exactly one distinct symbol stands in the text, and only then. -/
def Obligations.FreqInjectsTheSyntheticEntry : Prop :=
  ∀ (s : State) (x : Sym), s.iovf = false → (∃ e ∈ s.ibuf, symOf e = x) → (∀ e ∈ s.ibuf, IsSymbol e) →
    s.ibuf.length ≤ 2 ^ 32 - 1 →
    ∃ t, exec .freq s = .next t ∧ CompletedOk t ∧ 2 ≤ t.ftLen.toNat ∧ t.ftLen.toNat ≤ 128 ∧
      ((∀ e ∈ s.ibuf, symOf e = x) → t.synth = true ∧ t.ftLen = 2 ∧
        ∃ y : Sym, y.toNat = (x.toNat + 1) % 128 ∧ y ≠ x ∧
          t.ftList = [⟨y, 0x0000000000000000⟩, ⟨x, 0x3FF0000000000000⟩]) ∧
      ((∃ e ∈ s.ibuf, symOf e ≠ x) → t.synth = false ∧ ∀ e ∈ t.ftList, t.cntAt e.sym ≠ 0)

/-- R161, second sentence: the table depends only on how often each symbol stands in the text. -/
def Obligations.FreqIgnoresTheOrderOfTheText : Prop :=
  ∀ s s' t t' : State, s.iovf = false → s'.iovf = false → s.ibuf.Perm s'.ibuf →
    exec .freq s = .next t → exec .freq s' = .next t' → t.err = false →
    t'.err = false ∧ t.ftList = t'.ftList ∧ t.cnt = t'.cnt ∧ t.total = t'.total ∧ t.synth = t'.synth

/-! ## BUILD -/

/-- R151: BUILD without a table raises SequenceError and changes nothing else; with one it discards the old tree
and code table and cannot fail. -/
def Obligations.BuildNeedsATable : Prop :=
  ∀ s : State,
    (s.ftValid = false → exec .build s = .next (errDone s 4 0 0)) ∧
    (s.ftValid = true → 2 ≤ s.ftLen.toNat → s.ftLen.toNat ≤ 128 →
      ∃ t, exec .build s = .next t ∧ CompletedOk t ∧ t.ctValid = false ∧ NoCodes t)

/-- R157, R59: the tree BUILD makes, and what it leaves unchanged; R54: the queue pointers at its end. -/
def Obligations.BuildMakesOneBinaryTree : Prop :=
  ∀ s : State, s.ftValid = true → 2 ≤ s.ftLen.toNat → s.ftLen.toNat ≤ 128 →
    ∃ t, exec .build s = .next t ∧ CompletedOk t ∧ t.TreeTable ∧ NoCodes t ∧
      t.sqHead.toNat = s.ftLen.toNat ∧ t.tqHead.toNat = 2 * s.ftLen.toNat - 2 ∧
      t.tqTail.toNat = 2 * s.ftLen.toNat - 1 ∧
      t = { s with
        phase := .idle, done := true, err := false, errcode := 0, erridx := 0, errval := 0
        treeValid := true, ctValid := false, nodeCnt := t.nodeCnt, root := t.root, ct := t.ct
        node := t.node, sqHead := t.sqHead, tqHead := t.tqHead, tqTail := t.tqTail }

/-- R154, R155: each internal node is the merge of two selections made one after the other from the fronts of the
two queues, the first of them the left child. -/
def Obligations.BuildMergesTheQueueFronts : Prop :=
  ∀ s : State, s.ftValid = true → 2 ≤ s.ftLen.toNat → s.ftLen.toNat ≤ 128 →
    ∃ t, exec .build s = .next t ∧
      ∃ sq tq : Nat → Nat, sq 0 = 0 ∧ tq 0 = s.ftLen.toNat ∧
        ∀ k, k + 1 < s.ftLen.toNat →
          let L := s.ftLen.toNat
          let w : Nat → Weight := fun i => (t.nodeAt (BitVec.ofNat 8 i)).prob
          let n := t.nodeAt (BitVec.ofNat 8 (L + k))
          ∃ sm tm, Selects w L (L + k) (sq k) (tq k) n.left.toNat sm tm ∧
            Selects w L (L + k) sm tm n.right.toNat (sq (k + 1)) (tq (k + 1)) ∧
            n = ⟨false, 0, wAdd (t.nodeAt n.left).prob (t.nodeAt n.right).prob, n.left, n.right⟩

/-- R158, U2: BUILD is refused on FT_VALID = 1 with fewer than two entries. That it is refused with more than 128
too is the model's choice (log 5). -/
def Obligations.BuildRefusesFewerThanTwoLeaves : Prop :=
  ∀ s : State, s.ftValid = true → (s.ftLen.toNat < 2 ∨ 128 < s.ftLen.toNat) →
    exec .build s = .refused .leavesOutOfRange

/-- R161: the tree is a function of FT alone. -/
def Obligations.BuildDependsOnTheTableAlone : Prop :=
  ∀ s s' t t' : State, s.ftValid = true → s'.ftValid = true → s.ftLen = s'.ftLen → s.ftList = s'.ftList →
    exec .build s = .next t → exec .build s' = .next t' →
    t.nodeCnt = t'.nodeCnt ∧ t.root = t'.root ∧
    ∀ i : NodeIdx, i < t.nodeCnt → t.nodeAt i = t'.nodeAt i

/-! ## CGEN -/

/-- R171, first sentence: CGEN without a tree raises SequenceError and changes nothing else. -/
def Obligations.CgenNeedsATree : Prop :=
  ∀ s : State, s.treeValid = false → exec .cgen s = .next (errDone s 4 0 0)

/-- R170, R173, R60: the code table CGEN makes is that of the root-to-leaf paths; nothing else changes. -/
def Obligations.CgenWritesThePaths : Prop :=
  ∀ s : State, s.treeValid = true → s.TreeTable → 2 ≤ s.ftLen.toNat → s.ftLen.toNat ≤ 128 →
    (s.ftList.map FtEntry.sym).Nodup →
    ∃ t, exec .cgen s = .next t ∧ CompletedOk t ∧ t.CodeTable ∧
      t = { s with
        phase := .idle, done := true, err := false, errcode := 0, erridx := 0, errval := 0
        ctValid := true, ct := t.ct }

/-! ## PACK and UNPACK -/

/-- R186, R268: the input checks of PACK; every error leaves OBUF empty and changes nothing else (R190). -/
def Obligations.PackChecksItsInput : Prop :=
  ∀ s : State,
    (s.iovf = true → exec .pack s = .next (errDone { s with obuf := [] } 8 0 1)) ∧
    (∀ pre e post, s.iovf = false → s.ibuf = pre ++ e :: post → (∀ p ∈ pre, IsBitChar p) → ¬ IsBitChar e →
      exec .pack s = .next (errDone { s with obuf := [] } (if e.tag then 3 else 2)
        (BitVec.ofNat 32 pre.length) e.data)) ∧
    (s.iovf = false → (∀ e ∈ s.ibuf, IsBitChar e) → s.obufCap < s.ibuf.length / 8 + 1 →
      exec .pack s = .next (errDone { s with obuf := [] } 8 0 2))

/-- R185, R187 to R189: PACK's output is the padding marker and the characters' bits, most significant bit first. -/
def Obligations.PackOutputsThePaddedBits : Prop :=
  ∀ s : State, s.iovf = false → (∀ e ∈ s.ibuf, IsBitChar e) → s.ibuf.length / 8 + 1 ≤ s.obufCap →
    ∃ out, exec .pack s = .next (okDone { s with obuf := out, bitbuf := [] }) ∧
      PackedAs out (s.ibuf.map fun e => decide (e.data = 0x31))

/-- R195 to R200, R263, R268: UNPACK. -/
def Obligations.UnpackOutputsTheBitsAfterTheMarker : Prop :=
  ∀ s : State,
    (s.iovf = true → exec .unpack s = .next (errDone { s with obuf := [] } 8 0 1)) ∧
    (∀ pre e post, s.iovf = false → s.ibuf = pre ++ e :: post → (∀ p ∈ pre, p.tag = false) → e.tag = true →
      exec .unpack s = .next (errDone { s with obuf := [] } 3 (BitVec.ofNat 32 pre.length) e.data)) ∧
    (∀ r, s.iovf = false → (∀ e ∈ s.ibuf, e.tag = false) → UnpackedAs (s.ibuf.map Elem.data) r →
      (r.length ≤ s.obufCap →
        exec .unpack s = .next (okDone
          { s with obuf := r.map (fun b => if b then 0x31 else 0x30), bitbuf := [] })) ∧
      (s.obufCap < r.length →
        exec .unpack s = .next (errDone { s with obuf := [], bitbuf := [] } 8 0 2)))

/-- R201: the inverse law of `pack` and `unpack`, and at command level. -/
def Obligations.UnpackInvertsPack : Prop :=
  (∀ b : Bits, unpackBytes (packBits b) = b) ∧
  (∀ ys : List Byte, packBits (unpackBytes ys) = ys ↔ ∃ y rest, ys = y :: rest ∧ y ≠ 0) ∧
  (∀ s a : State, s.iovf = false → exec .pack s = .next a → a.err = false → s.ibuf.length ≤ s.obufCap →
    ∃ b, exec .unpack { a with ibuf := a.obuf.map fun y => ⟨false, y⟩ } = .next b ∧ b.err = false ∧
      b.obuf = s.ibuf.map Elem.data)

/-- R191: `pack` is injective and its image is the byte sequences whose first byte is not 0x00; such a sequence is
the packing of what follows its first `1`. -/
def Obligations.PackedSequencesStartWithANonzeroByte : Prop :=
  (∀ b c : Bits, packBits b = packBits c → b = c) ∧
  (∀ ys : List Byte, (∃ b, packBits b = ys) ↔ ∃ y rest, ys = y :: rest ∧ y ≠ 0) ∧
  ∀ (ys : List Byte) (k : Nat) (r : Bits), k < 8 → ys.flatMap bits8 = List.replicate k false ++ true :: r →
    packBits r = ys ∧ r.length + k + 1 = 8 * ys.length ∧ paddingLength r.length = k + 1

/-! ## ENCODE, DECODE, COMPRESS -/

/-- R211, R213, R268: the checks of ENCODE in their order; every error leaves OBUF empty and changes nothing else. -/
def Obligations.EncodeChecksItsInput : Prop :=
  ∀ s : State,
    (s.ctValid = false → exec .encode s = .next (errDone { s with obuf := [] } 4 0 0)) ∧
    (s.ctValid = true → s.iovf = true → exec .encode s = .next (errDone { s with obuf := [] } 8 0 1)) ∧
    (s.ctValid = true → s.iovf = false → s.ibuf = [] →
      exec .encode s = .next (errDone { s with obuf := [] } 1 0 0)) ∧
    (∀ pre e post, s.ctValid = true → s.iovf = false → s.ibuf = pre ++ e :: post →
      (∀ p ∈ pre, IsSymbol p ∧ (s.ctAt (symOf p)).valid = true) →
      ¬ (IsSymbol e ∧ (s.ctAt (symOf e)).valid = true) →
      exec .encode s = .next (errDone { s with obuf := [] }
        (if e.tag then 3 else if 128 ≤ e.data.toNat then 5 else 6) (BitVec.ofNat 32 pre.length) e.data)) ∧
    (s.ctValid = true → s.iovf = false → s.ibuf ≠ [] →
      (∀ e ∈ s.ibuf, IsSymbol e ∧ (s.ctAt (symOf e)).valid = true) →
      s.obufCap < (s.ibuf.flatMap fun e => (s.ctAt (symOf e)).bits).length / 8 + 1 →
      exec .encode s = .next (errDone { s with obuf := [] } 8 0 2))

/-- R212, R213: ENCODE's output is the padding marker and the codes in text order. -/
def Obligations.EncodeOutputsTheCodesInOrder : Prop :=
  ∀ s : State, s.ctValid = true → s.iovf = false → s.ibuf ≠ [] →
    (∀ e ∈ s.ibuf, IsSymbol e ∧ (s.ctAt (symOf e)).valid = true) →
    (s.ibuf.flatMap fun e => (s.ctAt (symOf e)).bits).length / 8 + 1 ≤ s.obufCap →
    ∃ out, exec .encode s = .next (okDone { s with obuf := out, bitbuf := [] }) ∧
      PackedAs out (s.ibuf.flatMap fun e => (s.ctAt (symOf e)).bits)

/-- R218, R263, R264, R268: the checks of DECODE; an error leaves OBUF empty, MIDCODE 0 and CUR NIL. -/
def Obligations.DecodeChecksItsInput : Prop :=
  ∀ s : State,
    let c := { s with obuf := [], midcode := false, cur := 0xFF }
    (s.treeValid = false → exec .decode s = .next (errDone c 4 0 0)) ∧
    (s.treeValid = true → s.iovf = true → exec .decode s = .next (errDone c 8 0 1)) ∧
    (∀ pre e post, s.treeValid = true → s.iovf = false → s.ibuf = pre ++ e :: post →
      (∀ p ∈ pre, p.tag = false) → e.tag = true →
      exec .decode s = .next (errDone c 3 (BitVec.ofNat 32 pre.length) e.data))

/-- R219, R220: the bits of a sequence of root-to-leaf paths give their symbols; bits left over move CUR to the
node they reach and set MIDCODE. -/
def Obligations.DecodeFollowsThePaths : Prop :=
  ∀ (s : State) (text : List (Sym × Bits)) (left : Bits) (c : NodeIdx),
    s.treeValid = true → s.iovf = false → (∀ e ∈ s.ibuf, e.tag = false) →
    (s.nodeAt s.root).leaf = false → (∀ p ∈ text, s.IsCode p.1 p.2) →
    s.LeadsTo s.root left c → (s.nodeAt c).leaf = false →
    UnpackedAs (s.ibuf.map Elem.data) (text.flatMap Prod.snd ++ left) →
    (text.length ≤ s.obufCap →
      exec .decode s = .next (okDone
        { s with
          obuf := text.map (fun p => BitVec.ofNat 8 p.1.toNat), bitbuf := []
          cur := c, midcode := decide (c ≠ s.root) })) ∧
    (s.obufCap < text.length →
      exec .decode s = .next (errDone
        { s with obuf := [], bitbuf := [], cur := 0xFF, midcode := false } 8 0 2))

/-- R219: in a tree every bitstring is the paths of some symbols and a rest that ends at an internal node, so no bit
sequence makes DECODE stop: it completes ok when its symbols fit OBUF and with CapacityError cause 2 otherwise. That
BITBUF is empty then is the model's choice (log 9). -/
def Obligations.DecodeCompletesOnEveryBitstring : Prop :=
  ∀ s : State, s.treeValid = true → s.TreeTable → 2 ≤ s.ftLen.toNat → s.ftLen.toNat ≤ 128 → s.iovf = false →
    (∀ e ∈ s.ibuf, e.tag = false) →
    ∃ (text : List (Sym × Bits)) (left : Bits) (c : NodeIdx),
      UnpackedAs (s.ibuf.map Elem.data) (text.flatMap Prod.snd ++ left) ∧
      (∀ p ∈ text, s.IsCode p.1 p.2) ∧ s.LeadsTo s.root left c ∧
      c.toNat < s.nodeCnt.toNat ∧ (s.nodeAt c).leaf = false ∧
      (text.length ≤ s.obufCap →
        exec .decode s = .next (okDone
          { s with
            obuf := text.map (fun p => BitVec.ofNat 8 p.1.toNat), bitbuf := []
            cur := c, midcode := decide (c ≠ s.root) })) ∧
      (s.obufCap < text.length →
        exec .decode s = .next (errDone
          { s with obuf := [], bitbuf := [], cur := 0xFF, midcode := false } 8 0 2))

/-- R226, R227: COMPRESS is the four commands one by one: on a text it leaves what they leave, and on an error of
FREQ what FREQ leaves with OBUF empty. -/
def Obligations.CompressIsTheFourCommands : Prop :=
  ∀ s f : State, exec .freq s = .next f →
    (f.err = true → exec .compress s = .next { f with obuf := [] }) ∧
    (f.err = false → s.ibuf.length ≤ 2 ^ 32 - 1 →
      ∃ b c a, exec .build f = .next b ∧ exec .cgen b = .next c ∧ exec .encode c = .next a ∧
        exec .compress s = .next a ∧
        a.ftValid = true ∧ a.treeValid = true ∧ a.ctValid = true ∧
        (a.err = true → a.errcode = 8 ∧ a.errval = 2 ∧ a.obuf = []))

/-- R226, with R60: COMPRESS of a text completes ok when the codes fit OBUF, with the whole session valid and the
text encoded in its codes. -/
def Obligations.CompressEncodesTheText : Prop :=
  ∀ s : State, s.iovf = false → s.ibuf ≠ [] → (∀ e ∈ s.ibuf, IsSymbol e) → s.ibuf.length ≤ 2 ^ 32 - 1 →
    (127 * s.ibuf.length) / 8 + 1 ≤ s.obufCap →
    ∃ t, exec .compress s = .next t ∧ CompletedOk t ∧ t.ftValid = true ∧ t.treeValid = true ∧ t.ctValid = true ∧
      t.FtTable ∧ t.TreeTable ∧ t.CodeTable ∧
      PackedAs t.obuf (s.ibuf.flatMap fun e => (t.ctAt (symOf e)).bits) ∧
      t = { s with
        phase := .idle, done := true, err := false, errcode := 0, erridx := 0, errval := 0
        ftValid := true, treeValid := true, ctValid := true, synth := t.synth
        ftLen := t.ftLen, ft := t.ft, cnt := t.cnt, total := t.total
        nodeCnt := t.nodeCnt, root := t.root, node := t.node, ct := t.ct
        sqHead := t.sqHead, tqHead := t.tqHead, tqTail := t.tqTail
        obuf := t.obuf, bitbuf := [] }

/-- R222: the round trip, for both ways of encoding. -/
def Obligations.DecodeRecoversTheText : Prop :=
  ∀ s a : State, s.iovf = false → s.ibuf ≠ [] → (∀ e ∈ s.ibuf, IsSymbol e) →
    s.ibuf.length ≤ 2 ^ 32 - 1 → s.ibuf.length ≤ s.obufCap →
    EncodedFrom s a → a.err = false →
    ∃ c, exec .decode { a with ibuf := a.obuf.map fun y => ⟨false, y⟩ } = .next c ∧
      c.err = false ∧ c.obuf = s.ibuf.map Elem.data ∧ c.midcode = false ∧ c.cur = c.root

/-- R272: the effect of every command on the session flags and buffers, by outcome. -/
def Obligations.FlagsAndBuffersByOutcome : Prop :=
  ∀ s t : State, s.FlagInv → s.ibuf.length ≤ 2 ^ 32 - 1 →
    (exec .freq s = .next t →
      t.obuf = s.obuf ∧ t.ibuf = s.ibuf ∧ t.iovf = s.iovf ∧ t.midcode = s.midcode ∧ t.cur = s.cur ∧
      t.treeValid = false ∧ t.ctValid = false ∧ t.ftValid = !t.err ∧ (t.err = true → t.synth = false)) ∧
    (exec .build s = .next t →
      t.obuf = s.obuf ∧ t.ibuf = s.ibuf ∧ t.iovf = s.iovf ∧ t.midcode = s.midcode ∧ t.cur = s.cur ∧
      t.ftValid = s.ftValid ∧ t.ftValid = !t.err ∧ t.treeValid = !t.err ∧ t.ctValid = false ∧
      t.synth = s.synth) ∧
    (exec .cgen s = .next t →
      t.obuf = s.obuf ∧ t.ibuf = s.ibuf ∧ t.iovf = s.iovf ∧ t.midcode = s.midcode ∧ t.cur = s.cur ∧
      t.ftValid = s.ftValid ∧ t.treeValid = s.treeValid ∧ t.treeValid = !t.err ∧ t.ctValid = !t.err ∧
      t.synth = s.synth) ∧
    (exec .encode s = .next t →
      (t.err = true → t.obuf = []) ∧ (t.err = false → s.ctValid = true ∧ t.obuf ≠ []) ∧
      t.ibuf = s.ibuf ∧ t.iovf = s.iovf ∧ t.midcode = s.midcode ∧ t.cur = s.cur ∧
      t.ftValid = s.ftValid ∧ t.treeValid = s.treeValid ∧ t.ctValid = s.ctValid ∧ t.synth = s.synth) ∧
    (exec .decode s = .next t →
      (t.err = true → t.obuf = [] ∧ t.midcode = false ∧ t.cur = 0xFF) ∧ (t.err = false → s.treeValid = true) ∧
      t.ibuf = s.ibuf ∧ t.iovf = s.iovf ∧
      t.ftValid = s.ftValid ∧ t.treeValid = s.treeValid ∧ t.ctValid = s.ctValid ∧ t.synth = s.synth) ∧
    (exec .pack s = .next t ∨ exec .unpack s = .next t →
      (t.err = true → t.obuf = []) ∧
      t.ibuf = s.ibuf ∧ t.iovf = s.iovf ∧ t.midcode = s.midcode ∧ t.cur = s.cur ∧
      t.ftValid = s.ftValid ∧ t.treeValid = s.treeValid ∧ t.ctValid = s.ctValid ∧ t.synth = s.synth) ∧
    (exec .compress s = .next t →
      t.ibuf = s.ibuf ∧ t.iovf = s.iovf ∧ t.midcode = s.midcode ∧ t.cur = s.cur ∧
      t.treeValid = t.ftValid ∧ t.ctValid = t.ftValid ∧ (t.err = true → t.obuf = []) ∧
      (t.ftValid = false → t.err = true ∧ t.synth = false) ∧
      (t.ftValid = true → t.err = true → t.errcode = 8 ∧ t.errval = 2)) ∧
    (exec .clr s = .next t →
      t.err = false ∧ t.ftValid = false ∧ t.treeValid = false ∧ t.ctValid = false ∧ t.synth = false ∧
      t.obuf = [] ∧ t.ibuf = [] ∧ t.iovf = false ∧ t.midcode = false ∧ t.cur = 0xFF) ∧
    (exec .iclr s = .next t →
      t.err = false ∧ t.ftValid = s.ftValid ∧ t.treeValid = s.treeValid ∧ t.ctValid = s.ctValid ∧
      t.synth = s.synth ∧ t.obuf = s.obuf ∧ t.ibuf = [] ∧ t.iovf = false ∧ t.midcode = s.midcode ∧
      t.cur = s.cur)
end

