-- ==== Sys2Proof/Laws/BitStream.lean ====
section
/-! SUPPORT. Bits and bytes (30_encoding.md R109 to R111, 43_bit_packer.md R187 to R199). -/

namespace Sys2Proof.Machine

/-- The bits of a byte put together from eight bits are those bits (R109). -/
@[simp] theorem bitsOfByte_byteOfBits (b0 b1 b2 b3 b4 b5 b6 b7 : Bool) :
    bitsOfByte (byteOfBits b0 b1 b2 b3 b4 b5 b6 b7) = [b0, b1, b2, b3, b4, b5, b6, b7] := by
  cases b0 <;> cases b1 <;> cases b2 <;> cases b3 <;> cases b4 <;> cases b5 <;> cases b6 <;> cases b7 <;> rfl

@[simp] theorem bitsOfByte_length (y : Byte) : (bitsOfByte y).length = 8 := rfl

/-- Unpacked, `m` bytes are `8m` bits (R196). -/
@[simp] theorem flatMap_bitsOfByte_length (ys : List Byte) : (ys.flatMap bitsOfByte).length = 8 * ys.length := by
  induction ys with
  | nil => rfl
  | cons y ys ih => simp [List.flatMap_cons, ih]; omega

/-- Expanding the bytes of a bitstring of whole bytes gives the bitstring back (R109, R188). -/
theorem flatMap_bytesOfBits (k : Nat) (s : Bits) (h : s.length = 8 * k) :
    (bytesOfBits s).flatMap bitsOfByte = s := by
  induction k generalizing s with
  | zero =>
    have : s = [] := List.length_eq_zero_iff.mp (by omega)
    subst this
    rfl
  | succ k ih =>
    match s, h with
    | b0 :: b1 :: b2 :: b3 :: b4 :: b5 :: b6 :: b7 :: rest, h =>
      have hr : rest.length = 8 * k := by simp only [List.length_cons] at h; omega
      simp [bytesOfBits, List.flatMap_cons, ih rest hr]

theorem bytesOfBits_length (k : Nat) (s : Bits) (h : s.length = 8 * k) : (bytesOfBits s).length = k := by
  have := congrArg List.length (flatMap_bytesOfBits k s h)
  simp only [flatMap_bitsOfByte_length] at this
  omega

/-- The padding is 1 to 8 bits (R111). -/
theorem paddingLength_range (n : Nat) : 1 ≤ paddingLength n ∧ paddingLength n ≤ 8 := by
  unfold paddingLength; omega

@[simp] theorem paddingMarker_length (n : Nat) :
    (paddingMarker (paddingLength n)).length = paddingLength n := by
  have := paddingLength_range n
  simp [paddingMarker]; omega

/-- The padded bitstring is whole bytes, `packedLength` of them (R111, R187, R189). -/
theorem padded_length (b : Bits) :
    (paddingMarker (paddingLength b.length) ++ b).length = 8 * packedLength b.length := by
  rw [List.length_append, paddingMarker_length]; unfold paddingLength packedLength; omega

/-- The number of bytes `pack` makes (R189). -/
@[simp] theorem packBits_length (b : Bits) : (packBits b).length = packedLength b.length :=
  bytesOfBits_length _ _ (padded_length b)

/-- The bits of the packed bytes are the marker and the payload (R187, R188). -/
theorem flatMap_packBits (b : Bits) :
    (packBits b).flatMap bitsOfByte = paddingMarker (paddingLength b.length) ++ b :=
  flatMap_bytesOfBits _ _ (padded_length b)

/-- A marker inside the first `k` bits is dropped with the zeros before it (R197). -/
theorem dropMarker_marker (k j : Nat) (b : Bits) (h : j < k) :
    dropMarker k (List.replicate j false ++ true :: b) = b := by
  induction j generalizing k with
  | zero => obtain ⟨k, rfl⟩ : ∃ k', k = k' + 1 := ⟨k - 1, by omega⟩; rfl
  | succ j ih =>
    obtain ⟨k, rfl⟩ : ∃ k', k = k' + 1 := ⟨k - 1, by omega⟩
    simpa [List.replicate_succ, dropMarker] using ih k (by omega)

/-- Without a `1` among them, the first `k` bits are dropped (R198). -/
theorem dropMarker_no_marker (k : Nat) (s : Bits) (h : ∀ i, i < k → s[i]? ≠ some true) :
    dropMarker k s = s.drop k := by
  induction k generalizing s with
  | zero => rfl
  | succ k ih =>
    match s with
    | [] => rfl
    | true :: s => exact absurd rfl (h 0 (by omega))
    | false :: s =>
      simpa [dropMarker] using ih s fun i hi => by simpa using h (i + 1) (by omega)

/-- Dropping the marker never lengthens a bitstring. -/
theorem dropMarker_length_le (k : Nat) (s : Bits) : (dropMarker k s).length ≤ s.length := by
  induction k generalizing s with
  | zero => exact Nat.le_refl _
  | succ k ih =>
    match s with
    | [] => exact Nat.le_refl _
    | true :: s => simp [dropMarker]
    | false :: s => simpa [dropMarker] using Nat.le_succ_of_le (ih s)

/-- `m` bytes unpack to at most `8m` bits (R197 to R199). -/
theorem unpackBytes_length_le (ys : List Byte) : (unpackBytes ys).length ≤ 8 * ys.length := by
  have := dropMarker_length_le 8 (ys.flatMap bitsOfByte)
  rwa [flatMap_bitsOfByte_length] at this

end Sys2Proof.Machine
end

