-- ==== Sys2Proof/Laws/State.lean ====
section
/-! SUPPORT. One lemma per field per named update, true by `rfl`, so that no later proof unfolds a record update. -/

namespace Sys2Proof.Machine

@[simp] theorem State.completeOk_phase (s : State) : (s.completeOk).phase = .idle := rfl
@[simp] theorem State.completeOk_pend (s : State) : (s.completeOk).pend = s.pend := rfl
@[simp] theorem State.completeOk_done (s : State) : (s.completeOk).done = true := rfl
@[simp] theorem State.completeOk_err (s : State) : (s.completeOk).err = false := rfl
@[simp] theorem State.completeOk_errcode (s : State) : (s.completeOk).errcode = 0 := rfl
@[simp] theorem State.completeOk_erridx (s : State) : (s.completeOk).erridx = 0 := rfl
@[simp] theorem State.completeOk_errval (s : State) : (s.completeOk).errval = 0 := rfl
@[simp] theorem State.completeOk_ftValid (s : State) : (s.completeOk).ftValid = s.ftValid := rfl
@[simp] theorem State.completeOk_treeValid (s : State) : (s.completeOk).treeValid = s.treeValid := rfl
@[simp] theorem State.completeOk_ctValid (s : State) : (s.completeOk).ctValid = s.ctValid := rfl
@[simp] theorem State.completeOk_synth (s : State) : (s.completeOk).synth = s.synth := rfl
@[simp] theorem State.completeOk_midcode (s : State) : (s.completeOk).midcode = s.midcode := rfl
@[simp] theorem State.completeOk_cur (s : State) : (s.completeOk).cur = s.cur := rfl
@[simp] theorem State.completeOk_iovf (s : State) : (s.completeOk).iovf = s.iovf := rfl
@[simp] theorem State.completeOk_sel (s : State) : (s.completeOk).sel = s.sel := rfl
@[simp] theorem State.completeOk_ibuf (s : State) : (s.completeOk).ibuf = s.ibuf := rfl
@[simp] theorem State.completeOk_obuf (s : State) : (s.completeOk).obuf = s.obuf := rfl
@[simp] theorem State.completeOk_cnt (s : State) : (s.completeOk).cnt = s.cnt := rfl
@[simp] theorem State.completeOk_total (s : State) : (s.completeOk).total = s.total := rfl
@[simp] theorem State.completeOk_ft (s : State) : (s.completeOk).ft = s.ft := rfl
@[simp] theorem State.completeOk_ftLen (s : State) : (s.completeOk).ftLen = s.ftLen := rfl
@[simp] theorem State.completeOk_node (s : State) : (s.completeOk).node = s.node := rfl
@[simp] theorem State.completeOk_nodeCnt (s : State) : (s.completeOk).nodeCnt = s.nodeCnt := rfl
@[simp] theorem State.completeOk_root (s : State) : (s.completeOk).root = s.root := rfl
@[simp] theorem State.completeOk_ct (s : State) : (s.completeOk).ct = s.ct := rfl
@[simp] theorem State.completeOk_sqHead (s : State) : (s.completeOk).sqHead = s.sqHead := rfl
@[simp] theorem State.completeOk_tqHead (s : State) : (s.completeOk).tqHead = s.tqHead := rfl
@[simp] theorem State.completeOk_tqTail (s : State) : (s.completeOk).tqTail = s.tqTail := rfl
@[simp] theorem State.completeOk_bitbuf (s : State) : (s.completeOk).bitbuf = s.bitbuf := rfl
@[simp] theorem State.completeOk_ibufCap (s : State) : (s.completeOk).ibufCap = s.ibufCap := rfl
@[simp] theorem State.completeOk_obufCap (s : State) : (s.completeOk).obufCap = s.obufCap := rfl
@[simp] theorem State.completeOk_hostScript (s : State) : (s.completeOk).hostScript = s.hostScript := rfl
@[simp] theorem State.completeOk_hostReads (s : State) : (s.completeOk).hostReads = s.hostReads := rfl
@[simp] theorem State.completeOk_busyLeft (s : State) : (s.completeOk).busyLeft = s.busyLeft := rfl
@[simp] theorem State.completeOk_busyDraws (s : State) : (s.completeOk).busyDraws = s.busyDraws := rfl
@[simp] theorem State.completeOk_issued (s : State) : (s.completeOk).issued = s.issued := rfl

@[simp] theorem State.completeError_phase (s : State) (e : Raise) : (s.completeError e).phase = .idle := rfl
@[simp] theorem State.completeError_pend (s : State) (e : Raise) : (s.completeError e).pend = s.pend := rfl
@[simp] theorem State.completeError_done (s : State) (e : Raise) : (s.completeError e).done = true := rfl
@[simp] theorem State.completeError_err (s : State) (e : Raise) : (s.completeError e).err = true := rfl
@[simp] theorem State.completeError_errcode (s : State) (e : Raise) : (s.completeError e).errcode = e.error.code := rfl
@[simp] theorem State.completeError_erridx (s : State) (e : Raise) : (s.completeError e).erridx = e.idx := rfl
@[simp] theorem State.completeError_errval (s : State) (e : Raise) : (s.completeError e).errval = e.val := rfl
@[simp] theorem State.completeError_ftValid (s : State) (e : Raise) : (s.completeError e).ftValid = s.ftValid := rfl
@[simp] theorem State.completeError_treeValid (s : State) (e : Raise) : (s.completeError e).treeValid = s.treeValid := rfl
@[simp] theorem State.completeError_ctValid (s : State) (e : Raise) : (s.completeError e).ctValid = s.ctValid := rfl
@[simp] theorem State.completeError_synth (s : State) (e : Raise) : (s.completeError e).synth = s.synth := rfl
@[simp] theorem State.completeError_midcode (s : State) (e : Raise) : (s.completeError e).midcode = s.midcode := rfl
@[simp] theorem State.completeError_cur (s : State) (e : Raise) : (s.completeError e).cur = s.cur := rfl
@[simp] theorem State.completeError_iovf (s : State) (e : Raise) : (s.completeError e).iovf = s.iovf := rfl
@[simp] theorem State.completeError_sel (s : State) (e : Raise) : (s.completeError e).sel = s.sel := rfl
@[simp] theorem State.completeError_ibuf (s : State) (e : Raise) : (s.completeError e).ibuf = s.ibuf := rfl
@[simp] theorem State.completeError_obuf (s : State) (e : Raise) : (s.completeError e).obuf = s.obuf := rfl
@[simp] theorem State.completeError_cnt (s : State) (e : Raise) : (s.completeError e).cnt = s.cnt := rfl
@[simp] theorem State.completeError_total (s : State) (e : Raise) : (s.completeError e).total = s.total := rfl
@[simp] theorem State.completeError_ft (s : State) (e : Raise) : (s.completeError e).ft = s.ft := rfl
@[simp] theorem State.completeError_ftLen (s : State) (e : Raise) : (s.completeError e).ftLen = s.ftLen := rfl
@[simp] theorem State.completeError_node (s : State) (e : Raise) : (s.completeError e).node = s.node := rfl
@[simp] theorem State.completeError_nodeCnt (s : State) (e : Raise) : (s.completeError e).nodeCnt = s.nodeCnt := rfl
@[simp] theorem State.completeError_root (s : State) (e : Raise) : (s.completeError e).root = s.root := rfl
@[simp] theorem State.completeError_ct (s : State) (e : Raise) : (s.completeError e).ct = s.ct := rfl
@[simp] theorem State.completeError_sqHead (s : State) (e : Raise) : (s.completeError e).sqHead = s.sqHead := rfl
@[simp] theorem State.completeError_tqHead (s : State) (e : Raise) : (s.completeError e).tqHead = s.tqHead := rfl
@[simp] theorem State.completeError_tqTail (s : State) (e : Raise) : (s.completeError e).tqTail = s.tqTail := rfl
@[simp] theorem State.completeError_bitbuf (s : State) (e : Raise) : (s.completeError e).bitbuf = s.bitbuf := rfl
@[simp] theorem State.completeError_ibufCap (s : State) (e : Raise) : (s.completeError e).ibufCap = s.ibufCap := rfl
@[simp] theorem State.completeError_obufCap (s : State) (e : Raise) : (s.completeError e).obufCap = s.obufCap := rfl
@[simp] theorem State.completeError_hostScript (s : State) (e : Raise) : (s.completeError e).hostScript = s.hostScript := rfl
@[simp] theorem State.completeError_hostReads (s : State) (e : Raise) : (s.completeError e).hostReads = s.hostReads := rfl
@[simp] theorem State.completeError_busyLeft (s : State) (e : Raise) : (s.completeError e).busyLeft = s.busyLeft := rfl
@[simp] theorem State.completeError_busyDraws (s : State) (e : Raise) : (s.completeError e).busyDraws = s.busyDraws := rfl
@[simp] theorem State.completeError_issued (s : State) (e : Raise) : (s.completeError e).issued = s.issued := rfl

@[simp] theorem State.accept_phase (s : State) (w : Word) (d : Nat) : (s.accept w d).phase = .busy := rfl
@[simp] theorem State.accept_pend (s : State) (w : Word) (d : Nat) : (s.accept w d).pend = w := rfl
@[simp] theorem State.accept_done (s : State) (w : Word) (d : Nat) : (s.accept w d).done = false := rfl
@[simp] theorem State.accept_err (s : State) (w : Word) (d : Nat) : (s.accept w d).err = false := rfl
@[simp] theorem State.accept_errcode (s : State) (w : Word) (d : Nat) : (s.accept w d).errcode = 0 := rfl
@[simp] theorem State.accept_erridx (s : State) (w : Word) (d : Nat) : (s.accept w d).erridx = 0 := rfl
@[simp] theorem State.accept_errval (s : State) (w : Word) (d : Nat) : (s.accept w d).errval = 0 := rfl
@[simp] theorem State.accept_ftValid (s : State) (w : Word) (d : Nat) : (s.accept w d).ftValid = s.ftValid := rfl
@[simp] theorem State.accept_treeValid (s : State) (w : Word) (d : Nat) : (s.accept w d).treeValid = s.treeValid := rfl
@[simp] theorem State.accept_ctValid (s : State) (w : Word) (d : Nat) : (s.accept w d).ctValid = s.ctValid := rfl
@[simp] theorem State.accept_synth (s : State) (w : Word) (d : Nat) : (s.accept w d).synth = s.synth := rfl
@[simp] theorem State.accept_midcode (s : State) (w : Word) (d : Nat) : (s.accept w d).midcode = s.midcode := rfl
@[simp] theorem State.accept_cur (s : State) (w : Word) (d : Nat) : (s.accept w d).cur = s.cur := rfl
@[simp] theorem State.accept_iovf (s : State) (w : Word) (d : Nat) : (s.accept w d).iovf = s.iovf := rfl
@[simp] theorem State.accept_sel (s : State) (w : Word) (d : Nat) : (s.accept w d).sel = s.sel := rfl
@[simp] theorem State.accept_ibuf (s : State) (w : Word) (d : Nat) : (s.accept w d).ibuf = s.ibuf := rfl
@[simp] theorem State.accept_obuf (s : State) (w : Word) (d : Nat) : (s.accept w d).obuf = s.obuf := rfl
@[simp] theorem State.accept_cnt (s : State) (w : Word) (d : Nat) : (s.accept w d).cnt = s.cnt := rfl
@[simp] theorem State.accept_total (s : State) (w : Word) (d : Nat) : (s.accept w d).total = s.total := rfl
@[simp] theorem State.accept_ft (s : State) (w : Word) (d : Nat) : (s.accept w d).ft = s.ft := rfl
@[simp] theorem State.accept_ftLen (s : State) (w : Word) (d : Nat) : (s.accept w d).ftLen = s.ftLen := rfl
@[simp] theorem State.accept_node (s : State) (w : Word) (d : Nat) : (s.accept w d).node = s.node := rfl
@[simp] theorem State.accept_nodeCnt (s : State) (w : Word) (d : Nat) : (s.accept w d).nodeCnt = s.nodeCnt := rfl
@[simp] theorem State.accept_root (s : State) (w : Word) (d : Nat) : (s.accept w d).root = s.root := rfl
@[simp] theorem State.accept_ct (s : State) (w : Word) (d : Nat) : (s.accept w d).ct = s.ct := rfl
@[simp] theorem State.accept_sqHead (s : State) (w : Word) (d : Nat) : (s.accept w d).sqHead = s.sqHead := rfl
@[simp] theorem State.accept_tqHead (s : State) (w : Word) (d : Nat) : (s.accept w d).tqHead = s.tqHead := rfl
@[simp] theorem State.accept_tqTail (s : State) (w : Word) (d : Nat) : (s.accept w d).tqTail = s.tqTail := rfl
@[simp] theorem State.accept_bitbuf (s : State) (w : Word) (d : Nat) : (s.accept w d).bitbuf = s.bitbuf := rfl
@[simp] theorem State.accept_ibufCap (s : State) (w : Word) (d : Nat) : (s.accept w d).ibufCap = s.ibufCap := rfl
@[simp] theorem State.accept_obufCap (s : State) (w : Word) (d : Nat) : (s.accept w d).obufCap = s.obufCap := rfl
@[simp] theorem State.accept_hostScript (s : State) (w : Word) (d : Nat) : (s.accept w d).hostScript = s.hostScript := rfl
@[simp] theorem State.accept_hostReads (s : State) (w : Word) (d : Nat) : (s.accept w d).hostReads = s.hostReads := rfl
@[simp] theorem State.accept_busyLeft (s : State) (w : Word) (d : Nat) : (s.accept w d).busyLeft = d := rfl
@[simp] theorem State.accept_busyDraws (s : State) (w : Word) (d : Nat) : (s.accept w d).busyDraws = s.busyDraws := rfl
@[simp] theorem State.accept_issued (s : State) (w : Word) (d : Nat) : (s.accept w d).issued = s.issued := rfl

@[simp] theorem State.dropCodes_phase (s : State) : (s.dropCodes).phase = s.phase := rfl
@[simp] theorem State.dropCodes_pend (s : State) : (s.dropCodes).pend = s.pend := rfl
@[simp] theorem State.dropCodes_done (s : State) : (s.dropCodes).done = s.done := rfl
@[simp] theorem State.dropCodes_err (s : State) : (s.dropCodes).err = s.err := rfl
@[simp] theorem State.dropCodes_errcode (s : State) : (s.dropCodes).errcode = s.errcode := rfl
@[simp] theorem State.dropCodes_erridx (s : State) : (s.dropCodes).erridx = s.erridx := rfl
@[simp] theorem State.dropCodes_errval (s : State) : (s.dropCodes).errval = s.errval := rfl
@[simp] theorem State.dropCodes_ftValid (s : State) : (s.dropCodes).ftValid = s.ftValid := rfl
@[simp] theorem State.dropCodes_treeValid (s : State) : (s.dropCodes).treeValid = s.treeValid := rfl
@[simp] theorem State.dropCodes_ctValid (s : State) : (s.dropCodes).ctValid = false := rfl
@[simp] theorem State.dropCodes_synth (s : State) : (s.dropCodes).synth = s.synth := rfl
@[simp] theorem State.dropCodes_midcode (s : State) : (s.dropCodes).midcode = s.midcode := rfl
@[simp] theorem State.dropCodes_cur (s : State) : (s.dropCodes).cur = s.cur := rfl
@[simp] theorem State.dropCodes_iovf (s : State) : (s.dropCodes).iovf = s.iovf := rfl
@[simp] theorem State.dropCodes_sel (s : State) : (s.dropCodes).sel = s.sel := rfl
@[simp] theorem State.dropCodes_ibuf (s : State) : (s.dropCodes).ibuf = s.ibuf := rfl
@[simp] theorem State.dropCodes_obuf (s : State) : (s.dropCodes).obuf = s.obuf := rfl
@[simp] theorem State.dropCodes_cnt (s : State) : (s.dropCodes).cnt = s.cnt := rfl
@[simp] theorem State.dropCodes_total (s : State) : (s.dropCodes).total = s.total := rfl
@[simp] theorem State.dropCodes_ft (s : State) : (s.dropCodes).ft = s.ft := rfl
@[simp] theorem State.dropCodes_ftLen (s : State) : (s.dropCodes).ftLen = s.ftLen := rfl
@[simp] theorem State.dropCodes_node (s : State) : (s.dropCodes).node = s.node := rfl
@[simp] theorem State.dropCodes_nodeCnt (s : State) : (s.dropCodes).nodeCnt = s.nodeCnt := rfl
@[simp] theorem State.dropCodes_root (s : State) : (s.dropCodes).root = s.root := rfl
@[simp] theorem State.dropCodes_ct (s : State) : (s.dropCodes).ct = unsetAll s.ct := rfl
@[simp] theorem State.dropCodes_sqHead (s : State) : (s.dropCodes).sqHead = s.sqHead := rfl
@[simp] theorem State.dropCodes_tqHead (s : State) : (s.dropCodes).tqHead = s.tqHead := rfl
@[simp] theorem State.dropCodes_tqTail (s : State) : (s.dropCodes).tqTail = s.tqTail := rfl
@[simp] theorem State.dropCodes_bitbuf (s : State) : (s.dropCodes).bitbuf = s.bitbuf := rfl
@[simp] theorem State.dropCodes_ibufCap (s : State) : (s.dropCodes).ibufCap = s.ibufCap := rfl
@[simp] theorem State.dropCodes_obufCap (s : State) : (s.dropCodes).obufCap = s.obufCap := rfl
@[simp] theorem State.dropCodes_hostScript (s : State) : (s.dropCodes).hostScript = s.hostScript := rfl
@[simp] theorem State.dropCodes_hostReads (s : State) : (s.dropCodes).hostReads = s.hostReads := rfl
@[simp] theorem State.dropCodes_busyLeft (s : State) : (s.dropCodes).busyLeft = s.busyLeft := rfl
@[simp] theorem State.dropCodes_busyDraws (s : State) : (s.dropCodes).busyDraws = s.busyDraws := rfl
@[simp] theorem State.dropCodes_issued (s : State) : (s.dropCodes).issued = s.issued := rfl

@[simp] theorem State.dropTree_phase (s : State) : (s.dropTree).phase = s.phase := rfl
@[simp] theorem State.dropTree_pend (s : State) : (s.dropTree).pend = s.pend := rfl
@[simp] theorem State.dropTree_done (s : State) : (s.dropTree).done = s.done := rfl
@[simp] theorem State.dropTree_err (s : State) : (s.dropTree).err = s.err := rfl
@[simp] theorem State.dropTree_errcode (s : State) : (s.dropTree).errcode = s.errcode := rfl
@[simp] theorem State.dropTree_erridx (s : State) : (s.dropTree).erridx = s.erridx := rfl
@[simp] theorem State.dropTree_errval (s : State) : (s.dropTree).errval = s.errval := rfl
@[simp] theorem State.dropTree_ftValid (s : State) : (s.dropTree).ftValid = s.ftValid := rfl
@[simp] theorem State.dropTree_treeValid (s : State) : (s.dropTree).treeValid = false := rfl
@[simp] theorem State.dropTree_ctValid (s : State) : (s.dropTree).ctValid = false := rfl
@[simp] theorem State.dropTree_synth (s : State) : (s.dropTree).synth = s.synth := rfl
@[simp] theorem State.dropTree_midcode (s : State) : (s.dropTree).midcode = s.midcode := rfl
@[simp] theorem State.dropTree_cur (s : State) : (s.dropTree).cur = s.cur := rfl
@[simp] theorem State.dropTree_iovf (s : State) : (s.dropTree).iovf = s.iovf := rfl
@[simp] theorem State.dropTree_sel (s : State) : (s.dropTree).sel = s.sel := rfl
@[simp] theorem State.dropTree_ibuf (s : State) : (s.dropTree).ibuf = s.ibuf := rfl
@[simp] theorem State.dropTree_obuf (s : State) : (s.dropTree).obuf = s.obuf := rfl
@[simp] theorem State.dropTree_cnt (s : State) : (s.dropTree).cnt = s.cnt := rfl
@[simp] theorem State.dropTree_total (s : State) : (s.dropTree).total = s.total := rfl
@[simp] theorem State.dropTree_ft (s : State) : (s.dropTree).ft = s.ft := rfl
@[simp] theorem State.dropTree_ftLen (s : State) : (s.dropTree).ftLen = s.ftLen := rfl
@[simp] theorem State.dropTree_node (s : State) : (s.dropTree).node = s.node := rfl
@[simp] theorem State.dropTree_nodeCnt (s : State) : (s.dropTree).nodeCnt = 0 := rfl
@[simp] theorem State.dropTree_root (s : State) : (s.dropTree).root = nilIdx := rfl
@[simp] theorem State.dropTree_ct (s : State) : (s.dropTree).ct = unsetAll s.ct := rfl
@[simp] theorem State.dropTree_sqHead (s : State) : (s.dropTree).sqHead = s.sqHead := rfl
@[simp] theorem State.dropTree_tqHead (s : State) : (s.dropTree).tqHead = s.tqHead := rfl
@[simp] theorem State.dropTree_tqTail (s : State) : (s.dropTree).tqTail = s.tqTail := rfl
@[simp] theorem State.dropTree_bitbuf (s : State) : (s.dropTree).bitbuf = s.bitbuf := rfl
@[simp] theorem State.dropTree_ibufCap (s : State) : (s.dropTree).ibufCap = s.ibufCap := rfl
@[simp] theorem State.dropTree_obufCap (s : State) : (s.dropTree).obufCap = s.obufCap := rfl
@[simp] theorem State.dropTree_hostScript (s : State) : (s.dropTree).hostScript = s.hostScript := rfl
@[simp] theorem State.dropTree_hostReads (s : State) : (s.dropTree).hostReads = s.hostReads := rfl
@[simp] theorem State.dropTree_busyLeft (s : State) : (s.dropTree).busyLeft = s.busyLeft := rfl
@[simp] theorem State.dropTree_busyDraws (s : State) : (s.dropTree).busyDraws = s.busyDraws := rfl
@[simp] theorem State.dropTree_issued (s : State) : (s.dropTree).issued = s.issued := rfl

@[simp] theorem State.beginSession_phase (s : State) : (s.beginSession).phase = s.phase := rfl
@[simp] theorem State.beginSession_pend (s : State) : (s.beginSession).pend = s.pend := rfl
@[simp] theorem State.beginSession_done (s : State) : (s.beginSession).done = s.done := rfl
@[simp] theorem State.beginSession_err (s : State) : (s.beginSession).err = s.err := rfl
@[simp] theorem State.beginSession_errcode (s : State) : (s.beginSession).errcode = s.errcode := rfl
@[simp] theorem State.beginSession_erridx (s : State) : (s.beginSession).erridx = s.erridx := rfl
@[simp] theorem State.beginSession_errval (s : State) : (s.beginSession).errval = s.errval := rfl
@[simp] theorem State.beginSession_ftValid (s : State) : (s.beginSession).ftValid = false := rfl
@[simp] theorem State.beginSession_treeValid (s : State) : (s.beginSession).treeValid = false := rfl
@[simp] theorem State.beginSession_ctValid (s : State) : (s.beginSession).ctValid = false := rfl
@[simp] theorem State.beginSession_synth (s : State) : (s.beginSession).synth = false := rfl
@[simp] theorem State.beginSession_midcode (s : State) : (s.beginSession).midcode = s.midcode := rfl
@[simp] theorem State.beginSession_cur (s : State) : (s.beginSession).cur = s.cur := rfl
@[simp] theorem State.beginSession_iovf (s : State) : (s.beginSession).iovf = s.iovf := rfl
@[simp] theorem State.beginSession_sel (s : State) : (s.beginSession).sel = s.sel := rfl
@[simp] theorem State.beginSession_ibuf (s : State) : (s.beginSession).ibuf = s.ibuf := rfl
@[simp] theorem State.beginSession_obuf (s : State) : (s.beginSession).obuf = s.obuf := rfl
@[simp] theorem State.beginSession_cnt (s : State) : (s.beginSession).cnt = s.cnt := rfl
@[simp] theorem State.beginSession_total (s : State) : (s.beginSession).total = s.total := rfl
@[simp] theorem State.beginSession_ft (s : State) : (s.beginSession).ft = s.ft := rfl
@[simp] theorem State.beginSession_ftLen (s : State) : (s.beginSession).ftLen = 0 := rfl
@[simp] theorem State.beginSession_node (s : State) : (s.beginSession).node = s.node := rfl
@[simp] theorem State.beginSession_nodeCnt (s : State) : (s.beginSession).nodeCnt = 0 := rfl
@[simp] theorem State.beginSession_root (s : State) : (s.beginSession).root = nilIdx := rfl
@[simp] theorem State.beginSession_ct (s : State) : (s.beginSession).ct = unsetAll s.ct := rfl
@[simp] theorem State.beginSession_sqHead (s : State) : (s.beginSession).sqHead = s.sqHead := rfl
@[simp] theorem State.beginSession_tqHead (s : State) : (s.beginSession).tqHead = s.tqHead := rfl
@[simp] theorem State.beginSession_tqTail (s : State) : (s.beginSession).tqTail = s.tqTail := rfl
@[simp] theorem State.beginSession_bitbuf (s : State) : (s.beginSession).bitbuf = s.bitbuf := rfl
@[simp] theorem State.beginSession_ibufCap (s : State) : (s.beginSession).ibufCap = s.ibufCap := rfl
@[simp] theorem State.beginSession_obufCap (s : State) : (s.beginSession).obufCap = s.obufCap := rfl
@[simp] theorem State.beginSession_hostScript (s : State) : (s.beginSession).hostScript = s.hostScript := rfl
@[simp] theorem State.beginSession_hostReads (s : State) : (s.beginSession).hostReads = s.hostReads := rfl
@[simp] theorem State.beginSession_busyLeft (s : State) : (s.beginSession).busyLeft = s.busyLeft := rfl
@[simp] theorem State.beginSession_busyDraws (s : State) : (s.beginSession).busyDraws = s.busyDraws := rfl
@[simp] theorem State.beginSession_issued (s : State) : (s.beginSession).issued = s.issued := rfl

@[simp] theorem State.emptyObuf_phase (s : State) : (s.emptyObuf).phase = s.phase := rfl
@[simp] theorem State.emptyObuf_pend (s : State) : (s.emptyObuf).pend = s.pend := rfl
@[simp] theorem State.emptyObuf_done (s : State) : (s.emptyObuf).done = s.done := rfl
@[simp] theorem State.emptyObuf_err (s : State) : (s.emptyObuf).err = s.err := rfl
@[simp] theorem State.emptyObuf_errcode (s : State) : (s.emptyObuf).errcode = s.errcode := rfl
@[simp] theorem State.emptyObuf_erridx (s : State) : (s.emptyObuf).erridx = s.erridx := rfl
@[simp] theorem State.emptyObuf_errval (s : State) : (s.emptyObuf).errval = s.errval := rfl
@[simp] theorem State.emptyObuf_ftValid (s : State) : (s.emptyObuf).ftValid = s.ftValid := rfl
@[simp] theorem State.emptyObuf_treeValid (s : State) : (s.emptyObuf).treeValid = s.treeValid := rfl
@[simp] theorem State.emptyObuf_ctValid (s : State) : (s.emptyObuf).ctValid = s.ctValid := rfl
@[simp] theorem State.emptyObuf_synth (s : State) : (s.emptyObuf).synth = s.synth := rfl
@[simp] theorem State.emptyObuf_midcode (s : State) : (s.emptyObuf).midcode = s.midcode := rfl
@[simp] theorem State.emptyObuf_cur (s : State) : (s.emptyObuf).cur = s.cur := rfl
@[simp] theorem State.emptyObuf_iovf (s : State) : (s.emptyObuf).iovf = s.iovf := rfl
@[simp] theorem State.emptyObuf_sel (s : State) : (s.emptyObuf).sel = s.sel := rfl
@[simp] theorem State.emptyObuf_ibuf (s : State) : (s.emptyObuf).ibuf = s.ibuf := rfl
@[simp] theorem State.emptyObuf_obuf (s : State) : (s.emptyObuf).obuf = [] := rfl
@[simp] theorem State.emptyObuf_cnt (s : State) : (s.emptyObuf).cnt = s.cnt := rfl
@[simp] theorem State.emptyObuf_total (s : State) : (s.emptyObuf).total = s.total := rfl
@[simp] theorem State.emptyObuf_ft (s : State) : (s.emptyObuf).ft = s.ft := rfl
@[simp] theorem State.emptyObuf_ftLen (s : State) : (s.emptyObuf).ftLen = s.ftLen := rfl
@[simp] theorem State.emptyObuf_node (s : State) : (s.emptyObuf).node = s.node := rfl
@[simp] theorem State.emptyObuf_nodeCnt (s : State) : (s.emptyObuf).nodeCnt = s.nodeCnt := rfl
@[simp] theorem State.emptyObuf_root (s : State) : (s.emptyObuf).root = s.root := rfl
@[simp] theorem State.emptyObuf_ct (s : State) : (s.emptyObuf).ct = s.ct := rfl
@[simp] theorem State.emptyObuf_sqHead (s : State) : (s.emptyObuf).sqHead = s.sqHead := rfl
@[simp] theorem State.emptyObuf_tqHead (s : State) : (s.emptyObuf).tqHead = s.tqHead := rfl
@[simp] theorem State.emptyObuf_tqTail (s : State) : (s.emptyObuf).tqTail = s.tqTail := rfl
@[simp] theorem State.emptyObuf_bitbuf (s : State) : (s.emptyObuf).bitbuf = s.bitbuf := rfl
@[simp] theorem State.emptyObuf_ibufCap (s : State) : (s.emptyObuf).ibufCap = s.ibufCap := rfl
@[simp] theorem State.emptyObuf_obufCap (s : State) : (s.emptyObuf).obufCap = s.obufCap := rfl
@[simp] theorem State.emptyObuf_hostScript (s : State) : (s.emptyObuf).hostScript = s.hostScript := rfl
@[simp] theorem State.emptyObuf_hostReads (s : State) : (s.emptyObuf).hostReads = s.hostReads := rfl
@[simp] theorem State.emptyObuf_busyLeft (s : State) : (s.emptyObuf).busyLeft = s.busyLeft := rfl
@[simp] theorem State.emptyObuf_busyDraws (s : State) : (s.emptyObuf).busyDraws = s.busyDraws := rfl
@[simp] theorem State.emptyObuf_issued (s : State) : (s.emptyObuf).issued = s.issued := rfl

@[simp] theorem State.fillBits_phase (s : State) (b : Bits) : (s.fillBits b).phase = s.phase := rfl
@[simp] theorem State.fillBits_pend (s : State) (b : Bits) : (s.fillBits b).pend = s.pend := rfl
@[simp] theorem State.fillBits_done (s : State) (b : Bits) : (s.fillBits b).done = s.done := rfl
@[simp] theorem State.fillBits_err (s : State) (b : Bits) : (s.fillBits b).err = s.err := rfl
@[simp] theorem State.fillBits_errcode (s : State) (b : Bits) : (s.fillBits b).errcode = s.errcode := rfl
@[simp] theorem State.fillBits_erridx (s : State) (b : Bits) : (s.fillBits b).erridx = s.erridx := rfl
@[simp] theorem State.fillBits_errval (s : State) (b : Bits) : (s.fillBits b).errval = s.errval := rfl
@[simp] theorem State.fillBits_ftValid (s : State) (b : Bits) : (s.fillBits b).ftValid = s.ftValid := rfl
@[simp] theorem State.fillBits_treeValid (s : State) (b : Bits) : (s.fillBits b).treeValid = s.treeValid := rfl
@[simp] theorem State.fillBits_ctValid (s : State) (b : Bits) : (s.fillBits b).ctValid = s.ctValid := rfl
@[simp] theorem State.fillBits_synth (s : State) (b : Bits) : (s.fillBits b).synth = s.synth := rfl
@[simp] theorem State.fillBits_midcode (s : State) (b : Bits) : (s.fillBits b).midcode = s.midcode := rfl
@[simp] theorem State.fillBits_cur (s : State) (b : Bits) : (s.fillBits b).cur = s.cur := rfl
@[simp] theorem State.fillBits_iovf (s : State) (b : Bits) : (s.fillBits b).iovf = s.iovf := rfl
@[simp] theorem State.fillBits_sel (s : State) (b : Bits) : (s.fillBits b).sel = s.sel := rfl
@[simp] theorem State.fillBits_ibuf (s : State) (b : Bits) : (s.fillBits b).ibuf = s.ibuf := rfl
@[simp] theorem State.fillBits_obuf (s : State) (b : Bits) : (s.fillBits b).obuf = s.obuf := rfl
@[simp] theorem State.fillBits_cnt (s : State) (b : Bits) : (s.fillBits b).cnt = s.cnt := rfl
@[simp] theorem State.fillBits_total (s : State) (b : Bits) : (s.fillBits b).total = s.total := rfl
@[simp] theorem State.fillBits_ft (s : State) (b : Bits) : (s.fillBits b).ft = s.ft := rfl
@[simp] theorem State.fillBits_ftLen (s : State) (b : Bits) : (s.fillBits b).ftLen = s.ftLen := rfl
@[simp] theorem State.fillBits_node (s : State) (b : Bits) : (s.fillBits b).node = s.node := rfl
@[simp] theorem State.fillBits_nodeCnt (s : State) (b : Bits) : (s.fillBits b).nodeCnt = s.nodeCnt := rfl
@[simp] theorem State.fillBits_root (s : State) (b : Bits) : (s.fillBits b).root = s.root := rfl
@[simp] theorem State.fillBits_ct (s : State) (b : Bits) : (s.fillBits b).ct = s.ct := rfl
@[simp] theorem State.fillBits_sqHead (s : State) (b : Bits) : (s.fillBits b).sqHead = s.sqHead := rfl
@[simp] theorem State.fillBits_tqHead (s : State) (b : Bits) : (s.fillBits b).tqHead = s.tqHead := rfl
@[simp] theorem State.fillBits_tqTail (s : State) (b : Bits) : (s.fillBits b).tqTail = s.tqTail := rfl
@[simp] theorem State.fillBits_bitbuf (s : State) (b : Bits) : (s.fillBits b).bitbuf = b := rfl
@[simp] theorem State.fillBits_ibufCap (s : State) (b : Bits) : (s.fillBits b).ibufCap = s.ibufCap := rfl
@[simp] theorem State.fillBits_obufCap (s : State) (b : Bits) : (s.fillBits b).obufCap = s.obufCap := rfl
@[simp] theorem State.fillBits_hostScript (s : State) (b : Bits) : (s.fillBits b).hostScript = s.hostScript := rfl
@[simp] theorem State.fillBits_hostReads (s : State) (b : Bits) : (s.fillBits b).hostReads = s.hostReads := rfl
@[simp] theorem State.fillBits_busyLeft (s : State) (b : Bits) : (s.fillBits b).busyLeft = s.busyLeft := rfl
@[simp] theorem State.fillBits_busyDraws (s : State) (b : Bits) : (s.fillBits b).busyDraws = s.busyDraws := rfl
@[simp] theorem State.fillBits_issued (s : State) (b : Bits) : (s.fillBits b).issued = s.issued := rfl

@[simp] theorem State.emptyBits_phase (s : State) : (s.emptyBits).phase = s.phase := rfl
@[simp] theorem State.emptyBits_pend (s : State) : (s.emptyBits).pend = s.pend := rfl
@[simp] theorem State.emptyBits_done (s : State) : (s.emptyBits).done = s.done := rfl
@[simp] theorem State.emptyBits_err (s : State) : (s.emptyBits).err = s.err := rfl
@[simp] theorem State.emptyBits_errcode (s : State) : (s.emptyBits).errcode = s.errcode := rfl
@[simp] theorem State.emptyBits_erridx (s : State) : (s.emptyBits).erridx = s.erridx := rfl
@[simp] theorem State.emptyBits_errval (s : State) : (s.emptyBits).errval = s.errval := rfl
@[simp] theorem State.emptyBits_ftValid (s : State) : (s.emptyBits).ftValid = s.ftValid := rfl
@[simp] theorem State.emptyBits_treeValid (s : State) : (s.emptyBits).treeValid = s.treeValid := rfl
@[simp] theorem State.emptyBits_ctValid (s : State) : (s.emptyBits).ctValid = s.ctValid := rfl
@[simp] theorem State.emptyBits_synth (s : State) : (s.emptyBits).synth = s.synth := rfl
@[simp] theorem State.emptyBits_midcode (s : State) : (s.emptyBits).midcode = s.midcode := rfl
@[simp] theorem State.emptyBits_cur (s : State) : (s.emptyBits).cur = s.cur := rfl
@[simp] theorem State.emptyBits_iovf (s : State) : (s.emptyBits).iovf = s.iovf := rfl
@[simp] theorem State.emptyBits_sel (s : State) : (s.emptyBits).sel = s.sel := rfl
@[simp] theorem State.emptyBits_ibuf (s : State) : (s.emptyBits).ibuf = s.ibuf := rfl
@[simp] theorem State.emptyBits_obuf (s : State) : (s.emptyBits).obuf = s.obuf := rfl
@[simp] theorem State.emptyBits_cnt (s : State) : (s.emptyBits).cnt = s.cnt := rfl
@[simp] theorem State.emptyBits_total (s : State) : (s.emptyBits).total = s.total := rfl
@[simp] theorem State.emptyBits_ft (s : State) : (s.emptyBits).ft = s.ft := rfl
@[simp] theorem State.emptyBits_ftLen (s : State) : (s.emptyBits).ftLen = s.ftLen := rfl
@[simp] theorem State.emptyBits_node (s : State) : (s.emptyBits).node = s.node := rfl
@[simp] theorem State.emptyBits_nodeCnt (s : State) : (s.emptyBits).nodeCnt = s.nodeCnt := rfl
@[simp] theorem State.emptyBits_root (s : State) : (s.emptyBits).root = s.root := rfl
@[simp] theorem State.emptyBits_ct (s : State) : (s.emptyBits).ct = s.ct := rfl
@[simp] theorem State.emptyBits_sqHead (s : State) : (s.emptyBits).sqHead = s.sqHead := rfl
@[simp] theorem State.emptyBits_tqHead (s : State) : (s.emptyBits).tqHead = s.tqHead := rfl
@[simp] theorem State.emptyBits_tqTail (s : State) : (s.emptyBits).tqTail = s.tqTail := rfl
@[simp] theorem State.emptyBits_bitbuf (s : State) : (s.emptyBits).bitbuf = [] := rfl
@[simp] theorem State.emptyBits_ibufCap (s : State) : (s.emptyBits).ibufCap = s.ibufCap := rfl
@[simp] theorem State.emptyBits_obufCap (s : State) : (s.emptyBits).obufCap = s.obufCap := rfl
@[simp] theorem State.emptyBits_hostScript (s : State) : (s.emptyBits).hostScript = s.hostScript := rfl
@[simp] theorem State.emptyBits_hostReads (s : State) : (s.emptyBits).hostReads = s.hostReads := rfl
@[simp] theorem State.emptyBits_busyLeft (s : State) : (s.emptyBits).busyLeft = s.busyLeft := rfl
@[simp] theorem State.emptyBits_busyDraws (s : State) : (s.emptyBits).busyDraws = s.busyDraws := rfl
@[simp] theorem State.emptyBits_issued (s : State) : (s.emptyBits).issued = s.issued := rfl

@[simp] theorem State.keepUnpacked_phase (s : State) : s.keepUnpacked.phase = s.phase := rfl
@[simp] theorem State.keepUnpacked_pend (s : State) : s.keepUnpacked.pend = s.pend := rfl
@[simp] theorem State.keepUnpacked_done (s : State) : s.keepUnpacked.done = s.done := rfl
@[simp] theorem State.keepUnpacked_err (s : State) : s.keepUnpacked.err = s.err := rfl
@[simp] theorem State.keepUnpacked_errcode (s : State) : s.keepUnpacked.errcode = s.errcode := rfl
@[simp] theorem State.keepUnpacked_erridx (s : State) : s.keepUnpacked.erridx = s.erridx := rfl
@[simp] theorem State.keepUnpacked_errval (s : State) : s.keepUnpacked.errval = s.errval := rfl
@[simp] theorem State.keepUnpacked_ftValid (s : State) : s.keepUnpacked.ftValid = s.ftValid := rfl
@[simp] theorem State.keepUnpacked_treeValid (s : State) : s.keepUnpacked.treeValid = s.treeValid := rfl
@[simp] theorem State.keepUnpacked_ctValid (s : State) : s.keepUnpacked.ctValid = s.ctValid := rfl
@[simp] theorem State.keepUnpacked_synth (s : State) : s.keepUnpacked.synth = s.synth := rfl
@[simp] theorem State.keepUnpacked_midcode (s : State) : s.keepUnpacked.midcode = s.midcode := rfl
@[simp] theorem State.keepUnpacked_cur (s : State) : s.keepUnpacked.cur = s.cur := rfl
@[simp] theorem State.keepUnpacked_iovf (s : State) : s.keepUnpacked.iovf = s.iovf := rfl
@[simp] theorem State.keepUnpacked_sel (s : State) : s.keepUnpacked.sel = s.sel := rfl
@[simp] theorem State.keepUnpacked_ibuf (s : State) : s.keepUnpacked.ibuf = s.ibuf := rfl
@[simp] theorem State.keepUnpacked_obuf (s : State) : s.keepUnpacked.obuf = s.obuf := rfl
@[simp] theorem State.keepUnpacked_cnt (s : State) : s.keepUnpacked.cnt = s.cnt := rfl
@[simp] theorem State.keepUnpacked_total (s : State) : s.keepUnpacked.total = s.total := rfl
@[simp] theorem State.keepUnpacked_ft (s : State) : s.keepUnpacked.ft = s.ft := rfl
@[simp] theorem State.keepUnpacked_ftLen (s : State) : s.keepUnpacked.ftLen = s.ftLen := rfl
@[simp] theorem State.keepUnpacked_node (s : State) : s.keepUnpacked.node = s.node := rfl
@[simp] theorem State.keepUnpacked_nodeCnt (s : State) : s.keepUnpacked.nodeCnt = s.nodeCnt := rfl
@[simp] theorem State.keepUnpacked_root (s : State) : s.keepUnpacked.root = s.root := rfl
@[simp] theorem State.keepUnpacked_ct (s : State) : s.keepUnpacked.ct = s.ct := rfl
@[simp] theorem State.keepUnpacked_sqHead (s : State) : s.keepUnpacked.sqHead = s.sqHead := rfl
@[simp] theorem State.keepUnpacked_tqHead (s : State) : s.keepUnpacked.tqHead = s.tqHead := rfl
@[simp] theorem State.keepUnpacked_tqTail (s : State) : s.keepUnpacked.tqTail = s.tqTail := rfl
@[simp] theorem State.keepUnpacked_bitbuf (s : State) : s.keepUnpacked.bitbuf = unpackBytes s.inputBytes := rfl
@[simp] theorem State.keepUnpacked_ibufCap (s : State) : s.keepUnpacked.ibufCap = s.ibufCap := rfl
@[simp] theorem State.keepUnpacked_obufCap (s : State) : s.keepUnpacked.obufCap = s.obufCap := rfl
@[simp] theorem State.keepUnpacked_hostScript (s : State) : s.keepUnpacked.hostScript = s.hostScript := rfl
@[simp] theorem State.keepUnpacked_hostReads (s : State) : s.keepUnpacked.hostReads = s.hostReads := rfl
@[simp] theorem State.keepUnpacked_busyLeft (s : State) : s.keepUnpacked.busyLeft = s.busyLeft := rfl
@[simp] theorem State.keepUnpacked_busyDraws (s : State) : s.keepUnpacked.busyDraws = s.busyDraws := rfl
@[simp] theorem State.keepUnpacked_issued (s : State) : s.keepUnpacked.issued = s.issued := rfl

@[simp] theorem State.packOut_phase (s : State) : s.packOut.phase = s.phase := rfl
@[simp] theorem State.packOut_pend (s : State) : s.packOut.pend = s.pend := rfl
@[simp] theorem State.packOut_done (s : State) : s.packOut.done = s.done := rfl
@[simp] theorem State.packOut_err (s : State) : s.packOut.err = s.err := rfl
@[simp] theorem State.packOut_errcode (s : State) : s.packOut.errcode = s.errcode := rfl
@[simp] theorem State.packOut_erridx (s : State) : s.packOut.erridx = s.erridx := rfl
@[simp] theorem State.packOut_errval (s : State) : s.packOut.errval = s.errval := rfl
@[simp] theorem State.packOut_ftValid (s : State) : s.packOut.ftValid = s.ftValid := rfl
@[simp] theorem State.packOut_treeValid (s : State) : s.packOut.treeValid = s.treeValid := rfl
@[simp] theorem State.packOut_ctValid (s : State) : s.packOut.ctValid = s.ctValid := rfl
@[simp] theorem State.packOut_synth (s : State) : s.packOut.synth = s.synth := rfl
@[simp] theorem State.packOut_midcode (s : State) : s.packOut.midcode = s.midcode := rfl
@[simp] theorem State.packOut_cur (s : State) : s.packOut.cur = s.cur := rfl
@[simp] theorem State.packOut_iovf (s : State) : s.packOut.iovf = s.iovf := rfl
@[simp] theorem State.packOut_sel (s : State) : s.packOut.sel = s.sel := rfl
@[simp] theorem State.packOut_ibuf (s : State) : s.packOut.ibuf = s.ibuf := rfl
@[simp] theorem State.packOut_obuf (s : State) : s.packOut.obuf = packBits s.bitbuf := rfl
@[simp] theorem State.packOut_cnt (s : State) : s.packOut.cnt = s.cnt := rfl
@[simp] theorem State.packOut_total (s : State) : s.packOut.total = s.total := rfl
@[simp] theorem State.packOut_ft (s : State) : s.packOut.ft = s.ft := rfl
@[simp] theorem State.packOut_ftLen (s : State) : s.packOut.ftLen = s.ftLen := rfl
@[simp] theorem State.packOut_node (s : State) : s.packOut.node = s.node := rfl
@[simp] theorem State.packOut_nodeCnt (s : State) : s.packOut.nodeCnt = s.nodeCnt := rfl
@[simp] theorem State.packOut_root (s : State) : s.packOut.root = s.root := rfl
@[simp] theorem State.packOut_ct (s : State) : s.packOut.ct = s.ct := rfl
@[simp] theorem State.packOut_sqHead (s : State) : s.packOut.sqHead = s.sqHead := rfl
@[simp] theorem State.packOut_tqHead (s : State) : s.packOut.tqHead = s.tqHead := rfl
@[simp] theorem State.packOut_tqTail (s : State) : s.packOut.tqTail = s.tqTail := rfl
@[simp] theorem State.packOut_bitbuf (s : State) : s.packOut.bitbuf = [] := rfl
@[simp] theorem State.packOut_ibufCap (s : State) : s.packOut.ibufCap = s.ibufCap := rfl
@[simp] theorem State.packOut_obufCap (s : State) : s.packOut.obufCap = s.obufCap := rfl
@[simp] theorem State.packOut_hostScript (s : State) : s.packOut.hostScript = s.hostScript := rfl
@[simp] theorem State.packOut_hostReads (s : State) : s.packOut.hostReads = s.hostReads := rfl
@[simp] theorem State.packOut_busyLeft (s : State) : s.packOut.busyLeft = s.busyLeft := rfl
@[simp] theorem State.packOut_busyDraws (s : State) : s.packOut.busyDraws = s.busyDraws := rfl
@[simp] theorem State.packOut_issued (s : State) : s.packOut.issued = s.issued := rfl

@[simp] theorem State.countInput_phase (s : State) : (s.countInput).phase = s.phase := by simp only [State.countInput]
@[simp] theorem State.countInput_pend (s : State) : (s.countInput).pend = s.pend := by simp only [State.countInput]
@[simp] theorem State.countInput_done (s : State) : (s.countInput).done = s.done := by simp only [State.countInput]
@[simp] theorem State.countInput_err (s : State) : (s.countInput).err = s.err := by simp only [State.countInput]
@[simp] theorem State.countInput_errcode (s : State) : (s.countInput).errcode = s.errcode := by simp only [State.countInput]
@[simp] theorem State.countInput_erridx (s : State) : (s.countInput).erridx = s.erridx := by simp only [State.countInput]
@[simp] theorem State.countInput_errval (s : State) : (s.countInput).errval = s.errval := by simp only [State.countInput]
@[simp] theorem State.countInput_ftValid (s : State) : (s.countInput).ftValid = s.ftValid := by simp only [State.countInput]
@[simp] theorem State.countInput_treeValid (s : State) : (s.countInput).treeValid = s.treeValid := by simp only [State.countInput]
@[simp] theorem State.countInput_ctValid (s : State) : (s.countInput).ctValid = s.ctValid := by simp only [State.countInput]
@[simp] theorem State.countInput_synth (s : State) : (s.countInput).synth = s.synth := by simp only [State.countInput]
@[simp] theorem State.countInput_midcode (s : State) : (s.countInput).midcode = s.midcode := by simp only [State.countInput]
@[simp] theorem State.countInput_cur (s : State) : (s.countInput).cur = s.cur := by simp only [State.countInput]
@[simp] theorem State.countInput_iovf (s : State) : (s.countInput).iovf = s.iovf := by simp only [State.countInput]
@[simp] theorem State.countInput_sel (s : State) : (s.countInput).sel = s.sel := by simp only [State.countInput]
@[simp] theorem State.countInput_ibuf (s : State) : (s.countInput).ibuf = s.ibuf := by simp only [State.countInput]
@[simp] theorem State.countInput_obuf (s : State) : (s.countInput).obuf = s.obuf := by simp only [State.countInput]
@[simp] theorem State.countInput_cnt (s : State) : (s.countInput).cnt = countSyms s.inputSyms := by simp only [State.countInput]
@[simp] theorem State.countInput_total (s : State) : (s.countInput).total = BitVec.ofNat 32 s.ibuf.length := by simp only [State.countInput]
@[simp] theorem State.countInput_ft (s : State) : (s.countInput).ft = s.ft := by simp only [State.countInput]
@[simp] theorem State.countInput_ftLen (s : State) : (s.countInput).ftLen = s.ftLen := by simp only [State.countInput]
@[simp] theorem State.countInput_node (s : State) : (s.countInput).node = s.node := by simp only [State.countInput]
@[simp] theorem State.countInput_nodeCnt (s : State) : (s.countInput).nodeCnt = s.nodeCnt := by simp only [State.countInput]
@[simp] theorem State.countInput_root (s : State) : (s.countInput).root = s.root := by simp only [State.countInput]
@[simp] theorem State.countInput_ct (s : State) : (s.countInput).ct = s.ct := by simp only [State.countInput]
@[simp] theorem State.countInput_sqHead (s : State) : (s.countInput).sqHead = s.sqHead := by simp only [State.countInput]
@[simp] theorem State.countInput_tqHead (s : State) : (s.countInput).tqHead = s.tqHead := by simp only [State.countInput]
@[simp] theorem State.countInput_tqTail (s : State) : (s.countInput).tqTail = s.tqTail := by simp only [State.countInput]
@[simp] theorem State.countInput_bitbuf (s : State) : (s.countInput).bitbuf = s.bitbuf := by simp only [State.countInput]
@[simp] theorem State.countInput_ibufCap (s : State) : (s.countInput).ibufCap = s.ibufCap := by simp only [State.countInput]
@[simp] theorem State.countInput_obufCap (s : State) : (s.countInput).obufCap = s.obufCap := by simp only [State.countInput]
@[simp] theorem State.countInput_hostScript (s : State) : (s.countInput).hostScript = s.hostScript := by simp only [State.countInput]
@[simp] theorem State.countInput_hostReads (s : State) : (s.countInput).hostReads = s.hostReads := by simp only [State.countInput]
@[simp] theorem State.countInput_busyLeft (s : State) : (s.countInput).busyLeft = s.busyLeft := by simp only [State.countInput]
@[simp] theorem State.countInput_busyDraws (s : State) : (s.countInput).busyDraws = s.busyDraws := by simp only [State.countInput]
@[simp] theorem State.countInput_issued (s : State) : (s.countInput).issued = s.issued := by simp only [State.countInput]

@[simp] theorem State.buildFt_phase (s : State) : (s.buildFt).phase = s.phase := by simp only [State.buildFt]
@[simp] theorem State.buildFt_pend (s : State) : (s.buildFt).pend = s.pend := by simp only [State.buildFt]
@[simp] theorem State.buildFt_done (s : State) : (s.buildFt).done = s.done := by simp only [State.buildFt]
@[simp] theorem State.buildFt_err (s : State) : (s.buildFt).err = s.err := by simp only [State.buildFt]
@[simp] theorem State.buildFt_errcode (s : State) : (s.buildFt).errcode = s.errcode := by simp only [State.buildFt]
@[simp] theorem State.buildFt_erridx (s : State) : (s.buildFt).erridx = s.erridx := by simp only [State.buildFt]
@[simp] theorem State.buildFt_errval (s : State) : (s.buildFt).errval = s.errval := by simp only [State.buildFt]
@[simp] theorem State.buildFt_ftValid (s : State) : (s.buildFt).ftValid = true := by simp only [State.buildFt]
@[simp] theorem State.buildFt_treeValid (s : State) : (s.buildFt).treeValid = s.treeValid := by simp only [State.buildFt]
@[simp] theorem State.buildFt_ctValid (s : State) : (s.buildFt).ctValid = s.ctValid := by simp only [State.buildFt]
@[simp] theorem State.buildFt_synth (s : State) : (s.buildFt).synth = (fixUp (entries s.cnt s.total)).2 := by simp only [State.buildFt]
@[simp] theorem State.buildFt_midcode (s : State) : (s.buildFt).midcode = s.midcode := by simp only [State.buildFt]
@[simp] theorem State.buildFt_cur (s : State) : (s.buildFt).cur = s.cur := by simp only [State.buildFt]
@[simp] theorem State.buildFt_iovf (s : State) : (s.buildFt).iovf = s.iovf := by simp only [State.buildFt]
@[simp] theorem State.buildFt_sel (s : State) : (s.buildFt).sel = s.sel := by simp only [State.buildFt]
@[simp] theorem State.buildFt_ibuf (s : State) : (s.buildFt).ibuf = s.ibuf := by simp only [State.buildFt]
@[simp] theorem State.buildFt_obuf (s : State) : (s.buildFt).obuf = s.obuf := by simp only [State.buildFt]
@[simp] theorem State.buildFt_cnt (s : State) : (s.buildFt).cnt = s.cnt := by simp only [State.buildFt]
@[simp] theorem State.buildFt_total (s : State) : (s.buildFt).total = s.total := by simp only [State.buildFt]
@[simp] theorem State.buildFt_ft (s : State) : (s.buildFt).ft = writeFt s.ft (sortEntries (fixUp (entries s.cnt s.total)).1) := by simp only [State.buildFt]
@[simp] theorem State.buildFt_ftLen (s : State) : (s.buildFt).ftLen = BitVec.ofNat 8 (fixUp (entries s.cnt s.total)).1.length := by simp only [State.buildFt]
@[simp] theorem State.buildFt_node (s : State) : (s.buildFt).node = s.node := by simp only [State.buildFt]
@[simp] theorem State.buildFt_nodeCnt (s : State) : (s.buildFt).nodeCnt = s.nodeCnt := by simp only [State.buildFt]
@[simp] theorem State.buildFt_root (s : State) : (s.buildFt).root = s.root := by simp only [State.buildFt]
@[simp] theorem State.buildFt_ct (s : State) : (s.buildFt).ct = s.ct := by simp only [State.buildFt]
@[simp] theorem State.buildFt_sqHead (s : State) : (s.buildFt).sqHead = s.sqHead := by simp only [State.buildFt]
@[simp] theorem State.buildFt_tqHead (s : State) : (s.buildFt).tqHead = s.tqHead := by simp only [State.buildFt]
@[simp] theorem State.buildFt_tqTail (s : State) : (s.buildFt).tqTail = s.tqTail := by simp only [State.buildFt]
@[simp] theorem State.buildFt_bitbuf (s : State) : (s.buildFt).bitbuf = s.bitbuf := by simp only [State.buildFt]
@[simp] theorem State.buildFt_ibufCap (s : State) : (s.buildFt).ibufCap = s.ibufCap := by simp only [State.buildFt]
@[simp] theorem State.buildFt_obufCap (s : State) : (s.buildFt).obufCap = s.obufCap := by simp only [State.buildFt]
@[simp] theorem State.buildFt_hostScript (s : State) : (s.buildFt).hostScript = s.hostScript := by simp only [State.buildFt]
@[simp] theorem State.buildFt_hostReads (s : State) : (s.buildFt).hostReads = s.hostReads := by simp only [State.buildFt]
@[simp] theorem State.buildFt_busyLeft (s : State) : (s.buildFt).busyLeft = s.busyLeft := by simp only [State.buildFt]
@[simp] theorem State.buildFt_busyDraws (s : State) : (s.buildFt).busyDraws = s.busyDraws := by simp only [State.buildFt]
@[simp] theorem State.buildFt_issued (s : State) : (s.buildFt).issued = s.issued := by simp only [State.buildFt]

@[simp] theorem State.enqueue_phase (s : State) (n : Node) : (s.enqueue n).phase = s.phase := by simp only [State.enqueue]
@[simp] theorem State.enqueue_pend (s : State) (n : Node) : (s.enqueue n).pend = s.pend := by simp only [State.enqueue]
@[simp] theorem State.enqueue_done (s : State) (n : Node) : (s.enqueue n).done = s.done := by simp only [State.enqueue]
@[simp] theorem State.enqueue_err (s : State) (n : Node) : (s.enqueue n).err = s.err := by simp only [State.enqueue]
@[simp] theorem State.enqueue_errcode (s : State) (n : Node) : (s.enqueue n).errcode = s.errcode := by simp only [State.enqueue]
@[simp] theorem State.enqueue_erridx (s : State) (n : Node) : (s.enqueue n).erridx = s.erridx := by simp only [State.enqueue]
@[simp] theorem State.enqueue_errval (s : State) (n : Node) : (s.enqueue n).errval = s.errval := by simp only [State.enqueue]
@[simp] theorem State.enqueue_ftValid (s : State) (n : Node) : (s.enqueue n).ftValid = s.ftValid := by simp only [State.enqueue]
@[simp] theorem State.enqueue_treeValid (s : State) (n : Node) : (s.enqueue n).treeValid = s.treeValid := by simp only [State.enqueue]
@[simp] theorem State.enqueue_ctValid (s : State) (n : Node) : (s.enqueue n).ctValid = s.ctValid := by simp only [State.enqueue]
@[simp] theorem State.enqueue_synth (s : State) (n : Node) : (s.enqueue n).synth = s.synth := by simp only [State.enqueue]
@[simp] theorem State.enqueue_midcode (s : State) (n : Node) : (s.enqueue n).midcode = s.midcode := by simp only [State.enqueue]
@[simp] theorem State.enqueue_cur (s : State) (n : Node) : (s.enqueue n).cur = s.cur := by simp only [State.enqueue]
@[simp] theorem State.enqueue_iovf (s : State) (n : Node) : (s.enqueue n).iovf = s.iovf := by simp only [State.enqueue]
@[simp] theorem State.enqueue_sel (s : State) (n : Node) : (s.enqueue n).sel = s.sel := by simp only [State.enqueue]
@[simp] theorem State.enqueue_ibuf (s : State) (n : Node) : (s.enqueue n).ibuf = s.ibuf := by simp only [State.enqueue]
@[simp] theorem State.enqueue_obuf (s : State) (n : Node) : (s.enqueue n).obuf = s.obuf := by simp only [State.enqueue]
@[simp] theorem State.enqueue_cnt (s : State) (n : Node) : (s.enqueue n).cnt = s.cnt := by simp only [State.enqueue]
@[simp] theorem State.enqueue_total (s : State) (n : Node) : (s.enqueue n).total = s.total := by simp only [State.enqueue]
@[simp] theorem State.enqueue_ft (s : State) (n : Node) : (s.enqueue n).ft = s.ft := by simp only [State.enqueue]
@[simp] theorem State.enqueue_ftLen (s : State) (n : Node) : (s.enqueue n).ftLen = s.ftLen := by simp only [State.enqueue]
@[simp] theorem State.enqueue_node (s : State) (n : Node) : (s.enqueue n).node = s.node.setIfInBounds s.tqTail.toNat n := by simp only [State.enqueue]
@[simp] theorem State.enqueue_nodeCnt (s : State) (n : Node) : (s.enqueue n).nodeCnt = s.nodeCnt := by simp only [State.enqueue]
@[simp] theorem State.enqueue_root (s : State) (n : Node) : (s.enqueue n).root = s.root := by simp only [State.enqueue]
@[simp] theorem State.enqueue_ct (s : State) (n : Node) : (s.enqueue n).ct = s.ct := by simp only [State.enqueue]
@[simp] theorem State.enqueue_sqHead (s : State) (n : Node) : (s.enqueue n).sqHead = s.sqHead := by simp only [State.enqueue]
@[simp] theorem State.enqueue_tqHead (s : State) (n : Node) : (s.enqueue n).tqHead = s.tqHead := by simp only [State.enqueue]
@[simp] theorem State.enqueue_tqTail (s : State) (n : Node) : (s.enqueue n).tqTail = s.tqTail + 1 := by simp only [State.enqueue]
@[simp] theorem State.enqueue_bitbuf (s : State) (n : Node) : (s.enqueue n).bitbuf = s.bitbuf := by simp only [State.enqueue]
@[simp] theorem State.enqueue_ibufCap (s : State) (n : Node) : (s.enqueue n).ibufCap = s.ibufCap := by simp only [State.enqueue]
@[simp] theorem State.enqueue_obufCap (s : State) (n : Node) : (s.enqueue n).obufCap = s.obufCap := by simp only [State.enqueue]
@[simp] theorem State.enqueue_hostScript (s : State) (n : Node) : (s.enqueue n).hostScript = s.hostScript := by simp only [State.enqueue]
@[simp] theorem State.enqueue_hostReads (s : State) (n : Node) : (s.enqueue n).hostReads = s.hostReads := by simp only [State.enqueue]
@[simp] theorem State.enqueue_busyLeft (s : State) (n : Node) : (s.enqueue n).busyLeft = s.busyLeft := by simp only [State.enqueue]
@[simp] theorem State.enqueue_busyDraws (s : State) (n : Node) : (s.enqueue n).busyDraws = s.busyDraws := by simp only [State.enqueue]
@[simp] theorem State.enqueue_issued (s : State) (n : Node) : (s.enqueue n).issued = s.issued := by simp only [State.enqueue]

@[simp] theorem State.closeTree_phase (s : State) : (s.closeTree).phase = s.phase := rfl
@[simp] theorem State.closeTree_pend (s : State) : (s.closeTree).pend = s.pend := rfl
@[simp] theorem State.closeTree_done (s : State) : (s.closeTree).done = s.done := rfl
@[simp] theorem State.closeTree_err (s : State) : (s.closeTree).err = s.err := rfl
@[simp] theorem State.closeTree_errcode (s : State) : (s.closeTree).errcode = s.errcode := rfl
@[simp] theorem State.closeTree_erridx (s : State) : (s.closeTree).erridx = s.erridx := rfl
@[simp] theorem State.closeTree_errval (s : State) : (s.closeTree).errval = s.errval := rfl
@[simp] theorem State.closeTree_ftValid (s : State) : (s.closeTree).ftValid = s.ftValid := rfl
@[simp] theorem State.closeTree_treeValid (s : State) : (s.closeTree).treeValid = true := rfl
@[simp] theorem State.closeTree_ctValid (s : State) : (s.closeTree).ctValid = s.ctValid := rfl
@[simp] theorem State.closeTree_synth (s : State) : (s.closeTree).synth = s.synth := rfl
@[simp] theorem State.closeTree_midcode (s : State) : (s.closeTree).midcode = s.midcode := rfl
@[simp] theorem State.closeTree_cur (s : State) : (s.closeTree).cur = s.cur := rfl
@[simp] theorem State.closeTree_iovf (s : State) : (s.closeTree).iovf = s.iovf := rfl
@[simp] theorem State.closeTree_sel (s : State) : (s.closeTree).sel = s.sel := rfl
@[simp] theorem State.closeTree_ibuf (s : State) : (s.closeTree).ibuf = s.ibuf := rfl
@[simp] theorem State.closeTree_obuf (s : State) : (s.closeTree).obuf = s.obuf := rfl
@[simp] theorem State.closeTree_cnt (s : State) : (s.closeTree).cnt = s.cnt := rfl
@[simp] theorem State.closeTree_total (s : State) : (s.closeTree).total = s.total := rfl
@[simp] theorem State.closeTree_ft (s : State) : (s.closeTree).ft = s.ft := rfl
@[simp] theorem State.closeTree_ftLen (s : State) : (s.closeTree).ftLen = s.ftLen := rfl
@[simp] theorem State.closeTree_node (s : State) : (s.closeTree).node = s.node := rfl
@[simp] theorem State.closeTree_nodeCnt (s : State) : (s.closeTree).nodeCnt = s.tqTail := rfl
@[simp] theorem State.closeTree_root (s : State) : (s.closeTree).root = s.tqTail - 1 := rfl
@[simp] theorem State.closeTree_ct (s : State) : (s.closeTree).ct = s.ct := rfl
@[simp] theorem State.closeTree_sqHead (s : State) : (s.closeTree).sqHead = s.sqHead := rfl
@[simp] theorem State.closeTree_tqHead (s : State) : (s.closeTree).tqHead = s.tqHead := rfl
@[simp] theorem State.closeTree_tqTail (s : State) : (s.closeTree).tqTail = s.tqTail := rfl
@[simp] theorem State.closeTree_bitbuf (s : State) : (s.closeTree).bitbuf = s.bitbuf := rfl
@[simp] theorem State.closeTree_ibufCap (s : State) : (s.closeTree).ibufCap = s.ibufCap := rfl
@[simp] theorem State.closeTree_obufCap (s : State) : (s.closeTree).obufCap = s.obufCap := rfl
@[simp] theorem State.closeTree_hostScript (s : State) : (s.closeTree).hostScript = s.hostScript := rfl
@[simp] theorem State.closeTree_hostReads (s : State) : (s.closeTree).hostReads = s.hostReads := rfl
@[simp] theorem State.closeTree_busyLeft (s : State) : (s.closeTree).busyLeft = s.busyLeft := rfl
@[simp] theorem State.closeTree_busyDraws (s : State) : (s.closeTree).busyDraws = s.busyDraws := rfl
@[simp] theorem State.closeTree_issued (s : State) : (s.closeTree).issued = s.issued := rfl

@[simp] theorem State.setScript_phase (s : State) (r : List HostAction) : (s.setScript r).phase = s.phase := rfl
@[simp] theorem State.setScript_pend (s : State) (r : List HostAction) : (s.setScript r).pend = s.pend := rfl
@[simp] theorem State.setScript_done (s : State) (r : List HostAction) : (s.setScript r).done = s.done := rfl
@[simp] theorem State.setScript_err (s : State) (r : List HostAction) : (s.setScript r).err = s.err := rfl
@[simp] theorem State.setScript_errcode (s : State) (r : List HostAction) : (s.setScript r).errcode = s.errcode := rfl
@[simp] theorem State.setScript_erridx (s : State) (r : List HostAction) : (s.setScript r).erridx = s.erridx := rfl
@[simp] theorem State.setScript_errval (s : State) (r : List HostAction) : (s.setScript r).errval = s.errval := rfl
@[simp] theorem State.setScript_ftValid (s : State) (r : List HostAction) : (s.setScript r).ftValid = s.ftValid := rfl
@[simp] theorem State.setScript_treeValid (s : State) (r : List HostAction) : (s.setScript r).treeValid = s.treeValid := rfl
@[simp] theorem State.setScript_ctValid (s : State) (r : List HostAction) : (s.setScript r).ctValid = s.ctValid := rfl
@[simp] theorem State.setScript_synth (s : State) (r : List HostAction) : (s.setScript r).synth = s.synth := rfl
@[simp] theorem State.setScript_midcode (s : State) (r : List HostAction) : (s.setScript r).midcode = s.midcode := rfl
@[simp] theorem State.setScript_cur (s : State) (r : List HostAction) : (s.setScript r).cur = s.cur := rfl
@[simp] theorem State.setScript_iovf (s : State) (r : List HostAction) : (s.setScript r).iovf = s.iovf := rfl
@[simp] theorem State.setScript_sel (s : State) (r : List HostAction) : (s.setScript r).sel = s.sel := rfl
@[simp] theorem State.setScript_ibuf (s : State) (r : List HostAction) : (s.setScript r).ibuf = s.ibuf := rfl
@[simp] theorem State.setScript_obuf (s : State) (r : List HostAction) : (s.setScript r).obuf = s.obuf := rfl
@[simp] theorem State.setScript_cnt (s : State) (r : List HostAction) : (s.setScript r).cnt = s.cnt := rfl
@[simp] theorem State.setScript_total (s : State) (r : List HostAction) : (s.setScript r).total = s.total := rfl
@[simp] theorem State.setScript_ft (s : State) (r : List HostAction) : (s.setScript r).ft = s.ft := rfl
@[simp] theorem State.setScript_ftLen (s : State) (r : List HostAction) : (s.setScript r).ftLen = s.ftLen := rfl
@[simp] theorem State.setScript_node (s : State) (r : List HostAction) : (s.setScript r).node = s.node := rfl
@[simp] theorem State.setScript_nodeCnt (s : State) (r : List HostAction) : (s.setScript r).nodeCnt = s.nodeCnt := rfl
@[simp] theorem State.setScript_root (s : State) (r : List HostAction) : (s.setScript r).root = s.root := rfl
@[simp] theorem State.setScript_ct (s : State) (r : List HostAction) : (s.setScript r).ct = s.ct := rfl
@[simp] theorem State.setScript_sqHead (s : State) (r : List HostAction) : (s.setScript r).sqHead = s.sqHead := rfl
@[simp] theorem State.setScript_tqHead (s : State) (r : List HostAction) : (s.setScript r).tqHead = s.tqHead := rfl
@[simp] theorem State.setScript_tqTail (s : State) (r : List HostAction) : (s.setScript r).tqTail = s.tqTail := rfl
@[simp] theorem State.setScript_bitbuf (s : State) (r : List HostAction) : (s.setScript r).bitbuf = s.bitbuf := rfl
@[simp] theorem State.setScript_ibufCap (s : State) (r : List HostAction) : (s.setScript r).ibufCap = s.ibufCap := rfl
@[simp] theorem State.setScript_obufCap (s : State) (r : List HostAction) : (s.setScript r).obufCap = s.obufCap := rfl
@[simp] theorem State.setScript_hostScript (s : State) (r : List HostAction) : (s.setScript r).hostScript = r := rfl
@[simp] theorem State.setScript_hostReads (s : State) (r : List HostAction) : (s.setScript r).hostReads = s.hostReads := rfl
@[simp] theorem State.setScript_busyLeft (s : State) (r : List HostAction) : (s.setScript r).busyLeft = s.busyLeft := rfl
@[simp] theorem State.setScript_busyDraws (s : State) (r : List HostAction) : (s.setScript r).busyDraws = s.busyDraws := rfl
@[simp] theorem State.setScript_issued (s : State) (r : List HostAction) : (s.setScript r).issued = s.issued := rfl

@[simp] theorem State.loadLeaves_phase (s : State) : s.loadLeaves.phase = s.phase := by simp only [State.loadLeaves]
@[simp] theorem State.loadLeaves_pend (s : State) : s.loadLeaves.pend = s.pend := by simp only [State.loadLeaves]
@[simp] theorem State.loadLeaves_done (s : State) : s.loadLeaves.done = s.done := by simp only [State.loadLeaves]
@[simp] theorem State.loadLeaves_err (s : State) : s.loadLeaves.err = s.err := by simp only [State.loadLeaves]
@[simp] theorem State.loadLeaves_errcode (s : State) : s.loadLeaves.errcode = s.errcode := by simp only [State.loadLeaves]
@[simp] theorem State.loadLeaves_erridx (s : State) : s.loadLeaves.erridx = s.erridx := by simp only [State.loadLeaves]
@[simp] theorem State.loadLeaves_errval (s : State) : s.loadLeaves.errval = s.errval := by simp only [State.loadLeaves]
@[simp] theorem State.loadLeaves_ftValid (s : State) : s.loadLeaves.ftValid = s.ftValid := by simp only [State.loadLeaves]
@[simp] theorem State.loadLeaves_treeValid (s : State) : s.loadLeaves.treeValid = s.treeValid := by simp only [State.loadLeaves]
@[simp] theorem State.loadLeaves_ctValid (s : State) : s.loadLeaves.ctValid = s.ctValid := by simp only [State.loadLeaves]
@[simp] theorem State.loadLeaves_synth (s : State) : s.loadLeaves.synth = s.synth := by simp only [State.loadLeaves]
@[simp] theorem State.loadLeaves_midcode (s : State) : s.loadLeaves.midcode = s.midcode := by simp only [State.loadLeaves]
@[simp] theorem State.loadLeaves_cur (s : State) : s.loadLeaves.cur = s.cur := by simp only [State.loadLeaves]
@[simp] theorem State.loadLeaves_iovf (s : State) : s.loadLeaves.iovf = s.iovf := by simp only [State.loadLeaves]
@[simp] theorem State.loadLeaves_sel (s : State) : s.loadLeaves.sel = s.sel := by simp only [State.loadLeaves]
@[simp] theorem State.loadLeaves_ibuf (s : State) : s.loadLeaves.ibuf = s.ibuf := by simp only [State.loadLeaves]
@[simp] theorem State.loadLeaves_obuf (s : State) : s.loadLeaves.obuf = s.obuf := by simp only [State.loadLeaves]
@[simp] theorem State.loadLeaves_cnt (s : State) : s.loadLeaves.cnt = s.cnt := by simp only [State.loadLeaves]
@[simp] theorem State.loadLeaves_total (s : State) : s.loadLeaves.total = s.total := by simp only [State.loadLeaves]
@[simp] theorem State.loadLeaves_ft (s : State) : s.loadLeaves.ft = s.ft := by simp only [State.loadLeaves]
@[simp] theorem State.loadLeaves_ftLen (s : State) : s.loadLeaves.ftLen = s.ftLen := by simp only [State.loadLeaves]
@[simp] theorem State.loadLeaves_nodeCnt (s : State) : s.loadLeaves.nodeCnt = s.nodeCnt := by simp only [State.loadLeaves]
@[simp] theorem State.loadLeaves_root (s : State) : s.loadLeaves.root = s.root := by simp only [State.loadLeaves]
@[simp] theorem State.loadLeaves_ct (s : State) : s.loadLeaves.ct = s.ct := by simp only [State.loadLeaves]
@[simp] theorem State.loadLeaves_sqHead (s : State) : s.loadLeaves.sqHead = 0 := by simp only [State.loadLeaves]
@[simp] theorem State.loadLeaves_tqHead (s : State) : s.loadLeaves.tqHead = s.ftLen := by simp only [State.loadLeaves]
@[simp] theorem State.loadLeaves_tqTail (s : State) : s.loadLeaves.tqTail = s.ftLen := by simp only [State.loadLeaves]
@[simp] theorem State.loadLeaves_bitbuf (s : State) : s.loadLeaves.bitbuf = s.bitbuf := by simp only [State.loadLeaves]
@[simp] theorem State.loadLeaves_ibufCap (s : State) : s.loadLeaves.ibufCap = s.ibufCap := by simp only [State.loadLeaves]
@[simp] theorem State.loadLeaves_obufCap (s : State) : s.loadLeaves.obufCap = s.obufCap := by simp only [State.loadLeaves]
@[simp] theorem State.loadLeaves_hostScript (s : State) : s.loadLeaves.hostScript = s.hostScript := by simp only [State.loadLeaves]
@[simp] theorem State.loadLeaves_hostReads (s : State) : s.loadLeaves.hostReads = s.hostReads := by simp only [State.loadLeaves]
@[simp] theorem State.loadLeaves_busyLeft (s : State) : s.loadLeaves.busyLeft = s.busyLeft := by simp only [State.loadLeaves]
@[simp] theorem State.loadLeaves_busyDraws (s : State) : s.loadLeaves.busyDraws = s.busyDraws := by simp only [State.loadLeaves]
@[simp] theorem State.loadLeaves_issued (s : State) : s.loadLeaves.issued = s.issued := by simp only [State.loadLeaves]

end Sys2Proof.Machine
end

