-- ==== Sys2Proof/Laws/Ops.lean ====
section
/-! SUPPORT. One lemma per shared operation: everything it can do. Later proofs cite these. -/

namespace Sys2Proof.Machine

/-! ## Reads of the memories -/

@[simp] theorem unsetAll_valid (ct : Vector CtEntry 128) (i : Nat) (h : i < 128) :
    (unsetAll ct)[i].valid = false := by simp [unsetAll]

theorem State.ctAt_dropCodes (s : State) (x : Sym) : (s.dropCodes.ctAt x).valid = false :=
  unsetAll_valid s.ct x.toNat x.isLt

theorem State.ctAt_dropTree (s : State) (x : Sym) : (s.dropTree.ctAt x).valid = false :=
  unsetAll_valid s.ct x.toNat x.isLt

theorem State.ctAt_beginSession (s : State) (x : Sym) : (s.beginSession.ctAt x).valid = false :=
  unsetAll_valid s.ct x.toNat x.isLt

/-- A node below 255 is the stored one. -/
theorem State.nodeAt_lt (s : State) (i : NodeIdx) (h : i.toNat < 255) : s.nodeAt i = s.node[i.toNat] := by
  simp [State.nodeAt, h]

theorem State.ftAt_lt (s : State) (i : Nat) (h : i < 128) : s.ftAt i = s.ft[i] := by
  simp [State.ftAt, h]

/-- The list of FT's entries in use, read by index. -/
theorem State.ftList_getElem? (s : State) (i : Nat) (h : i < s.ftLen.toNat) (h' : i < 128) :
    s.ftList[i]? = some (s.ftAt i) := by
  simp [State.ftList, h, h', s.ftAt_lt i h']

theorem State.ftList_length (s : State) (h : s.ftLen.toNat ≤ 128) : s.ftList.length = s.ftLen.toNat := by
  simp [State.ftList, h]

/-- Reading the node just enqueued, and any other. -/
theorem State.nodeAt_enqueue (s : State) (n : Node) (i : NodeIdx) (h : s.tqTail.toNat < 255) :
    (s.enqueue n).nodeAt i = if i = s.tqTail then n else s.nodeAt i := by
  unfold State.nodeAt
  rw [State.enqueue_node, Vector.getElem?_setIfInBounds]
  by_cases hi : i = s.tqTail
  · subst hi; simp [h]
  · have : s.tqTail.toNat ≠ i.toNat := fun e => hi (BitVec.eq_of_toNat_eq e.symm)
    simp [hi, this]

/-! ## Completion -/

@[simp] theorem Run.complete_phase (r : Run) : r.complete.phase = .idle := by cases r <;> rfl

@[simp] theorem Run.complete_done (r : Run) : r.complete.done = true := by cases r <;> rfl

/-- A command's completion reports an error exactly when its pseudocode stopped at a `raise` (R237). -/
theorem Run.complete_err (r : Run) : r.complete.err = true ↔ ∃ e s, r = .raise e s := by
  cases r with
  | ok s => simp [Run.complete]
  | raise e s => simp [Run.complete]

/-- Completion keeps every field but PHASE and the record. -/
theorem Run.complete_frame (r : Run) :
    r.complete = { r.state with
      phase := .idle, done := true, err := r.complete.err, errcode := r.complete.errcode,
      erridx := r.complete.erridx, errval := r.complete.errval } := by cases r <;> rfl

/-- The code of an error is 1 to 8 (R260, R115). -/
theorem CmdError.code_range (e : CmdError) : 1 ≤ e.code.toNat ∧ e.code.toNat ≤ 8 := by
  cases e <;> decide

theorem CmdError.code_ne_zero (e : CmdError) : e.code ≠ 0 := by cases e <;> decide

/-- Inversion of a chain of two pseudocodes (R226). -/
theorem Run.andThen_cases (r : Run) (f : State → Run) :
    (∃ s, r = .ok s ∧ r.andThen f = f s) ∨ (∃ e s, r = .raise e s ∧ r.andThen f = .raise e s) := by
  cases r with
  | ok s => exact .inl ⟨s, rfl, rfl⟩
  | raise e s => exact .inr ⟨e, s, rfl, rfl⟩

/-! ## The element scan and the input checks -/

/-- The scan finds nothing exactly when every element passes (R270). -/
theorem scanElems_none (check : Elem → Option CmdError) (i : Nat) (es : List Elem) :
    scanElems check i es = none ↔ ∀ e ∈ es, check e = none := by
  induction es generalizing i with
  | nil => simp [scanElems]
  | cons e es ih =>
    cases h : check e with
    | none => simp [scanElems, h, ih]
    | some err => simp [scanElems, h]

/-- The first element that fails decides (R270). -/
theorem scanElems_first (check : Elem → Option CmdError) (i : Nat) (pre : List Elem) (e : Elem)
    (post : List Elem) (err : CmdError) (hpre : ∀ p ∈ pre, check p = none) (he : check e = some err) :
    scanElems check i (pre ++ e :: post) = some ⟨err, BitVec.ofNat 32 (i + pre.length), e.data⟩ := by
  induction pre generalizing i with
  | nil => simp [scanElems, he]
  | cons p pre ih =>
    have hp := hpre p (by simp)
    simp only [List.cons_append, scanElems, hp, List.length_cons]
    rw [ih (i + 1) fun q hq => hpre q (by simp [hq])]
    congr 3
    omega

/-- Where the scan fails there is a first failing element. -/
theorem scanElems_some (check : Elem → Option CmdError) (i : Nat) (es : List Elem) (r : Raise)
    (h : scanElems check i es = some r) :
    ∃ pre e post err, es = pre ++ e :: post ∧ (∀ p ∈ pre, check p = none) ∧ check e = some err ∧
      r = ⟨err, BitVec.ofNat 32 (i + pre.length), e.data⟩ := by
  induction es generalizing i with
  | nil => simp [scanElems] at h
  | cons e es ih =>
    cases he : check e with
    | some err =>
      simp only [scanElems, he, Option.some.injEq] at h
      exact ⟨[], e, es, err, rfl, by simp, he, by simp [h.symm]⟩
    | none =>
      simp only [scanElems, he] at h
      obtain ⟨pre, x, post, err, rfl, hpre, hx, rfl⟩ := ih (i + 1) h
      refine ⟨e :: pre, x, post, err, rfl, ?_, hx, ?_⟩
      · intro p hp
        rcases List.mem_cons.mp hp with rfl | hp
        · exact he
        · exact hpre p hp
      · rw [List.length_cons, Nat.add_assoc, Nat.add_comm 1]

/-- The input passes every check (R270). -/
theorem State.inputError_none (s : State) (text : Bool) (check : Elem → Option CmdError) :
    s.inputError text check = none ↔
      s.iovf = false ∧ (text = true → s.ibuf ≠ []) ∧ ∀ e ∈ s.ibuf, check e = none := by
  unfold State.inputError
  cases hi : s.iovf with
  | true => simp
  | false =>
    cases text with
    | false => simp [scanElems_none]
    | true =>
      cases hb : s.ibuf with
      | nil => simp
      | cons e es => simp [scanElems_none]

/-- A truncated input is reported before anything else of the input (R268, R270). -/
theorem State.inputError_iovf (s : State) (text : Bool) (check : Elem → Option CmdError)
    (h : s.iovf = true) : s.inputError text check = some .inputCapacity := by
  simp [State.inputError, h]

/-- An empty input is reported by the commands that need a text (R261). -/
theorem State.inputError_empty (s : State) (check : Elem → Option CmdError)
    (h : s.iovf = false) (hb : s.ibuf = []) : s.inputError true check = some .emptyInput := by
  simp [State.inputError, h, hb]

/-- Otherwise the first element that fails decides (R270). -/
theorem State.inputError_first (s : State) (text : Bool) (check : Elem → Option CmdError)
    (pre post : List Elem) (e : Elem) (err : CmdError) (h : s.iovf = false)
    (hb : s.ibuf = pre ++ e :: post) (hpre : ∀ p ∈ pre, check p = none) (he : check e = some err) :
    s.inputError text check = some ⟨err, BitVec.ofNat 32 pre.length, e.data⟩ := by
  have := scanElems_first check 0 pre e post err hpre he
  simp [State.inputError, h, hb, this]

/-- Everything `onInput` can do. -/
theorem State.onInput_cases (s : State) (text : Bool) (check : Elem → Option CmdError) (k : State → Run) :
    (s.inputError text check = none ∧ s.onInput text check k = k s) ∨
    (∃ e, s.inputError text check = some e ∧ s.onInput text check k = .raise e s) := by
  unfold State.onInput
  cases h : s.inputError text check with
  | none => exact .inl ⟨rfl, rfl⟩
  | some e => exact .inr ⟨e, rfl, rfl⟩

/-! ## The outputs -/

/-- Everything `emit` can do (R190, R200). -/
theorem State.emit_cases (s : State) (out : List Byte) :
    (out.length ≤ s.obufCap ∧ s.emit out = .ok { s with obuf := out }) ∨
    (s.obufCap < out.length ∧ s.emit out = .raise .outputCapacity s) := by
  unfold State.emit
  by_cases h : s.obufCap < out.length
  · exact .inr ⟨h, if_pos h⟩
  · exact .inl ⟨Nat.le_of_not_lt h, if_neg h⟩

/-- Everything `keepPacked` can do (R50, R189). -/
theorem State.keepPacked_cases (s : State) (b : Bits) :
    (packedLength b.length ≤ s.obufCap ∧ s.keepPacked b = .ok { s with bitbuf := b }) ∨
    (s.obufCap < packedLength b.length ∧ s.keepPacked b = .raise .outputCapacity s) := by
  unfold State.keepPacked
  by_cases h : s.obufCap < packedLength b.length
  · exact .inr ⟨h, if_pos h⟩
  · exact .inl ⟨Nat.le_of_not_lt h, if_neg h⟩

/-- A packed bitstring never exceeds BITBUF, whatever the capacities (R50). -/
theorem State.keepPacked_fits (s t : State) (b : Bits) (h : s.keepPacked b = .ok t) :
    t.bitbuf.length ≤ t.bitbufCap := by
  rcases s.keepPacked_cases b with ⟨hl, hk⟩ | ⟨_, hk⟩ <;> rw [hk] at h <;> cases h
  simp only [State.bitbufCap, packedLength] at hl ⊢
  omega

/-- An unpacked bitstring never exceeds BITBUF where IBUF is within its capacity (R49, R50). -/
theorem State.keepUnpacked_fits (s : State) (h : s.ibuf.length ≤ s.ibufCap) :
    s.keepUnpacked.bitbuf.length ≤ s.keepUnpacked.bitbufCap := by
  have hu : (unpackBytes s.inputBytes).length ≤ 8 * s.ibuf.length := by
    simpa [State.inputBytes] using unpackBytes_length_le s.inputBytes
  show (unpackBytes s.inputBytes).length ≤ 8 * max s.ibufCap s.obufCap
  omega

/-- Everything `emitPacked` can do (R189, R213). -/
theorem State.emitPacked_cases (s : State) (b : Bits) :
    (packedLength b.length ≤ s.obufCap ∧ s.emitPacked b = .ok { s with bitbuf := [], obuf := packBits b }) ∨
    (s.obufCap < packedLength b.length ∧ s.emitPacked b = .raise .outputCapacity s) := by
  unfold State.emitPacked
  rcases s.keepPacked_cases b with ⟨hl, hk⟩ | ⟨hl, hk⟩
  · exact .inl ⟨hl, by rw [hk]; rfl⟩
  · exact .inr ⟨hl, by rw [hk]; rfl⟩

/-! ## BUILD's loop -/

/-- One selection moves one queue pointer and nothing else (R154). -/
theorem State.pick_frame (s : State) : ∃ a b, s.pick.2 = { s with sqHead := a, tqHead := b } := by
  unfold State.pick State.pickSource State.pickTarget
  split
  · exact ⟨_, _, rfl⟩
  · split
    · exact ⟨_, _, rfl⟩
    · split <;> exact ⟨_, _, rfl⟩

/-- A merge step writes NODE and the queue pointers and nothing else (R155). -/
theorem State.mergeStep_frame (s : State) :
    ∃ n a b c, s.mergeStep = { s with node := n, sqHead := a, tqHead := b, tqTail := c } := by
  obtain ⟨a, b, h⟩ := s.pick_frame
  obtain ⟨c, d, h'⟩ := s.pick.2.pick_frame
  show ∃ n a b c, s.pick.2.pick.2.enqueue _ = _
  rw [h', h]
  exact ⟨_, _, _, _, rfl⟩

/-- The merge loop writes NODE and the queue pointers and nothing else. -/
theorem mergeLoop_frame (k : Nat) (s : State) :
    ∃ n a b c, mergeLoop k s = { s with node := n, sqHead := a, tqHead := b, tqTail := c } := by
  induction k generalizing s with
  | zero => exact ⟨_, _, _, _, rfl⟩
  | succ k ih =>
    unfold mergeLoop
    split
    · obtain ⟨n, a, b, c, h⟩ := s.mergeStep_frame
      obtain ⟨n', a', b', c', h'⟩ := ih s.mergeStep
      exact ⟨n', a', b', c', by rw [h', h]⟩
    · exact ⟨_, _, _, _, rfl⟩

/-! ## CGEN's table writes -/

/-- Writing a code changes the code table and nothing else (R173). -/
theorem State.writeCode_frame (s : State) (x : Sym) : s.writeCode x = { s with ct := (s.writeCode x).ct } := by
  unfold State.writeCode
  split <;> rfl

/-- Writing codes changes the code table and nothing else. -/
theorem State.writeCodes_frame (xs : List Sym) (s : State) :
    xs.foldl State.writeCode s = { s with ct := (xs.foldl State.writeCode s).ct } := by
  induction xs generalizing s with
  | nil => rfl
  | cons x xs ih =>
    rw [List.foldl_cons, ih (s.writeCode x), s.writeCode_frame x]

end Sys2Proof.Machine
end

