-- ==== Sys2Proof/Laws/Step.lean ====
section
/-! SUPPORT. What one step can do, said once. -/

namespace Sys2Proof.Machine

/-- The next event is a completion, of a legal command or of an illegal word, the host's next action, or nothing
(R235, R237). -/
theorem step_cases (s : State) :
    (s.completionDue = true ∧ ∃ i, decodeWord s.pend = .ok i ∧ step s = exec i s) ∨
    (s.completionDue = true ∧ (∃ e, decodeWord s.pend = .error e) ∧ step s = .next s.completeIllegal) ∨
    (s.completionDue = false ∧ ∃ a rest, s.hostScript = a :: rest ∧ step s = s.hostStep a rest) ∨
    (s.completionDue = false ∧ s.hostScript = [] ∧ step s = .next s) := by
  unfold step State.nextEvent
  cases hd : s.completionDue with
  | true =>
    cases hw : decodeWord s.pend with
    | ok i => exact .inl ⟨rfl, i, rfl, by simp [State.completion, hw]⟩
    | error e => exact .inr (.inl ⟨rfl, ⟨e, rfl⟩, by simp [State.completion, hw]⟩)
  | false =>
    cases hs : s.hostScript with
    | nil => exact .inr (.inr (.inr ⟨rfl, rfl, rfl⟩))
    | cons a rest => exact .inr (.inr (.inl ⟨rfl, a, rest, rfl, rfl⟩))

/-- Every command's completion is a next state, but for BUILD on a state that is no HUFFCORE state (R158). -/
theorem exec_cases (i : Instr) (s : State) :
    (∃ r : Run, exec i s = .next r.complete) ∨
    (i = .build ∧ s.leavesOutOfRange = true ∧ exec i s = .refused .leavesOutOfRange) := by
  cases i with
  | build =>
    cases h : s.leavesOutOfRange with
    | true => exact .inr ⟨rfl, rfl, by simp [exec, execBuild, h]⟩
    | false => exact .inl ⟨runBuild s, by simp [exec, execBuild, h]⟩
  | clr => exact .inl ⟨_, rfl⟩
  | iclr => exact .inl ⟨_, rfl⟩
  | freq => exact .inl ⟨_, rfl⟩
  | cgen => exact .inl ⟨_, rfl⟩
  | encode => exact .inl ⟨_, rfl⟩
  | decode => exact .inl ⟨_, rfl⟩
  | pack => exact .inl ⟨_, rfl⟩
  | unpack => exact .inl ⟨_, rfl⟩
  | compress => exact .inl ⟨_, rfl⟩

/-- While BUSY a host write is lost (R238). -/
theorem State.hostWrite_busy (s : State) (i : Nat) (w : Word) (h : s.phase = .busy) : s.hostWrite i w = s := by
  simp [State.hostWrite, State.busyBit, h]

/-- While BUSY a host read has no side effect (R238). -/
theorem State.afterRead_busy (s : State) (i : Nat) (h : s.phase = .busy) : s.afterRead i = s := by
  simp [State.afterRead, State.busyBit, h]

/-- A read changes OBUF at most (R239). -/
theorem State.afterRead_frame (s : State) (i : Nat) : s.afterRead i = { s with obuf := (s.afterRead i).obuf } := by
  unfold State.afterRead
  split
  · rfl
  · split <;> rfl

/-- What a host write can do (R236, R240, R241, R243). -/
theorem State.hostWrite_cases (s : State) (i : Nat) (w : Word) :
    s.hostWrite i w = s ∨ (s.phase = .idle ∧ s.hostWrite i w = s.issue w) ∨
    s.hostWrite i w = s.pushElem (elemOfWord w) ∨
    s.hostWrite i w = { s with sel := w.extractLsb' 0 8 } := by
  unfold State.hostWrite
  split
  · exact .inl rfl
  · rename_i hb
    have hp : s.phase = .idle := by
      cases hph : s.phase with
      | idle => rfl
      | busy => simp [State.busyBit, hph] at hb
    split
    · exact .inr (.inl ⟨hp, rfl⟩)
    · exact .inr (.inr (.inl rfl))
    · exact .inr (.inr (.inr rfl))
    · exact .inl rfl

/-- What a push can do (R240). -/
theorem State.pushElem_cases (s : State) (e : Elem) :
    (s.ibuf.length < s.ibufCap ∧ s.pushElem e = { s with ibuf := s.ibuf ++ [e] }) ∨
    (s.ibufCap ≤ s.ibuf.length ∧ s.pushElem e = { s with iovf := true }) := by
  unfold State.pushElem
  by_cases h : s.ibuf.length < s.ibufCap
  · exact .inl ⟨h, if_pos h⟩
  · exact .inr ⟨Nat.le_of_not_lt h, if_neg h⟩

/-- A spent access lowers the count of the pending command's delay, at most. -/
theorem State.spendDelay_frame (s : State) : s.spendDelay = { s with busyLeft := s.spendDelay.busyLeft } := by
  unfold State.spendDelay
  split <;> rfl

end Sys2Proof.Machine
end

