-- ==== Sys2Proof/Laws/Commands.lean ====
section
/-! SUPPORT. Inversion of each command's pseudocode: every way it can end, with the state it leaves. -/

namespace Sys2Proof.Machine

/-- FREQ stops at an input check, with only the session cleared, or builds its table (R130). -/
theorem runFreq_cases (s : State) :
    (∃ e, s.inputError true checkSymbol = some e ∧ runFreq s = .raise e s.beginSession) ∨
    (s.inputError true checkSymbol = none ∧ runFreq s = .ok s.beginSession.countInput.buildFt) := by
  have hb : s.beginSession.inputError true checkSymbol = s.inputError true checkSymbol := rfl
  rcases s.beginSession.onInput_cases true checkSymbol fun s => .ok s.countInput.buildFt with ⟨h, hk⟩ | ⟨e, h, hk⟩
  · exact .inr ⟨hb ▸ h, hk⟩
  · exact .inl ⟨e, hb ▸ h, hk⟩

/-- BUILD stops without a table, or closes the tree its loop made (R150). -/
theorem runBuild_cases (s : State) :
    (s.ftValid = false ∧ runBuild s = .raise .sequence s) ∨
    (s.ftValid = true ∧ runBuild s = .ok (mergeLoop 127 s.dropTree.loadLeaves).closeTree) := by
  unfold runBuild
  cases s.ftValid <;> simp

/-- CGEN stops without a tree, or writes the codes of FT's symbols (R170). -/
theorem runCgen_cases (s : State) :
    (s.treeValid = false ∧ runCgen s = .raise .sequence s) ∨
    (s.treeValid = true ∧
      runCgen s = .ok { s.ftSyms.foldl State.writeCode s.dropCodes with ctValid := true }) := by
  unfold runCgen
  cases s.treeValid <;> simp

/-- PACK stops at an input check, at the output's capacity, or packs the bits (R185). -/
theorem runPack_cases (s : State) :
    (∃ e, s.inputError false checkChar = some e ∧ runPack s = .raise e s.emptyObuf) ∨
    (s.inputError false checkChar = none ∧ s.obufCap < packedLength s.inputBits.length ∧
      runPack s = .raise .outputCapacity s.emptyObuf) ∨
    (s.inputError false checkChar = none ∧ packedLength s.inputBits.length ≤ s.obufCap ∧
      runPack s = .ok { s with obuf := packBits s.inputBits, bitbuf := [] }) := by
  have hb : s.emptyObuf.inputError false checkChar = s.inputError false checkChar := rfl
  rcases s.emptyObuf.onInput_cases false checkChar fun s => s.emitPacked s.inputBits with
    ⟨h, hk⟩ | ⟨e, h, hk⟩
  · rcases s.emptyObuf.emitPacked_cases s.emptyObuf.inputBits with ⟨hl, he⟩ | ⟨hl, he⟩
    · exact .inr (.inr ⟨hb ▸ h, hl, hk.trans he⟩)
    · exact .inr (.inl ⟨hb ▸ h, hl, hk.trans he⟩)
  · exact .inl ⟨e, hb ▸ h, hk⟩

/-- UNPACK stops at an input check, at the output's capacity, or gives the characters (R195). -/
theorem runUnpack_cases (s : State) :
    (∃ e, s.inputError false checkByte = some e ∧ runUnpack s = .raise e s.emptyObuf) ∨
    (s.inputError false checkByte = none ∧ s.obufCap < (unpackBytes s.inputBytes).length ∧
      runUnpack s = .raise .outputCapacity { s with obuf := [], bitbuf := [] }) ∨
    (s.inputError false checkByte = none ∧ (unpackBytes s.inputBytes).length ≤ s.obufCap ∧
      runUnpack s = .ok { s with obuf := (unpackBytes s.inputBytes).map charOfBit, bitbuf := [] }) := by
  have hb : s.emptyObuf.inputError false checkByte = s.inputError false checkByte := rfl
  rcases s.emptyObuf.onInput_cases false checkByte fun s =>
    s.keepUnpacked.emptyBits.emit ((unpackBytes s.inputBytes).map charOfBit) with
    ⟨h, hk⟩ | ⟨e, h, hk⟩
  · rcases s.emptyObuf.keepUnpacked.emptyBits.emit_cases
      ((unpackBytes s.inputBytes).map charOfBit) with ⟨hl, he⟩ | ⟨hl, he⟩
    · exact .inr (.inr ⟨hb ▸ h, by simpa using hl, hk.trans he⟩)
    · exact .inr (.inl ⟨hb ▸ h, by simpa using hl, hk.trans he⟩)
  · exact .inl ⟨e, hb ▸ h, hk⟩

/-- ENCODE stops without a code table, at an input check, at the output's capacity, or packs the codes (R210). -/
theorem runEncode_cases (s : State) :
    (s.ctValid = false ∧ runEncode s = .raise .sequence s.emptyObuf) ∨
    (s.ctValid = true ∧ ∃ e, s.inputError true (checkCoded s) = some e ∧ runEncode s = .raise e s.emptyObuf) ∨
    (s.ctValid = true ∧ s.inputError true (checkCoded s) = none ∧
      s.obufCap < packedLength (s.codeBits s.inputSyms).length ∧
      runEncode s = .raise .outputCapacity s.emptyObuf) ∨
    (s.ctValid = true ∧ s.inputError true (checkCoded s) = none ∧
      packedLength (s.codeBits s.inputSyms).length ≤ s.obufCap ∧
      runEncode s = .ok { s with obuf := packBits (s.codeBits s.inputSyms), bitbuf := [] }) := by
  have hb : s.emptyObuf.inputError true (checkCoded s.emptyObuf) = s.inputError true (checkCoded s) := rfl
  rcases Bool.eq_false_or_eq_true s.ctValid with hv | hv
  case inr => exact .inl ⟨hv, by simp [runEncode, hv]⟩
  case inl =>
    have hr : runEncode s = s.emptyObuf.onInput true (checkCoded s.emptyObuf) fun s =>
        s.emitPacked (s.codeBits s.inputSyms) := by simp [runEncode, hv]
    rcases s.emptyObuf.onInput_cases true (checkCoded s.emptyObuf) fun s =>
      s.emitPacked (s.codeBits s.inputSyms) with ⟨h, hk⟩ | ⟨e, h, hk⟩
    · rcases s.emptyObuf.emitPacked_cases (s.emptyObuf.codeBits s.emptyObuf.inputSyms) with
        ⟨hl, he⟩ | ⟨hl, he⟩
      · exact .inr (.inr (.inr ⟨hv, hb ▸ h, hl, hr.trans (hk.trans he)⟩))
      · exact .inr (.inr (.inl ⟨hv, hb ▸ h, hl, hr.trans (hk.trans he)⟩))
    · exact .inr (.inl ⟨hv, e, hb ▸ h, hr.trans hk⟩)

/-- The state DECODE's first assignments leave (R218). -/
def State.clearDecode (s : State) : State := { s.emptyObuf with midcode := false, cur := nilIdx }

/-- Everything `emitWalk` can do (R218, R220). -/
theorem State.emitWalk_cases (s : State) (r : List Sym × NodeIdx) :
    (r.1.length ≤ s.obufCap ∧ s.emitWalk r = .ok { s with
      bitbuf := [], obuf := r.1.map fun x => x.setWidth 8, cur := r.2, midcode := r.2 != s.root }) ∨
    (s.obufCap < r.1.length ∧ s.emitWalk r = .raise .outputCapacity s.emptyBits) := by
  unfold State.emitWalk
  rcases s.emptyBits.emit_cases (r.1.map fun x => x.setWidth 8) with ⟨hl, he⟩ | ⟨hl, he⟩
  · exact .inl ⟨by simpa using hl, by rw [he]; rfl⟩
  · exact .inr ⟨by simpa using hl, by rw [he]; rfl⟩

/-- The walk reads NODE and ROOT alone (R219). -/
theorem State.walk_congr (s t : State) (hn : t.node = s.node) (hr : t.root = s.root) (c : NodeIdx) (bs : Bits) :
    t.walk c bs = s.walk c bs := by
  have ha : t.nodeAt = s.nodeAt := by funext i; simp [State.nodeAt, hn]
  induction bs generalizing c with
  | nil => rfl
  | cons b bs ih => unfold State.walk State.child; rw [ha, hr]; simp only [ih]

/-- DECODE stops without a tree, at an input check, at the output's capacity, or gives the walk's symbols and the
walker's place (R218). -/
theorem runDecode_cases (s : State) :
    (s.treeValid = false ∧ runDecode s = .raise .sequence s.clearDecode) ∨
    (s.treeValid = true ∧ ∃ e, s.inputError false checkByte = some e ∧ runDecode s = .raise e s.clearDecode) ∨
    (s.treeValid = true ∧ s.inputError false checkByte = none ∧
      s.obufCap < (s.walk s.root (unpackBytes s.inputBytes)).1.length ∧
      runDecode s = .raise .outputCapacity s.clearDecode.emptyBits) ∨
    (s.treeValid = true ∧ s.inputError false checkByte = none ∧
      (s.walk s.root (unpackBytes s.inputBytes)).1.length ≤ s.obufCap ∧
      runDecode s = .ok { s with
        bitbuf := []
        obuf := (s.walk s.root (unpackBytes s.inputBytes)).1.map fun x => x.setWidth 8
        cur := (s.walk s.root (unpackBytes s.inputBytes)).2
        midcode := (s.walk s.root (unpackBytes s.inputBytes)).2 != s.root }) := by
  have hb : s.clearDecode.inputError false checkByte = s.inputError false checkByte := rfl
  rcases Bool.eq_false_or_eq_true s.treeValid with hv | hv
  case inr => exact .inl ⟨hv, by simp [runDecode, hv, State.clearDecode]⟩
  case inl =>
    let b := s.clearDecode.keepUnpacked
    have hw : b.walk b.root b.bitbuf = s.walk s.root (unpackBytes s.inputBytes) :=
      State.walk_congr s b rfl rfl _ _
    have hr : runDecode s = s.clearDecode.onInput false checkByte fun s =>
        s.keepUnpacked.emitWalk (s.keepUnpacked.walk
          s.root (unpackBytes s.inputBytes)) := by simp [runDecode, hv, State.clearDecode]
    rcases s.clearDecode.onInput_cases false checkByte fun s =>
        s.keepUnpacked.emitWalk (s.keepUnpacked.walk
          s.root (unpackBytes s.inputBytes)) with ⟨h, hk⟩ | ⟨e, h, hk⟩
    · have hd : runDecode s = b.emitWalk (s.walk s.root (unpackBytes s.inputBytes)) := hw ▸ hr.trans hk
      rcases b.emitWalk_cases (s.walk s.root (unpackBytes s.inputBytes)) with ⟨hl, he⟩ | ⟨hl, he⟩
      · exact .inr (.inr (.inr ⟨hv, hb ▸ h, hl, hd.trans he⟩))
      · exact .inr (.inr (.inl ⟨hv, hb ▸ h, hl, hd.trans he⟩))
    · exact .inr (.inl ⟨hv, e, hb ▸ h, hr.trans hk⟩)

/-- COMPRESS stops where FREQ stops, or goes on from the table FREQ made (R226). -/
theorem runCompress_cases (s : State) :
    (∃ e, s.inputError true checkSymbol = some e ∧
      runCompress s = .raise e s.emptyObuf.beginSession) ∨
    (s.inputError true checkSymbol = none ∧
      runCompress s = ((runBuild s.emptyObuf.beginSession.countInput.buildFt).andThen runCgen).andThen runEncode) := by
  have hb : s.emptyObuf.inputError true checkSymbol = s.inputError true checkSymbol := rfl
  rcases runFreq_cases s.emptyObuf with ⟨e, h, hr⟩ | ⟨h, hr⟩
  · exact .inl ⟨e, hb ▸ h, by simp [runCompress, hr, Run.andThen]⟩
  · exact .inr ⟨hb ▸ h, by simp only [runCompress, hr]; rfl⟩

end Sys2Proof.Machine
end

