-- ==== Sys2Proof/Laws/PerInstr.lean ====
section
/-! SUPPORT. A fact about every command as syntax, one lemma per constructor. -/

namespace Sys2Proof.Laws.EncodingFields

/-- The fields of the command word: RSV = 0, OPC the opcode, one of the ten assigned ones (R100, R101). -/
def Statement (i : Instr) : Prop :=
  i.wellFormed = true ∧ legalWord (encode i) = true ∧
  (encode i).extractLsb' 4 28 = 0 ∧ (encode i).extractLsb' 0 4 = opcode i

theorem clr : Statement .clr := ⟨rfl, rfl, rfl, rfl⟩
theorem iclr : Statement .iclr := ⟨rfl, rfl, rfl, rfl⟩
theorem freq : Statement .freq := ⟨rfl, rfl, rfl, rfl⟩
theorem build : Statement .build := ⟨rfl, rfl, rfl, rfl⟩
theorem cgen : Statement .cgen := ⟨rfl, rfl, rfl, rfl⟩
theorem encode : Statement .encode := ⟨rfl, rfl, rfl, rfl⟩
theorem decode : Statement .decode := ⟨rfl, rfl, rfl, rfl⟩
theorem pack : Statement .pack := ⟨rfl, rfl, rfl, rfl⟩
theorem unpack : Statement .unpack := ⟨rfl, rfl, rfl, rfl⟩
theorem compress : Statement .compress := ⟨rfl, rfl, rfl, rfl⟩

end Sys2Proof.Laws.EncodingFields
end

