-- ==== Sys2Proof/Tests/Slice0.lean ====
section
/-! SUPPORT. The model's own tests: expected values from spec/95_test_vectors.md (V<n>) or computed by hand from the
rule named; and the witnesses that each statement's hypotheses can be met together. -/

namespace Sys2Proof.Tests
open Sys2Proof Sys2Proof.Machine Sys2Proof.Claims

set_option Elab.async false

/-! ## Small states -/

/-- The state an outcome gives; the reset state where it gives none. -/
def after : Host.Outcome State Fault Refusal → State
  | .next s => s
  | .fault _ => State.reset
  | .refused _ => State.reset

/-- Untagged elements. -/
def elems (l : List Nat) : List Elem := l.map fun n => ⟨false, BitVec.ofNat 8 n⟩

/-- The reset state with these elements in IBUF. -/
def withInput (l : List Nat) : State := { State.reset with ibuf := elems l }

/-- "AAAAABBBBCCCCDDD" (S6). -/
def textS6 : List Nat :=
  [0x41, 0x41, 0x41, 0x41, 0x41, 0x42, 0x42, 0x42, 0x42] ++ [0x43, 0x43, 0x43, 0x43, 0x44, 0x44, 0x44]

/-- The frequency table of V6. -/
def tableV6 : State :=
  { withInput textS6 with
    ftValid := true, ftLen := 4, total := 16
    cnt := (((State.reset.cnt.set 0x41 5).set 0x42 4).set 0x43 4).set 0x44 3
    ft := (((State.reset.ft.set 0 ⟨0x44, 0x3FC8000000000000⟩).set 1 ⟨0x42, 0x3FD0000000000000⟩).set 2
      ⟨0x43, 0x3FD0000000000000⟩).set 3 ⟨0x41, 0x3FD4000000000000⟩ }

/-- A leaf. -/
def leafOf (x : Sym) (w : Weight) : Node := ⟨true, x, w, 0xFF, 0xFF⟩

/-- The tree of V7. -/
def treeV7 : State :=
  { tableV6 with
    treeValid := true, nodeCnt := 7, root := 6
    node := ((((((tableV6.node.set 0 (leafOf 0x44 0x3FC8000000000000)).set 1
      (leafOf 0x42 0x3FD0000000000000)).set 2 (leafOf 0x43 0x3FD0000000000000)).set 3
      (leafOf 0x41 0x3FD4000000000000)).set 4 ⟨false, 0, 0x3FDC000000000000, 0, 1⟩).set 5
      ⟨false, 0, 0x3FE2000000000000, 2, 3⟩).set 6 ⟨false, 0, 0x3FF0000000000000, 4, 5⟩ }

/-- The code table of V8. -/
def codesV8 : State :=
  { treeV7 with
    ctValid := true
    ct := (((treeV7.ct.set 0x44 ⟨true, 2, [false, false]⟩).set 0x42 ⟨true, 2, [false, true]⟩).set 0x43
      ⟨true, 2, [true, false]⟩).set 0x41 ⟨true, 2, [true, true]⟩ }

/-- A command pending, due at once. -/
def pending (s : State) (w : Word) : State := { s with phase := .busy, pend := w }

/-! ## Decoding: words written out bit by bit (30_encoding.md R100, R101) -/

theorem test_decode_control :
    decodeWord 0b00000000000000000000000000000001#32 = .ok .clr ∧
    decodeWord 0b00000000000000000000000000000010#32 = .ok .iclr := by decide

theorem test_decode_builders :
    decodeWord 0b00000000000000000000000000000011#32 = .ok .freq ∧
    decodeWord 0b00000000000000000000000000000100#32 = .ok .build ∧
    decodeWord 0b00000000000000000000000000000101#32 = .ok .cgen := by decide

theorem test_decode_coders :
    decodeWord 0b00000000000000000000000000000110#32 = .ok .encode ∧
    decodeWord 0b00000000000000000000000000000111#32 = .ok .decode ∧
    decodeWord 0b00000000000000000000000000001010#32 = .ok .compress := by decide

theorem test_decode_packers :
    decodeWord 0b00000000000000000000000000001000#32 = .ok .pack ∧
    decodeWord 0b00000000000000000000000000001001#32 = .ok .unpack := by decide

/-- V22: the illegal words; FREQ with bit 4 set is none of the ten. -/
theorem test_decode_illegal :
    decodeWord 0x00000000 = .error .reservedOpcode ∧ decodeWord 0x00000013 = .error .reservedBitsSet ∧
    decodeWord 0x0000000B = .error .reservedOpcode ∧ decodeWord 0x80000003 = .error .reservedBitsSet := by decide

theorem test_table_word : decodeTableWord 32 4 = some .build ∧ decodeTableWord 32 0 = none := by decide

/-! ## WellFormed: an ill-formed term for each check -/

theorem test_wf_reserved_bits : reservedBitsClear 0x00000013 = false := by decide
theorem test_wf_opcode : opcodeAssigned 0x00000000 = false ∧ opcodeAssigned 0x0000000B = false := by decide
theorem test_wf_word : legalWord 0x00000013 = false ∧ legalWord 0x0000000C = false := by decide
theorem test_wf_narrow_access : (HostAction.busRd 4 2).wellFormed = false := by decide
theorem test_wf_misaligned_access : (HostAction.busWr 5 4 0).wellFormed = false := by decide
theorem test_wf_capacity : capacityInRange 0 = false ∧ capacityInRange (2 ^ 32) = false := by decide
theorem test_wf_push_value : pushValueInRange 0x100 = false := by decide

/-! ## One step per command -/

/-- P2: STATUS after CLR is 0x00000002 and ROOT is NIL. -/
theorem test_clr :
    let t := after (exec .clr (pending codesV8 1))
    t.readValue 0x01 = 0x00000002 ∧ t.readValue 0x0F = 0xFF ∧ t.ibuf = [] := by decide +kernel

/-- R245: the session is kept. -/
theorem test_iclr :
    let t := after (exec .iclr (pending codesV8 2))
    t.ibuf = [] ∧ t.readValue 0x01 = 0x0000003A := by decide +kernel

/-- V6: FT is (D, B, C, A); B before C on the tie. -/
theorem test_freq_sorts :
    let t := after (exec .freq (pending (withInput textS6) 3))
    t.readValue 0x01 = 0x0000000A ∧ t.total = 16 ∧ t.cntAt 0x41 = 5 ∧
    t.ftList = [⟨0x44, 0x3FC8000000000000⟩, ⟨0x42, 0x3FD0000000000000⟩, ⟨0x43, 0x3FD0000000000000⟩,
      ⟨0x41, 0x3FD4000000000000⟩] := by decide +kernel

/-- V14: the synthetic symbol wraps from 127 to 0. -/
theorem test_freq_synthetic_wraps :
    let t := after (exec .freq (pending (withInput [0x7F, 0x7F]) 3))
    t.readValue 0x01 = 0x0000004A ∧ t.ftList = [⟨0x00, 0⟩, ⟨0x7F, 0x3FF0000000000000⟩] := by decide +kernel

/-- V7: the tree of V6's table. -/
theorem test_build :
    let t := after (exec .build (pending tableV6 4))
    t.readValue 0x01 = 0x0000001A ∧ t.root = 6 ∧ t.nodeAt 4 = ⟨false, 0, 0x3FDC000000000000, 0, 1⟩ ∧
    t.nodeAt 6 = ⟨false, 0, 0x3FF0000000000000, 4, 5⟩ := by decide +kernel

/-- V23: rounding decides a selection, the target queue wins (a:1, b:4, c:4, d:5 of 14). -/
theorem test_build_rounding :
    let s := { withInput [] with
      ftValid := true, ftLen := 4
      ft := (((State.reset.ft.set 0 ⟨0x61, 0x3FB2492492492492⟩).set 1 ⟨0x62, 0x3FD2492492492492⟩).set 2
        ⟨0x63, 0x3FD2492492492492⟩).set 3 ⟨0x64, 0x3FD6DB6DB6DB6DB7⟩ }
    let t := after (exec .build s)
    t.nodeAt 4 = ⟨false, 0, 0x3FD6DB6DB6DB6DB6, 0, 1⟩ ∧ t.nodeAt 5 = ⟨false, 0, 0x3FE4924924924924, 2, 4⟩ ∧
    t.nodeAt 6 = ⟨false, 0, 0x3FF0000000000000, 3, 5⟩ := by decide +kernel

/-- V8: the codes D = 00, B = 01, C = 10, A = 11; E has none. -/
theorem test_cgen :
    let t := after (exec .cgen (pending treeV7 5))
    t.readValue 0x01 = 0x0000003A ∧ t.ctAt 0x44 = ⟨true, 2, [false, false]⟩ ∧
    t.ctAt 0x43 = ⟨true, 2, [true, false]⟩ ∧ (t.ctAt 0x45).valid = false := by decide +kernel

/-- V9: the sixteen characters encode to five bytes. -/
theorem test_encode :
    (after (exec .encode (pending codesV8 6))).obuf = [0x01, 0xFF, 0xD5, 0x6A, 0x80] := by decide +kernel

/-- V21: a symbol without a code. -/
theorem test_encode_no_code :
    let t := after (exec .encode (pending { codesV8 with ibuf := elems [0x41, 0x45] } 6))
    t.readValue 0x01 = 0x0000603E ∧ t.erridx = 1 ∧ t.errval = 0x45 := by decide +kernel

/-- V10, in a shorter text: "DAB" is 0x4D (V9). -/
theorem test_decode :
    let t := after (exec .decode (pending { codesV8 with ibuf := elems [0x4D] } 7))
    t.obuf = [0x44, 0x41, 0x42] ∧ t.cur = 6 ∧ t.midcode = false := by decide +kernel

/-- V16: payload "110" leaves the walker at node 4. -/
theorem test_decode_midcode :
    let t := after (exec .decode (pending { codesV8 with ibuf := elems [0x0E] } 7))
    t.obuf = [0x41] ∧ t.cur = 4 ∧ t.readValue 0x01 = 0x000000BA := by decide +kernel

/-- V2: eight characters pack to a full byte of padding and one of payload. -/
theorem test_pack :
    (after (exec .pack (withInput [0x30, 0x31, 0x30, 0x31, 0x30, 0x31, 0x30, 0x31]))).obuf = [0x01, 0x55] := by
  decide +kernel

/-- V5: "01x1". -/
theorem test_pack_malformed :
    let t := after (exec .pack (withInput [0x30, 0x31, 0x78, 0x31]))
    t.readValue 0x01 = 0x00002006 ∧ t.erridx = 2 ∧ t.errval = 0x78 ∧ t.obuf = [] := by decide +kernel

/-- V15: [0x40, 0x01]; the `1` in the second byte is payload. -/
theorem test_unpack :
    (after (exec .unpack (withInput [0x40, 0x01]))).obuf =
      [0x30, 0x30, 0x30, 0x30, 0x30, 0x30, 0x30, 0x30, 0x30, 0x30, 0x30, 0x30, 0x30, 0x31] := by decide +kernel

/-- V15: a first byte of 0x00 is dropped whole. -/
theorem test_unpack_no_marker :
    (after (exec .unpack (withInput [0x00, 0xA5]))).obuf =
      [0x31, 0x30, 0x31, 0x30, 0x30, 0x31, 0x30, 0x31] := by decide +kernel

/-- V12: "Z". -/
theorem test_compress_single :
    let t := after (exec .compress (pending (withInput [0x5A]) 10))
    t.readValue 0x01 = 0x0000007A ∧ t.root = 2 ∧ t.obuf = [0x03] ∧
    t.ctAt 0x5B = ⟨true, 1, [false]⟩ ∧ t.ctAt 0x5A = ⟨true, 1, [true]⟩ := by decide +kernel

/-! ## Host accesses and steps -/

/-- V22: an illegal word inside a session. -/
theorem test_step_illegal :
    let t := after (step (pending tableV6 0x13))
    t.readValue 0x01 = 0x0000700E ∧ t.erridx = 0x13 ∧ t.obuf = [] := by decide +kernel

/-- V25: with IBUF_CAP = 4 the fifth push is dropped and sets IOVF. -/
theorem test_push_overflow :
    let s := { withInput [0x41, 0x42, 0x43, 0x44] with ibufCap := 4 }
    (s.hostWrite 0x04 0x45).ibuf.length = 4 ∧ (s.hostWrite 0x04 0x45).readValue 0x01 = 0x00000100 := by
  decide +kernel

/-- V27: while BUSY IBUF_LEN reads 0, STATUS reads 1 and a push is lost. -/
theorem test_busy :
    let s := pending (withInput [0x41, 0x42]) 3
    s.readValue 0x05 = 0 ∧ s.readValue 0x01 = 1 ∧ s.hostWrite 0x04 0x43 = s := by decide +kernel

/-- V8, R46: the CT window of `A`: length 2, code 11 left-aligned. -/
theorem test_ct_window :
    let s := { codesV8 with sel := 0x41 }
    s.readValue 0x14 = 0x80000002 ∧ s.readValue 0x18 = 0xC0000000 ∧ s.readValue 0x17 = 0 := by decide +kernel

/-- V7: NODE_INFO of the root and of leaf D. -/
theorem test_node_window :
    { treeV7 with sel := 6 }.readValue 0x11 = 0x80000504 ∧ treeV7.readValue 0x11 = 0x80C4FFFF ∧
    { treeV7 with sel := 7 }.readValue 0x11 = 0 := by decide +kernel

/-- V33: a pop. -/
theorem test_pop :
    let s := { State.reset with obuf := [0x01, 0xFF] }
    s.readValue 0x06 = 0x00000001 ∧ (s.afterRead 0x06).obuf = [0xFF] ∧
    State.reset.readValue 0x06 = 0x80000000 := by decide +kernel

/-- R74: a two-byte access is refused. -/
theorem test_narrow_refused :
    { State.reset with hostScript := [.busRd 4 2] }.nextEvent = .refused .notWholeRegister := rfl

/-- R117: `PUSHERR` sets the tag. -/
theorem test_script_pusherr :
    (after (step { State.reset with hostScript := [actPushErr 0x41] })).ibuf = [⟨true, 0x41⟩] := by decide +kernel

/-- V23: 1/14 and 5/14 of R13, and the rounded sum of 1/14 and 4/14 of R14. -/
theorem test_weights :
    wDiv 1 14 = 0x3FB2492492492492 ∧ wDiv 5 14 = 0x3FD6DB6DB6DB6DB7 ∧
    wAdd 0x3FB2492492492492 0x3FD2492492492492 = 0x3FD6DB6DB6DB6DB6 := by decide +kernel

/-! ## A whole session: the text "AB" -/

/-- What COMPRESS leaves for "AB": weights 0.5, root weight 1.0, codes A = 0 and B = 1, output 000001 01. -/
def sessionAB : State :=
  { withInput [0x41, 0x42] with
    done := true, ftValid := true, treeValid := true, ctValid := true
    total := 2, cnt := (State.reset.cnt.set 0x41 1).set 0x42 1
    ftLen := 2
    ft := (State.reset.ft.set 0 ⟨0x41, 0x3FE0000000000000⟩).set 1 ⟨0x42, 0x3FE0000000000000⟩
    nodeCnt := 3, root := 2
    node := ((State.reset.node.set 0 (leafOf 0x41 0x3FE0000000000000)).set 1
      (leafOf 0x42 0x3FE0000000000000)).set 2 ⟨false, 0, 0x3FF0000000000000, 0, 1⟩
    ct := (State.reset.ct.set 0x41 ⟨true, 1, [false]⟩).set 0x42 ⟨true, 1, [true]⟩
    sqHead := 2, tqHead := 2, tqTail := 3
    obuf := [0x05] }

theorem test_compress_session : after (exec .compress (withInput [0x41, 0x42])) = sessionAB := by decide +kernel

theorem sessionAB_ftTable : sessionAB.FtTable where
  len_range := by decide +kernel
  distinct := by decide +kernel
  sorted := by decide +kernel
  total_pos := by decide +kernel
  total_sum := by decide +kernel
  observed := by decide +kernel
  synthetic := fun h => absurd h (by decide +kernel)

theorem sessionAB_treeTable : sessionAB.TreeTable where
  count := by decide +kernel
  root_last := by decide +kernel
  leaves := by decide +kernel
  internal := by decide +kernel
  one_parent := by
    have key : ∀ (k : NodeIdx) (b : Bool), sessionAB.ftLen.toNat ≤ k.toNat →
        k.toNat ≤ 2 * sessionAB.ftLen.toNat - 2 → k = 2 ∧ sessionAB.child k b = bif b then 1 else 0 := by
      decide +kernel
    have cases : ∀ j : NodeIdx, j.toNat < 2 * sessionAB.ftLen.toNat - 2 → ∃ b, j = bif b then 1 else 0 := by
      decide +kernel
    have here : ∀ b : Bool, sessionAB.ftLen.toNat ≤ (2 : NodeIdx).toNat ∧
        (2 : NodeIdx).toNat ≤ 2 * sessionAB.ftLen.toNat - 2 ∧ sessionAB.child 2 b = bif b then 1 else 0 := by
      decide +kernel
    have inj : ∀ b c : Bool, (bif b then (1 : NodeIdx) else 0) = (bif c then 1 else 0) → b = c := by decide
    intro j hj
    obtain ⟨b, rfl⟩ := cases j hj
    exact ⟨(2, b), here b, fun p hp => Prod.ext (key p.1 p.2 hp.1 hp.2.1).1
      (inj p.2 b ((key p.1 p.2 hp.1 hp.2.1).2.symm.trans hp.2.2))⟩

theorem sessionAB_coded : ∀ x, (sessionAB.ctAt x).valid = true →
    (x = 0x41 ∧ (sessionAB.ctAt x).bits = [false]) ∨ (x = 0x42 ∧ (sessionAB.ctAt x).bits = [true]) := by
  decide +kernel

theorem sessionAB_code_a : sessionAB.IsCode 0x41 [false] :=
  ⟨0, ⟨by decide +kernel, by unfold State.LeadsTo; decide +kernel⟩, by decide +kernel, by decide +kernel⟩

theorem sessionAB_code_b : sessionAB.IsCode 0x42 [true] :=
  ⟨1, ⟨by decide +kernel, by unfold State.LeadsTo; decide +kernel⟩, by decide +kernel, by decide +kernel⟩

theorem sessionAB_codeTable : sessionAB.CodeTable where
  present := by decide +kernel
  path := fun x h => by
    rcases sessionAB_coded x h with ⟨rfl, hb⟩ | ⟨rfl, hb⟩ <;> rw [hb]
    · exact sessionAB_code_a
    · exact sessionAB_code_b
  len := by decide +kernel
  prefix_free := fun x y hx hy h => by
    rcases sessionAB_coded x hx with ⟨ha, hb⟩ | ⟨ha, hb⟩ <;>
      rcases sessionAB_coded y hy with ⟨hc, hd⟩ | ⟨hc, hd⟩ <;> rw [hb, hd] at h <;>
      first | exact ha.trans hc.symm | exact absurd h (by decide)
  complete := by
    have va : (sessionAB.ctAt 0x41).valid = true ∧ (sessionAB.ctAt 0x41).bits = [false] := by decide +kernel
    have vb : (sessionAB.ctAt 0x42).valid = true ∧ (sessionAB.ctAt 0x42).bits = [true] := by decide +kernel
    rintro (_ | ⟨b, bs⟩) hb
    · exact absurd hb (by decide +kernel)
    · cases b
      · refine ⟨0x41, ⟨va.1, by rw [va.2]; simp⟩, fun y hy => ?_⟩
        rcases sessionAB_coded y hy.1 with ⟨h, _⟩ | ⟨_, h⟩
        · exact h
        · have := hy.2; rw [h] at this; simp at this
      · refine ⟨0x42, ⟨vb.1, by rw [vb.2]; simp⟩, fun y hy => ?_⟩
        rcases sessionAB_coded y hy.1 with ⟨_, h⟩ | ⟨h, _⟩
        · have := hy.2; rw [h] at this; simp at this
        · exact h

theorem sessionAB_flags : sessionAB.FlagInv where
  ct_tree := by decide +kernel
  tree_ft := by decide +kernel
  synth_two := by decide +kernel
  err_done := by decide +kernel
  errcode_err := by decide +kernel
  errcode_range := by decide +kernel
  busy_clear := by decide +kernel

theorem sessionAB_buffers : sessionAB.BufferInv where
  ibuf_cap := by decide +kernel
  obuf_cap := by decide +kernel
  iovf_full := by decide +kernel
  bitbuf_cap := by decide +kernel
  bitbuf_empty := by decide +kernel

theorem sessionAB_gates : sessionAB.GateInv where
  ft := by decide +kernel
  tree := by decide +kernel
  ct := by decide +kernel

theorem sessionAB_params : sessionAB.ParamsOk := by unfold State.ParamsOk; decide +kernel

theorem sessionAB_inv : sessionAB.Inv where
  params := sessionAB_params
  flags := sessionAB_flags
  walker := by unfold State.WalkerInv; decide +kernel
  buffers := sessionAB_buffers
  gates := sessionAB_gates
  table := fun _ => sessionAB_ftTable
  tree := fun _ => sessionAB_treeTable
  codes := fun _ => sessionAB_codeTable

/-! ## Witnesses: states that meet the hypotheses of a statement, one for each of its clauses -/

/-- The outcome is a next state. -/
def isNext : Host.Outcome State Fault Refusal → Bool
  | .next _ => true
  | .fault _ => false
  | .refused _ => false

theorem next_after {r : Host.Outcome State Fault Refusal} (h : isNext r = true) : r = .next (after r) := by
  cases r <;> simp_all [isNext, after]

/-- A state with these host actions to come. -/
def withScript (s : State) (l : List HostAction) : State := { s with hostScript := l }

/-- A command pending with `n` host accesses to fall before its completion. -/
def waiting (s : State) (w : Word) (n : Nat) : State := { pending s w with busyLeft := n }

theorem witness_StepCompletesThePendingCommand :
    (let s := withScript (pending codesV8 5) [.wait]
     s.phase = .busy ∧ (s.busyLeft = 0 ∨ s.hostScript = []) ∧ decodeWord s.pend = .ok .cgen) ∧
    (let s := waiting codesV8 0xA 3
     s.phase = .busy ∧ (s.busyLeft = 0 ∨ s.hostScript = []) ∧ decodeWord s.pend = .ok .compress) := by
  decide +kernel

theorem witness_IllegalWordRecordsOnlyItself :
    ∀ w ∈ ([0x0, 0xB, 0xF, 0x10, 0x13, 0xFFFFFFFF] : List Word),
      let s := pending tableV6 w
      s.phase = .busy ∧ (s.busyLeft = 0 ∨ s.hostScript = []) ∧
      s.pend.toNat ∉ [1, 2, 3, 4, 5, 6, 7, 8, 9, 10] := by
  have legal : ∀ w ∈ ([0x0, 0xB, 0xF, 0x10, 0x13, 0xFFFFFFFF] : List Word),
      w.toNat ∉ [1, 2, 3, 4, 5, 6, 7, 8, 9, 10] := by simp
  exact fun w hw => ⟨rfl, Or.inl rfl, legal w hw⟩

theorem witness_IdleStepIsTheHostsAccess :
    (let s := withScript codesV8 [.rd 0x06, .wait]
     s.phase = .idle ∧ s.hostScript = .rd 0x06 :: [.wait]) ∧
    (let s := withScript codesV8 [.wr 0x04 0x41]
     s.phase = .idle ∧ s.hostScript = .wr 0x04 0x41 :: []) ∧
    (let s := withScript sessionAB [.wait, .rst]
     s.phase = .idle ∧ s.hostScript = .wait :: [.rst]) ∧
    (let s := withScript sessionAB [.popAll]
     s.phase = .idle ∧ s.hostScript = .popAll :: [] ∧ s.obuf = 0x05 :: []) ∧
    (let s := withScript codesV8 [.popAll]
     s.phase = .idle ∧ s.hostScript = .popAll :: [] ∧ s.obuf = []) ∧
    (let s := withScript sessionAB [.busRd 0x18 4]
     s.phase = .idle ∧ s.hostScript = .busRd 0x18 4 :: [] ∧ (4 = 4 ∧ 0x18 % 4 = 0)) ∧
    (let s := withScript sessionAB [.busRd 0x19 4]
     s.phase = .idle ∧ s.hostScript = .busRd 0x19 4 :: [] ∧ ¬ (4 = 4 ∧ 0x19 % 4 = 0)) ∧
    (let s := withScript sessionAB [.busWr 0x10 4 0x41]
     s.phase = .idle ∧ s.hostScript = .busWr 0x10 4 0x41 :: [] ∧ (4 = 4 ∧ 0x10 % 4 = 0)) ∧
    (let s := withScript sessionAB [.busWr 0x10 2 0x41]
     s.phase = .idle ∧ s.hostScript = .busWr 0x10 2 0x41 :: [] ∧ ¬ (2 = 4 ∧ 0x10 % 4 = 0)) ∧
    (codesV8.phase = .idle ∧ codesV8.hostScript = []) := by decide +kernel

theorem witness_BusyAccessesAreLost :
    ∀ a ∈ [HostAction.rd 0x06, .wr 0x04 0x41, .wait, .popAll, .busRd 0x18 4, .busWr 0x10 4 0x41],
      let s := withScript (waiting codesV8 5 1) [a]
      s.phase = .busy ∧ s.busyLeft = 0 + 1 ∧ s.hostScript = a :: [] ∧ IsAccess a := by
  have access : ∀ a ∈ [HostAction.rd 0x06, .wr 0x04 0x41, .wait, .popAll, .busRd 0x18 4, .busWr 0x10 4 0x41],
      IsAccess a := by simp [IsAccess, HostAction.wellFormed, wholeRegister]
  exact fun a ha => ⟨rfl, rfl, rfl, access a ha⟩

theorem witness_PendingCommandCompletes :
    let s := withScript (waiting tableV6 4 2) [.rd 0x01, .wr 0x04 0x41, .wait]
    s.phase = .busy ∧ s.leavesOutOfRange = false ∧ ∀ a ∈ s.hostScript, IsAccess a :=
  ⟨by decide +kernel, by decide +kernel, by
    show ∀ a ∈ [HostAction.rd 0x01, .wr 0x04 0x41, .wait], IsAccess a
    simp [IsAccess, HostAction.wellFormed]⟩

theorem witness_BusAccessIsAWholeRegister :
    State.reset.phase = .idle ∧ (4 = 4 ∧ 0x64 % 4 = 0) ∧ ¬ (4 = 4 ∧ 0x65 % 4 = 0) ∧ ¬ (2 = 4 ∧ 0x64 % 4 = 0) := by
  decide +kernel

theorem witness_IssueKeepsTheWordAndClearsTheRecord :
    (errDone codesV8 7 0x13 0).phase = .idle ∧ (pending codesV8 5).phase = .busy := by decide +kernel

theorem witness_PushAppendsOrMarksOverflow :
    (let s := { withInput [0x41] with ibufCap := 2 }
     s.phase = .idle ∧ s.ibuf.length < s.ibufCap) ∧
    (let s := { withInput [0x41, 0x42] with ibufCap := 2 }
     s.phase = .idle ∧ s.ibufCap ≤ s.ibuf.length) := by decide +kernel

theorem witness_SelWriteSetsOnlySel : codesV8.phase = .idle := by decide +kernel

theorem witness_PopTakesTheFirstElement :
    (sessionAB.phase = .idle ∧ sessionAB.obuf = 0x05 :: []) ∧
    (codesV8.phase = .idle ∧ codesV8.obuf = []) := by decide +kernel

theorem witness_OtherAccessesDoNothing :
    sessionAB.phase = .idle ∧ (0x06 ≠ 0x00 ∧ 0x06 ≠ 0x04 ∧ 0x06 ≠ 0x08) ∧ 0x1A ≤ 0x1A := by decide +kernel

theorem witness_OnlyThePopReadHasAnEffect : sessionAB.phase = .idle ∧ 0x05 ≠ 0x06 := by decide +kernel

theorem witness_StatusFields : (errDone codesV8 8 0 2).phase = .idle := by decide +kernel

theorem witness_CountRegisters :
    (let s := { sessionAB with sel := 0x7F }
     s.phase = .idle ∧ s.sel.toNat = (0x7F : Sym).toNat) ∧
    (let s := { sessionAB with sel := 0x80 }
     s.phase = .idle ∧ 128 ≤ s.sel.toNat) := by decide +kernel

theorem witness_FtWindowShowsTheSelectedEntry :
    (let s := { tableV6 with sel := 3 }
     s.phase = .idle ∧ s.ftValid = true ∧ s.ftList[s.sel.toNat]? = some ⟨0x41, 0x3FD4000000000000⟩) ∧
    (let s := { tableV6 with sel := 4 }
     s.phase = .idle ∧ ¬ (s.ftValid = true ∧ s.sel.toNat < s.ftLen.toNat)) := by decide +kernel

theorem witness_NodeWindowShowsTheSelectedNode :
    (sessionAB.phase = .idle ∧ sessionAB.treeValid = true ∧ sessionAB.sel.toNat < sessionAB.nodeCnt.toNat ∧
      sessionAB.TreeTable ∧ (sessionAB.nodeAt sessionAB.sel).leaf = true) ∧
    (let s := { sessionAB with sel := 2 }
     s.phase = .idle ∧ s.treeValid = true ∧ s.sel.toNat < s.nodeCnt.toNat ∧ (s.nodeAt s.sel).leaf = false) ∧
    (let s := { sessionAB with sel := 3 }
     s.phase = .idle ∧ ¬ (s.treeValid = true ∧ s.sel.toNat < s.nodeCnt.toNat)) :=
  ⟨⟨by decide +kernel, by decide +kernel, by decide +kernel, sessionAB_treeTable, by decide +kernel⟩,
    by decide +kernel, by decide +kernel⟩

theorem witness_CtWindowShowsTheSelectedCode :
    (let s := { codesV8 with sel := 0x41 }
     s.phase = .idle ∧ s.ctValid = true ∧ s.sel.toNat = (0x41 : Sym).toNat ∧ (s.ctAt 0x41).valid = true) ∧
    (let s := { codesV8 with sel := 0x45 }
     s.phase = .idle ∧ ∀ x : Sym, s.ctValid = true → s.sel.toNat = x.toNat → (s.ctAt x).valid = false) ∧
    (let s := { codesV8 with sel := 0xC8 }
     s.phase = .idle ∧ ∀ x : Sym, s.ctValid = true → s.sel.toNat = x.toNat → (s.ctAt x).valid = false) ∧
    sessionAB.CodeTable :=
  ⟨by decide +kernel, by decide +kernel, by decide +kernel, sessionAB_codeTable⟩

theorem witness_PlainRegistersShowTheirElement : sessionAB.phase = .idle ∧ sessionAB.Inv :=
  ⟨by decide +kernel, sessionAB_inv⟩

theorem witness_ResetAbandonsThePendingCommand :
    (let s := withScript sessionAB [.rst, .wait]
     s.hostScript = .rst :: [.wait] ∧ (s.phase = .idle ∨ s.busyLeft = 0 + 1)) ∧
    (let s := withScript (waiting sessionAB 3 1) [.rst]
     s.hostScript = .rst :: [] ∧ s.phase = .busy ∧ s.busyLeft = 0 + 1) := by decide +kernel

theorem witness_ResetSatisfiesTheInvariant :
    (1 ≤ 1 ∧ 1 ≤ 2 ^ 32 - 1) ∧ (1 ≤ 2 ^ 32 - 1 ∧ 2 ^ 32 - 1 ≤ 2 ^ 32 - 1) := by decide

theorem witness_step : ∃ t, step sessionAB = .next t := ⟨sessionAB, rfl⟩

theorem witness_FlagInvariantIsKept : sessionAB.FlagInv ∧ ∃ t, step sessionAB = .next t :=
  ⟨sessionAB_flags, witness_step⟩

theorem witness_BufferBoundsAreKept :
    (sessionAB.ParamsOk ∧ sessionAB.BufferInv) ∧ ∃ t, step sessionAB = .next t :=
  ⟨⟨sessionAB_params, sessionAB_buffers⟩, witness_step⟩

theorem witness_GatedElementsStayCleared : sessionAB.GateInv ∧ ∃ t, step sessionAB = .next t :=
  ⟨sessionAB_gates, witness_step⟩

theorem witness_WholeInvariantIsKept : sessionAB.Inv ∧ ∃ t, step sessionAB = .next t :=
  ⟨sessionAB_inv, witness_step⟩

theorem witness_WholeInvariantIsKept_refusal :
    step (withScript sessionAB [.busRd 2 4]) = .refused .notWholeRegister := rfl

theorem witness_WDivIsTheNearestQuotient :
    (1 ≤ 1 ∧ 1 ≤ 2 ^ 32 - 1 ∧ 2 ^ 32 - 1 ≤ 2 ^ 32 - 1) ∧ (1 < 2 ^ 32 - 1 ∧ 2 ^ 32 - 1 ≤ 2 ^ 32 - 1) := by decide

theorem witness_WAddIsTheNearestSum :
    weightFinite 0x3FF0000000000000 = true ∧ weightFinite 0x3FC8000000000000 = true ∧
    weightValue 0x3FF0000000000000 + weightValue 0x3FC8000000000000 ≤ weightValue 0x7FEFFFFFFFFFFFFF :=
  ⟨by decide, by decide, by
    unfold weightValue
    rw [show weightSig 0x3FF0000000000000 = 2 ^ 52 by decide, show weightScale 0x3FF0000000000000 = 1023 by decide,
      show weightSig 0x3FC8000000000000 = 3 * 2 ^ 51 by decide, show weightScale 0x3FC8000000000000 = 1020 by decide,
      show weightSig 0x7FEFFFFFFFFFFFFF = 2 ^ 53 - 1 by decide, show weightScale 0x7FEFFFFFFFFFFFFF = 2046 by decide]
    have mono : ∀ k : ℕ, 3 ≤ k → (8 : ℚ) ≤ 2 ^ k := fun k hk => by
      have h : (2 : ℚ) ^ 3 ≤ 2 ^ k := pow_le_pow_right₀ one_le_two hk
      linarith
    have small : (8 : ℚ) ≤ 2 ^ 1026 := mono 1026 (by norm_num)
    have pos : (0 : ℚ) < 2 ^ 1020 := by positivity
    rw [← add_div, show (2 : ℚ) ^ 1023 = 2 ^ 1020 * 8 by rw [show (8 : ℚ) = 2 ^ 3 by norm_num, ← pow_add],
      show (2 : ℚ) ^ 2046 = 2 ^ 1020 * 2 ^ 1026 by rw [← pow_add]]
    refine div_le_div_of_nonneg_right ?_ (by positivity)
    push_cast
    generalize (2 : ℚ) ^ 1020 = x at pos ⊢
    generalize (2 : ℚ) ^ 1026 = y at small ⊢
    nlinarith [mul_le_mul_of_nonneg_left small pos.le]⟩

theorem witness_FreqChecksItsInput :
    (after (exec .freq (withInput []))).err = true ∧
    { withInput [0x41] with iovf := true }.iovf = true ∧
    ((withInput []).iovf = false ∧ (withInput []).ibuf = []) ∧
    (let s := { State.reset with ibuf := elems [0x7F] ++ [(⟨true, 0x41⟩ : Elem)] }
     s.iovf = false ∧ s.ibuf = elems [0x7F] ++ (⟨true, 0x41⟩ : Elem) :: [] ∧ ∀ p ∈ elems [0x7F], IsSymbol p) ∧
    (let s := withInput [0x7F, 0x80]
     s.iovf = false ∧ s.ibuf = elems [0x7F] ++ (⟨false, 0x80⟩ : Elem) :: [] ∧ (∀ p ∈ elems [0x7F], IsSymbol p) ∧
       128 ≤ (0x80 : Byte).toNat) ∧
    (let s := withInput [0x00, 0x7F]
     s.iovf = false ∧ s.ibuf ≠ [] ∧ ∀ e ∈ s.ibuf, IsSymbol e) := by
  simp only [IsSymbol]; decide +kernel

theorem witness_FreqCountsEverySymbol :
    let s := { withInput [0x00, 0x7F] with ibufCap := 2 }
    s.iovf = false ∧ s.ibuf ≠ [] ∧ (∀ e ∈ s.ibuf, IsSymbol e) ∧ s.ibuf.length ≤ s.ibufCap ∧
      s.ibufCap ≤ 2 ^ 32 - 1 := by
  simp only [IsSymbol]; decide +kernel

theorem witness_FreqBuildsTheSortedTable :
    let s := withInput [0x41, 0x42]
    (s.iovf = false ∧ s.ibuf ≠ [] ∧ (∀ e ∈ s.ibuf, IsSymbol e) ∧ s.ibuf.length ≤ 2 ^ 32 - 1) ∧
    (after (exec .freq s)).synth = false := by
  simp only [IsSymbol]; decide +kernel

theorem witness_FreqInjectsTheSyntheticEntry :
    (let s := withInput [0x7F, 0x7F]
     s.iovf = false ∧ (∃ e ∈ s.ibuf, symOf e = 0x7F) ∧ (∀ e ∈ s.ibuf, IsSymbol e) ∧
       s.ibuf.length ≤ 2 ^ 32 - 1 ∧ ∀ e ∈ s.ibuf, symOf e = 0x7F) ∧
    (let s := withInput [0x7F, 0x00]
     s.iovf = false ∧ (∃ e ∈ s.ibuf, symOf e = 0x7F) ∧ (∀ e ∈ s.ibuf, IsSymbol e) ∧
       s.ibuf.length ≤ 2 ^ 32 - 1 ∧ ∃ e ∈ s.ibuf, symOf e ≠ 0x7F) := by
  simp only [IsSymbol]; decide +kernel

theorem witness_FreqIgnoresTheOrderOfTheText :
    (withInput [0x41, 0x42]).iovf = false ∧ (withInput [0x42, 0x41]).iovf = false ∧
    (withInput [0x41, 0x42]).ibuf.Perm (withInput [0x42, 0x41]).ibuf ∧
    exec .freq (withInput [0x41, 0x42]) = .next (after (exec .freq (withInput [0x41, 0x42]))) ∧
    exec .freq (withInput [0x42, 0x41]) = .next (after (exec .freq (withInput [0x42, 0x41]))) ∧
    (after (exec .freq (withInput [0x41, 0x42]))).err = false :=
  ⟨by decide +kernel, by decide +kernel, by decide +kernel, next_after (by decide +kernel),
    next_after (by decide +kernel), by decide +kernel⟩

theorem witness_BuildNeedsATable :
    (withInput [0x41]).ftValid = false ∧
    (tableV6.ftValid = true ∧ 2 ≤ tableV6.ftLen.toNat ∧ tableV6.ftLen.toNat ≤ 128) := by decide +kernel

theorem witness_BuildMakesOneBinaryTree :
    tableV6.ftValid = true ∧ 2 ≤ tableV6.ftLen.toNat ∧ tableV6.ftLen.toNat ≤ 128 := by decide +kernel

theorem witness_BuildMergesTheQueueFronts :
    (tableV6.ftValid = true ∧ 2 ≤ tableV6.ftLen.toNat ∧ tableV6.ftLen.toNat ≤ 128) ∧
    (0 + 1 < tableV6.ftLen.toNat ∧ 2 + 1 < tableV6.ftLen.toNat) := by decide +kernel

theorem witness_BuildRefusesFewerThanTwoLeaves :
    ∀ n ∈ [0, 1, 129, 255], let s := { tableV6 with ftLen := n }
      s.ftValid = true ∧ (s.ftLen.toNat < 2 ∨ 128 < s.ftLen.toNat) := by decide +kernel

theorem witness_BuildDependsOnTheTableAlone :
    let s := { withInput [] with ftValid := true, ftLen := 4, ft := tableV6.ft }
    tableV6.ftValid = true ∧ s.ftValid = true ∧ tableV6.ftLen = s.ftLen ∧ tableV6.ftList = s.ftList ∧
    exec .build tableV6 = .next (after (exec .build tableV6)) ∧
    exec .build s = .next (after (exec .build s)) :=
  ⟨by decide +kernel, by decide +kernel, by decide +kernel, by decide +kernel, next_after (by decide +kernel),
    next_after (by decide +kernel)⟩

theorem witness_CgenNeedsATree : tableV6.treeValid = false := by decide +kernel

theorem witness_CgenWritesThePaths :
    sessionAB.treeValid = true ∧ sessionAB.TreeTable ∧ 2 ≤ sessionAB.ftLen.toNat ∧ sessionAB.ftLen.toNat ≤ 128 ∧
    (sessionAB.ftList.map FtEntry.sym).Nodup :=
  ⟨by decide +kernel, sessionAB_treeTable, by decide +kernel, by decide +kernel, by decide +kernel⟩

theorem witness_PackChecksItsInput :
    { withInput [0x30] with iovf := true }.iovf = true ∧
    (let s := { State.reset with ibuf := elems [0x30] ++ [(⟨true, 0x31⟩ : Elem)] }
     s.iovf = false ∧ s.ibuf = elems [0x30] ++ (⟨true, 0x31⟩ : Elem) :: [] ∧ (∀ p ∈ elems [0x30], IsBitChar p) ∧
       ¬ IsBitChar ⟨true, 0x31⟩) ∧
    (let s := withInput [0x31, 0x32]
     s.iovf = false ∧ s.ibuf = elems [0x31] ++ (⟨false, 0x32⟩ : Elem) :: [] ∧ (∀ p ∈ elems [0x31], IsBitChar p) ∧
       ¬ IsBitChar ⟨false, 0x32⟩) ∧
    (let s := { withInput (List.replicate 8 0x31) with obufCap := 1 }
     s.iovf = false ∧ (∀ e ∈ s.ibuf, IsBitChar e) ∧ s.obufCap < s.ibuf.length / 8 + 1) := by
  simp only [IsBitChar]; decide +kernel

theorem witness_PackOutputsThePaddedBits :
    let s := { withInput (List.replicate 8 0x31) with obufCap := 2 }
    s.iovf = false ∧ (∀ e ∈ s.ibuf, IsBitChar e) ∧ s.ibuf.length / 8 + 1 ≤ s.obufCap := by
  simp only [IsBitChar]; decide +kernel

theorem witness_UnpackOutputsTheBitsAfterTheMarker :
    { withInput [0x30] with iovf := true }.iovf = true ∧
    (let s := { State.reset with ibuf := elems [0xFF] ++ [(⟨true, 0x00⟩ : Elem)] }
     s.iovf = false ∧ s.ibuf = elems [0xFF] ++ (⟨true, 0x00⟩ : Elem) :: [] ∧ ∀ p ∈ elems [0xFF], p.tag = false) ∧
    (let s := { withInput [0xE0] with obufCap := 7 }
     s.iovf = false ∧ (∀ e ∈ s.ibuf, e.tag = false) ∧ [true, true, false, false, false, false, false].length ≤ s.obufCap) ∧
    (let s := { withInput [0x00, 0xA5] with obufCap := 7 }
     s.iovf = false ∧ (∀ e ∈ s.ibuf, e.tag = false) ∧ s.obufCap < ((s.ibuf.map Elem.data).flatMap bits8 |>.drop 8).length) := by
  decide +kernel

theorem witness_UnpackedAs_marker :
    UnpackedAs ((withInput [0xE0]).ibuf.map Elem.data) [true, true, false, false, false, false, false] :=
  Or.inl ⟨0, by decide, by decide +kernel⟩

theorem witness_UnpackedAs_no_marker :
    UnpackedAs ((withInput [0x00, 0xA5]).ibuf.map Elem.data)
      (((withInput [0x00, 0xA5]).ibuf.map Elem.data).flatMap bits8 |>.drop 8) :=
  Or.inr ⟨by decide +kernel, rfl⟩

theorem witness_UnpackInvertsPack :
    let s := withInput [0x30, 0x31, 0x31]
    s.iovf = false ∧ exec .pack s = .next (after (exec .pack s)) ∧ (after (exec .pack s)).err = false ∧
    s.ibuf.length ≤ s.obufCap :=
  ⟨by decide +kernel, next_after (by decide +kernel), by decide +kernel, by decide +kernel⟩

theorem witness_PackedSequencesStartWithANonzeroByte :
    packBits [true] = packBits [true] ∧
    (7 < 8 ∧ ([0x01, 0x55] : List Byte).flatMap bits8 =
      List.replicate 7 false ++ true :: [false, true, false, true, false, true, false, true]) ∧
    (0 < 8 ∧ ([0x80] : List Byte).flatMap bits8 = List.replicate 0 false ++ true :: List.replicate 7 false) := by
  decide +kernel

theorem witness_EncodeChecksItsInput :
    treeV7.ctValid = false ∧
    (codesV8.ctValid = true ∧ { codesV8 with iovf := true }.iovf = true) ∧
    (let s := { codesV8 with ibuf := [] }
     s.ctValid = true ∧ s.iovf = false ∧ s.ibuf = []) ∧
    (∀ e ∈ [⟨true, 0x41⟩, ⟨false, 0x80⟩, ⟨false, 0x45⟩],
      let s := { codesV8 with ibuf := elems [0x41] ++ [e] }
      s.ctValid = true ∧ s.iovf = false ∧ s.ibuf = elems [0x41] ++ e :: [] ∧
      (∀ p ∈ elems [0x41], IsSymbol p ∧ (s.ctAt (symOf p)).valid = true) ∧
      ¬ (IsSymbol e ∧ (s.ctAt (symOf e)).valid = true)) ∧
    (let s := { codesV8 with ibuf := elems [0x41, 0x42, 0x43, 0x44], obufCap := 1 }
     s.ctValid = true ∧ s.iovf = false ∧ s.ibuf ≠ [] ∧
     (∀ e ∈ s.ibuf, IsSymbol e ∧ (s.ctAt (symOf e)).valid = true) ∧
     s.obufCap < (s.ibuf.flatMap fun e => (s.ctAt (symOf e)).bits).length / 8 + 1) := by
  simp only [IsSymbol]; decide +kernel

theorem witness_EncodeOutputsTheCodesInOrder :
    let s := { codesV8 with ibuf := elems [0x41, 0x42, 0x43, 0x44], obufCap := 2 }
    s.ctValid = true ∧ s.iovf = false ∧ s.ibuf ≠ [] ∧
    (∀ e ∈ s.ibuf, IsSymbol e ∧ (s.ctAt (symOf e)).valid = true) ∧
    (s.ibuf.flatMap fun e => (s.ctAt (symOf e)).bits).length / 8 + 1 ≤ s.obufCap := by
  simp only [IsSymbol]; decide +kernel

theorem witness_DecodeChecksItsInput :
    tableV6.treeValid = false ∧
    (treeV7.treeValid = true ∧ { treeV7 with iovf := true }.iovf = true) ∧
    (let s := { treeV7 with ibuf := elems [0xFF] ++ [(⟨true, 0x00⟩ : Elem)] }
     s.treeValid = true ∧ s.iovf = false ∧ s.ibuf = elems [0xFF] ++ (⟨true, 0x00⟩ : Elem) :: [] ∧
       ∀ p ∈ elems [0xFF], p.tag = false) := by decide +kernel

/-- V16 in the tree of V7: the code of A, then a `0` that leads to node 4. -/
theorem witness_DecodeFollowsThePaths :
    let s := { treeV7 with ibuf := elems [0x0E] }
    let text : List (Sym × Bits) := [(0x41, [true, true])]
    s.treeValid = true ∧ s.iovf = false ∧ (∀ e ∈ s.ibuf, e.tag = false) ∧ (s.nodeAt s.root).leaf = false ∧
    (∀ p ∈ text, s.IsCode p.1 p.2) ∧ s.LeadsTo s.root [false] 4 ∧ (s.nodeAt 4).leaf = false ∧
    UnpackedAs (s.ibuf.map Elem.data) (text.flatMap Prod.snd ++ [false]) ∧ text.length ≤ s.obufCap :=
  ⟨by decide +kernel, by decide +kernel, by decide +kernel, by decide +kernel,
    List.forall_mem_singleton.2
      ⟨3, ⟨by decide +kernel, by decide +kernel, by unfold State.LeadsTo; decide +kernel⟩, by decide +kernel,
        by decide +kernel⟩,
    ⟨by decide +kernel, by unfold State.LeadsTo; decide +kernel⟩, by decide +kernel,
    Or.inl ⟨4, by decide, by decide +kernel⟩, by decide +kernel⟩

/-- The same bits with no code unfinished and, with one more symbol than OBUF holds, the other clause. -/
theorem witness_DecodeFollowsThePaths_capacity :
    let s := { sessionAB with ibuf := elems [0x05], obufCap := 1 }
    let text : List (Sym × Bits) := [(0x41, [false]), (0x42, [true])]
    s.treeValid = true ∧ s.iovf = false ∧ (∀ e ∈ s.ibuf, e.tag = false) ∧ (s.nodeAt s.root).leaf = false ∧
    (∀ p ∈ text, s.IsCode p.1 p.2) ∧ s.LeadsTo s.root [] s.root ∧
    UnpackedAs (s.ibuf.map Elem.data) (text.flatMap Prod.snd ++ []) ∧ s.obufCap < text.length :=
  ⟨by decide +kernel, by decide +kernel, by decide +kernel, by decide +kernel,
    List.forall_mem_cons.2
      ⟨⟨0, ⟨by decide +kernel, by unfold State.LeadsTo; decide +kernel⟩, by decide +kernel, by decide +kernel⟩,
        List.forall_mem_singleton.2
          ⟨1, ⟨by decide +kernel, by unfold State.LeadsTo; decide +kernel⟩, by decide +kernel, by decide +kernel⟩⟩,
    rfl, Or.inl ⟨5, by decide, by decide +kernel⟩, by decide +kernel⟩

theorem witness_DecodeCompletesOnEveryBitstring :
    sessionAB.treeValid = true ∧ sessionAB.TreeTable ∧ 2 ≤ sessionAB.ftLen.toNat ∧ sessionAB.ftLen.toNat ≤ 128 ∧
    sessionAB.iovf = false ∧ (∀ e ∈ sessionAB.ibuf, e.tag = false) :=
  ⟨by decide +kernel, sessionAB_treeTable, by decide +kernel, by decide +kernel, by decide +kernel,
    by decide +kernel⟩

theorem witness_CompressIsTheFourCommands :
    (exec .freq (withInput [0x80]) = .next (after (exec .freq (withInput [0x80]))) ∧
      (after (exec .freq (withInput [0x80]))).err = true) ∧
    (exec .freq (withInput [0x5A]) = .next (after (exec .freq (withInput [0x5A]))) ∧
      (after (exec .freq (withInput [0x5A]))).err = false ∧ (withInput [0x5A]).ibuf.length ≤ 2 ^ 32 - 1) :=
  ⟨⟨next_after (by decide +kernel), by decide +kernel⟩,
    ⟨next_after (by decide +kernel), by decide +kernel, by decide +kernel⟩⟩

theorem witness_CompressEncodesTheText :
    let s := withInput [0x5A]
    s.iovf = false ∧ s.ibuf ≠ [] ∧ (∀ e ∈ s.ibuf, IsSymbol e) ∧ s.ibuf.length ≤ 2 ^ 32 - 1 ∧
    (127 * s.ibuf.length) / 8 + 1 ≤ s.obufCap := by
  simp only [IsSymbol]; decide +kernel

/-- FREQ, BUILD, CGEN and ENCODE on a state, one after the other. -/
def fourCommands (s : State) : State :=
  after (exec .encode (after (exec .cgen (after (exec .build (after (exec .freq s)))))))

theorem witness_DecodeRecoversTheText :
    let s := withInput [0x5A]
    (s.iovf = false ∧ s.ibuf ≠ [] ∧ (∀ e ∈ s.ibuf, e.tag = false ∧ e.data.toNat < 128) ∧
      s.ibuf.length ≤ 2 ^ 32 - 1 ∧ s.ibuf.length ≤ s.obufCap) ∧
    (EncodedFrom s (after (exec .compress s)) ∧ (after (exec .compress s)).err = false) ∧
    (EncodedFrom s (fourCommands s) ∧ (fourCommands s).err = false) :=
  ⟨by decide +kernel,
    ⟨Or.inl (next_after (by decide +kernel)), by decide +kernel⟩,
    ⟨Or.inr ⟨_, _, _, next_after (by decide +kernel), next_after (by decide +kernel),
      next_after (by decide +kernel), next_after (by decide +kernel)⟩, by decide +kernel⟩⟩

theorem witness_FlagsAndBuffersByOutcome :
    sessionAB.FlagInv ∧ sessionAB.ibuf.length ≤ 2 ^ 32 - 1 ∧
    ∀ i ∈ [Instr.clr, .iclr, .freq, .build, .cgen, .encode, .decode, .pack, .unpack, .compress],
      exec i sessionAB = .next (after (exec i sessionAB)) :=
  ⟨sessionAB_flags, by decide +kernel, fun i hi => next_after ((by decide +kernel :
    ∀ i ∈ [Instr.clr, .iclr, .freq, .build, .cgen, .encode, .decode, .pack, .unpack, .compress],
      isNext (exec i sessionAB) = true) i hi)⟩

end Sys2Proof.Tests
end

section
/-! Rounding to binary64 (00_scope.md R12 to R14). A pattern's magnitude grows with the pattern, so a pattern is the
nearest one to `x` as soon as `x` is on its side of the midpoints to its two neighbours; and a significand of 53 bits
that is the nearest integer to the scaled `x` gives such a pattern. -/

namespace Sys2Proof.Proofs
open Sys2Proof Sys2Proof.Machine Sys2Proof.Claims

/-! ## The magnitudes of patterns -/

/-- The magnitude of the pattern `b`, in units of 2^-1075 (R12). -/
def magnitude (b : ℕ) : ℕ :=
  (if b / 2 ^ 52 = 0 then b % 2 ^ 52 else 2 ^ 52 + b % 2 ^ 52) * 2 ^ max 1 (b / 2 ^ 52)

theorem magnitude_of_fields {d f : ℕ} (hf : f < 2 ^ 52) :
    magnitude (d * 2 ^ 52 + f) = (if d = 0 then f else 2 ^ 52 + f) * 2 ^ max 1 d := by
  have hd : (d * 2 ^ 52 + f) / 2 ^ 52 = d := by omega
  have hm : (d * 2 ^ 52 + f) % 2 ^ 52 = f := by omega
  rw [magnitude, hd, hm]

/-- Between a pattern and the next lies one unit at the pattern's scale, also where the exponent changes. -/
theorem magnitude_succ (b : ℕ) : magnitude (b + 1) = magnitude b + 2 ^ max 1 (b / 2 ^ 52) := by
  obtain ⟨d, f, hf, rfl⟩ : ∃ d f, f < 2 ^ 52 ∧ b = d * 2 ^ 52 + f :=
    ⟨b / 2 ^ 52, b % 2 ^ 52, Nat.mod_lt _ (by norm_num), by omega⟩
  have hd : (d * 2 ^ 52 + f) / 2 ^ 52 = d := by omega
  rw [hd, magnitude_of_fields hf]
  by_cases carry : f + 1 < 2 ^ 52
  · rw [add_assoc, magnitude_of_fields carry]
    split <;> ring
  · have hcarry : d * 2 ^ 52 + f + 1 = (d + 1) * 2 ^ 52 + 0 := by omega
    obtain rfl : f = 2 ^ 52 - 1 := by omega
    rw [hcarry, magnitude_of_fields (by norm_num)]
    rcases d with _ | d
    · norm_num
    · rw [max_eq_right (by omega), max_eq_right (by omega), pow_succ 2 (d + 1)]
      simp only [Nat.succ_ne_zero, if_false]
      omega

/-- A significand of 53 bits and a scale, packed; `2^53` carries into the exponent. -/
theorem magnitude_pack {m e : ℕ} (he : 1 ≤ e) (lo : 2 ^ 52 ≤ m) (hi : m ≤ 2 ^ 53) :
    magnitude ((e - 1) * 2 ^ 52 + m) = m * 2 ^ e := by
  rcases hi.lt_or_eq with hlt | rfl
  · have hfields : (e - 1) * 2 ^ 52 + m = e * 2 ^ 52 + (m - 2 ^ 52) := by omega
    rw [hfields, magnitude_of_fields (by omega), if_neg (by omega), max_eq_right he, Nat.add_sub_cancel' lo]
  · have hfields : (e - 1) * 2 ^ 52 + 2 ^ 53 = (e + 1) * 2 ^ 52 + 0 := by omega
    rw [hfields, magnitude_of_fields (by norm_num), if_neg (by omega), max_eq_right (by omega)]
    ring

/-- The number the pattern `b` stands for (R12). -/
def patternValue (b : ℕ) : ℚ := magnitude b / 2 ^ 1075

/-- One unit in the last place at the scale `e` (R12). -/
def ulp (e : ℕ) : ℚ := 2 ^ e / 2 ^ 1075

theorem ulp_pos (e : ℕ) : 0 < ulp e := div_pos (pow_pos two_pos e) (pow_pos two_pos 1075)

theorem ulp_mono : Monotone ulp := fun _ _ h =>
  div_le_div_of_nonneg_right (pow_le_pow_right₀ one_le_two h) (pow_pos two_pos 1075).le

theorem weightValue_eq_patternValue (w : Weight) : weightValue w = patternValue w.toNat := by
  unfold weightValue patternValue magnitude weightSig weightScale
  push_cast
  rfl

theorem patternValue_of_magnitude {b m e : ℕ} (h : magnitude b = m * 2 ^ e) : patternValue b = m * ulp e := by
  rw [patternValue, h, ulp, Nat.cast_mul, Nat.cast_pow, Nat.cast_ofNat, mul_div_assoc]

theorem patternValue_succ (b : ℕ) : patternValue (b + 1) = patternValue b + ulp (max 1 (b / 2 ^ 52)) := by
  rw [patternValue, magnitude_succ, patternValue, ulp, Nat.cast_add, Nat.cast_pow, Nat.cast_ofNat, add_div]

theorem patternValue_strictMono : StrictMono patternValue :=
  strictMono_nat_of_lt_succ fun b => by
    rw [patternValue_succ]
    exact lt_add_of_pos_right _ (ulp_pos _)

theorem weightValue_lt_iff (a b : Weight) : weightValue a < weightValue b ↔ a.toNat < b.toNat := by
  rw [weightValue_eq_patternValue, weightValue_eq_patternValue, patternValue_strictMono.lt_iff_lt]

theorem wLe_of_finite {a b : Weight} (ha : weightFinite a = true) (hb : weightFinite b = true) :
    wLe a b = decide (a.toNat ≤ b.toNat) := by
  simp [wLe, ha, hb, BitVec.le_def]

/-! ## The nearest pattern, by its neighbours -/

/-- Of two numbers, the one on `x`'s side of their midpoint is the nearer. -/
theorem abs_sub_lt_or_midpoint_of_lt {a b x : ℚ} (hab : a < b) (hx : 2 * x ≤ a + b) :
    |a - x| < |b - x| ∨ |a - x| = |b - x| ∧ 2 * x = a + b := by
  have hb : |b - x| = b - x := abs_of_pos (by linarith)
  rcases hx.lt_or_eq with hlt | heq
  · exact .inl (by rw [hb, abs_lt]; constructor <;> linarith)
  · have ha : |a - x| = x - a := by rw [abs_sub_comm]; exact abs_of_pos (by linarith)
    exact .inr ⟨by rw [ha, hb]; linarith, heq⟩

/-- The same from the other side. -/
theorem abs_sub_lt_or_midpoint_of_gt {a b x : ℚ} (hba : b < a) (hx : a + b ≤ 2 * x) :
    |a - x| < |b - x| ∨ |a - x| = |b - x| ∧ 2 * x = a + b := by
  have mirrored := abs_sub_lt_or_midpoint_of_lt (neg_lt_neg hba) (x := -x) (by linarith)
  rw [neg_sub_neg, neg_sub_neg, abs_sub_comm x, abs_sub_comm x] at mirrored
  exact mirrored.imp_right fun ⟨h, mid⟩ => ⟨h, by linarith⟩

/-- The pattern `w` is the nearest to `x` when `x` lies between the midpoints to the next pattern and to the one
before, and on such a midpoint only where the fraction is even. -/
theorem isNearest_of_neighbours {w : Weight} {x : ℚ} (hw : weightFinite w = true)
    (above : 2 * x ≤ weightValue w + patternValue (w.toNat + 1))
    (aboveTie : 2 * x = weightValue w + patternValue (w.toNat + 1) → w.getLsbD 0 = false)
    (below : ∀ b, b + 1 = w.toNat → weightValue w + patternValue b ≤ 2 * x)
    (belowTie : ∀ b, b + 1 = w.toNat → 2 * x = weightValue w + patternValue b → w.getLsbD 0 = false) :
    IsNearest w x := by
  refine ⟨hw, fun y _ hne => ?_⟩
  rcases lt_or_gt_of_ne (mt BitVec.eq_of_toNat_eq hne) with hlt | hgt
  · obtain ⟨b, hb⟩ : ∃ b, b + 1 = w.toNat := ⟨w.toNat - 1, by omega⟩
    have hyb : weightValue y ≤ patternValue b :=
      weightValue_eq_patternValue y ▸ patternValue_strictMono.monotone (by omega)
    have hbelow := below b hb
    exact (abs_sub_lt_or_midpoint_of_gt ((weightValue_lt_iff y w).2 hlt) (by linarith)).imp_right
      fun ⟨h, mid⟩ => ⟨h, belowTie b hb (by linarith)⟩
  · have hyb : patternValue (w.toNat + 1) ≤ weightValue y :=
      weightValue_eq_patternValue y ▸ patternValue_strictMono.monotone hgt
    exact (abs_sub_lt_or_midpoint_of_lt ((weightValue_lt_iff w y).2 hgt) (by linarith)).imp_right
      fun ⟨h, mid⟩ => ⟨h, aboveTie (by linarith)⟩

/-! ## Rounding a significand -/

/-- `m` is the integer nearest to `z`, ties to even (R13). -/
def RoundsTo (z : ℚ) (m : ℕ) : Prop := |z - m| ≤ 1 / 2 ∧ (|z - m| = 1 / 2 → Even m)

/-- `m` is the significand of 53 bits that `x` rounds to at the scale `e`; rounding up may carry to `2^53`. -/
structure RoundsAt (x : ℚ) (m e : ℕ) : Prop where
  scale_pos : 1 ≤ e
  hidden_le : 2 ^ 52 ≤ x / ulp e
  sig_le : m ≤ 2 ^ 53
  rounds : RoundsTo (x / ulp e) m
  finite : (e - 1) * 2 ^ 52 + m < infinityBits

section
variable {x : ℚ} {m e : ℕ}

theorem RoundsAt.hidden_le_sig (h : RoundsAt x m e) : 2 ^ 52 ≤ m := by
  have hz := h.hidden_le
  have hm := (abs_le.1 h.rounds.1).2
  have hlt : ((2 ^ 52 : ℕ) : ℚ) < (m + 1 : ℕ) := by push_cast; linarith
  exact Nat.lt_succ_iff.1 (by exact_mod_cast hlt)

theorem RoundsAt.toNat_packWeight (h : RoundsAt x m e) :
    (packWeight m e).toNat = (e - 1) * 2 ^ 52 + m := by
  have hfin := h.finite
  have hinf : infinityBits < 2 ^ 64 := by decide
  simp only [packWeight, hfin, if_true, BitVec.toNat_ofNat]
  exact Nat.mod_eq_of_lt (hfin.trans hinf)

theorem RoundsAt.finite_packWeight (h : RoundsAt x m e) : weightFinite (packWeight m e) = true := by
  simpa [weightFinite, h.toNat_packWeight] using h.finite

/-- The fraction's lowest bit is the significand's. -/
theorem RoundsAt.getLsbD_zero (h : RoundsAt x m e) (hm : Even m) : (packWeight m e).getLsbD 0 = false := by
  have heven : m % 2 = 0 := Nat.even_iff.1 hm
  simp only [BitVec.getLsbD, h.toNat_packWeight, Nat.testBit_zero, decide_eq_false_iff_not]
  omega

theorem RoundsAt.value_packWeight (h : RoundsAt x m e) : weightValue (packWeight m e) = m * ulp e := by
  rw [weightValue_eq_patternValue, h.toNat_packWeight]
  exact patternValue_of_magnitude (magnitude_pack h.scale_pos h.hidden_le_sig h.sig_le)

theorem RoundsAt.abs_sub_weightValue (h : RoundsAt x m e) :
    |x - weightValue (packWeight m e)| = |x / ulp e - m| * ulp e := by
  have hu := ulp_pos e
  rw [h.value_packWeight, ← abs_of_pos hu, ← abs_mul, abs_of_pos hu, sub_mul, div_mul_cancel₀ _ hu.ne']

/-- The rounding error is at most half a unit in the last place. -/
theorem RoundsAt.error_le (h : RoundsAt x m e) :
    |x - weightValue (packWeight m e)| ≤ ulp e / 2 := by
  rw [h.abs_sub_weightValue]
  linarith [mul_le_mul_of_nonneg_right h.rounds.1 (ulp_pos e).le]

/-- Half a unit is lost only where the significand is even. -/
theorem RoundsAt.even_of_tie (h : RoundsAt x m e)
    (tie : |x - weightValue (packWeight m e)| = ulp e / 2) : Even m := by
  rw [h.abs_sub_weightValue] at tie
  exact h.rounds.2 (mul_right_cancel₀ (ulp_pos e).ne' (by linarith))

theorem RoundsAt.add_ulp_le_next (h : RoundsAt x m e) :
    weightValue (packWeight m e) + ulp e ≤ patternValue ((packWeight m e).toNat + 1) := by
  have hscale : e ≤ max 1 ((packWeight m e).toNat / 2 ^ 52) := by
    have hsig := h.hidden_le_sig
    have hb := h.toNat_packWeight
    omega
  rw [patternValue_succ, weightValue_eq_patternValue]
  exact add_le_add_right (ulp_mono hscale) _

/-- Below, too, the distance is one unit, but for the significand `2^52`, where `x` is not below the pattern. -/
theorem RoundsAt.previous_eq_or_le (h : RoundsAt x m e) {b : ℕ} (hb : b + 1 = (packWeight m e).toNat) :
    patternValue b = weightValue (packWeight m e) - ulp e ∨ weightValue (packWeight m e) ≤ x := by
  have hsig := h.hidden_le_sig
  rw [h.toNat_packWeight] at hb
  rw [h.value_packWeight]
  rcases hsig.eq_or_lt with rfl | hlt
  · exact .inr ((le_div_iff₀ (ulp_pos e)).1 (by exact_mod_cast h.hidden_le))
  · obtain ⟨j, rfl⟩ : ∃ j, m = j + 1 := ⟨m - 1, by omega⟩
    obtain rfl : b = (e - 1) * 2 ^ 52 + j := by omega
    have hmag := magnitude_pack h.scale_pos (show 2 ^ 52 ≤ j by omega) (by have := h.sig_le; omega)
    exact .inl (by rw [patternValue_of_magnitude hmag]; push_cast; ring)

/-- A rounded significand makes the nearest pattern. -/
theorem RoundsAt.isNearest (h : RoundsAt x m e) : IsNearest (packWeight m e) x := by
  have hu := ulp_pos e
  have hnext := h.add_ulp_le_next
  obtain ⟨herrBelow, herrAbove⟩ := abs_le.1 h.error_le
  have heven (tie : |x - weightValue (packWeight m e)| = ulp e / 2) := h.getLsbD_zero (h.even_of_tie tie)
  have hprev {b : ℕ} (hb : b + 1 = (packWeight m e).toNat) :
      patternValue b < weightValue (packWeight m e) := by
    rw [weightValue_eq_patternValue]
    exact patternValue_strictMono (by omega)
  refine isNearest_of_neighbours h.finite_packWeight (by linarith) (fun tie => heven ?_) (fun b hb => ?_)
    (fun b hb tie => heven ?_)
  · rw [abs_of_nonneg] <;> linarith
  · rcases h.previous_eq_or_le hb with heq | hle
    · linarith
    · linarith [hprev hb]
  · rcases h.previous_eq_or_le hb with heq | hle
    · rw [abs_of_nonpos] <;> linarith
    · linarith [hprev hb]

end

/-! ## Rounding a natural number that stands for a rational -/

/-- `n` and `y` lie on the same side of every multiple of `g`, or both on it: for rounding at these multiples `n`
can stand for `y`. -/
def SameOrder (g n : ℕ) (y : ℚ) : Prop :=
  ∀ j : ℕ, (j * g ≤ n ↔ (j * g : ℚ) ≤ y) ∧ (n ≤ j * g ↔ y ≤ j * g)

theorem SameOrder.of_dvd {g g' n : ℕ} {y : ℚ} (h : SameOrder g n y) (hg : g ∣ g') : SameOrder g' n y := by
  obtain ⟨a, rfl⟩ := hg
  intro j
  have hj := h (j * a)
  push_cast at hj ⊢
  rwa [mul_assoc, mul_comm a g, mul_assoc (j : ℚ), mul_comm (a : ℚ)] at hj

theorem roundsTo_div {g y : ℚ} {m : ℕ} (hg : 0 < g) (near : |y - m * (g * 2)| ≤ g)
    (tie : |y - m * (g * 2)| = g → Even m) : RoundsTo (y / (g * 2)) m := by
  have hscale : |y / (g * 2) - m| * (g * 2) = |y - m * (g * 2)| := by
    rw [← abs_of_pos (show 0 < g * 2 by linarith), ← abs_mul, abs_of_pos (show 0 < g * 2 by linarith), sub_mul,
      div_mul_cancel₀ _ (by linarith)]
  constructor
  · nlinarith
  · intro half
    exact tie (by rw [← hscale, half]; ring)

theorem SameOrder.remainder_iff {g q r : ℕ} {y : ℚ} (h : SameOrder g (q * g + r) y) :
    (g ≤ r ↔ (q + 1) * (g : ℚ) ≤ y) ∧ (r ≤ g ↔ y ≤ (q + 1) * (g : ℚ)) := by
  have hj := h (q + 1)
  rw [Nat.succ_mul, Nat.add_le_add_iff_left, Nat.add_le_add_iff_left] at hj
  exact_mod_cast hj

/-- `n` lies between two multiples of `2^(k+1)` and on one side of their midpoint, and so does `y`. -/
theorem roundsTo_roundShift {n k : ℕ} {y : ℚ} (h : SameOrder (2 ^ k) n y) :
    RoundsTo (y / 2 ^ (k + 1)) (roundShift n (k + 1)) := by
  have hpos : 0 < 2 ^ k := Nat.two_pow_pos k
  have hpow : (2 : ℚ) ^ (k + 1) = (2 ^ k : ℕ) * 2 := by push_cast; ring
  simp only [roundShift, hpow, pow_succ 2 k]
  generalize 2 ^ k = g at h hpos
  have hposQ : (0 : ℚ) < g := Nat.cast_pos.2 hpos
  have hn : n = n / (g * 2) * 2 * g + n % (g * 2) := by rw [mul_assoc, mul_comm 2 g, Nat.div_add_mod']
  have hr := Nat.mod_lt n (show g * 2 > 0 by omega)
  rw [hn] at h
  generalize n / (g * 2) = q at h ⊢
  generalize n % (g * 2) = r at h hr ⊢
  have hfloor : q * 2 * (g : ℚ) ≤ y := by exact_mod_cast (h (q * 2)).1.1 (Nat.le_add_right _ _)
  have hceil : y ≤ (q * 2 + 2) * (g : ℚ) := by exact_mod_cast (h (q * 2 + 2)).2.1 (by linarith)
  have hmid := h.remainder_iff
  push_cast at hmid
  split
  case isTrue up =>
    have hy := hmid.1.1 (by omega)
    apply roundsTo_div hposQ <;> rw [abs_of_nonpos (by push_cast; linarith)] <;> push_cast
    · linarith
    · intro tie
      have hr' := hmid.2.2 (by linarith)
      exact Nat.even_iff.2 (by omega)
  case isFalse down =>
    have hy := hmid.2.1 (by omega)
    apply roundsTo_div hposQ <;> rw [abs_of_nonneg (by linarith)]
    · linarith
    · intro tie
      have hr' := hmid.1.2 (by linarith)
      exact Nat.even_iff.2 (by omega)

theorem roundShift_le (n k : ℕ) : roundShift n k ≤ n / 2 ^ k + 1 := by
  simp only [roundShift]
  split <;> omega

/-- Where `n` stands for `y` and has more than 53 bits, `nearestWeight` rounds `y` at the scale of its top bits. -/
theorem roundsAt_nearestWeight {n e k : ℕ} {y : ℚ} (hlog : n.log2 = k + 53)
    (h : SameOrder (2 ^ k) n y) (hfin : (e + k) * 2 ^ 52 + 2 ^ 53 < infinityBits) :
    nearestWeight n e = packWeight (roundShift n (k + 1)) (e + (k + 1)) ∧
      RoundsAt (y * ulp e) (roundShift n (k + 1)) (e + (k + 1)) := by
  have hn : n ≠ 0 := by rintro rfl; simp at hlog
  have hlo : 2 ^ 53 * 2 ^ k ≤ n := by
    rw [← pow_add, add_comm, ← hlog]; exact Nat.log2_self_le hn
  have hhi : n < 2 ^ 53 * 2 ^ (k + 1) := by
    rw [← pow_add, show 53 + (k + 1) = n.log2 + 1 by omega]; exact Nat.lt_log2_self
  have hsig : roundShift n (k + 1) ≤ 2 ^ 53 :=
    (roundShift_le n (k + 1)).trans (Nat.div_lt_of_lt_mul (by rwa [mul_comm] at hhi))
  have hscale : y * ulp e / ulp (e + (k + 1)) = y / 2 ^ (k + 1) := by
    unfold ulp
    rw [pow_add 2 e]
    field_simp
  refine ⟨?_, by omega, ?_, hsig, ?_, (Nat.add_le_add_left hsig _).trans_lt hfin⟩
  · rw [nearestWeight, hlog, if_neg (by omega), Nat.add_sub_assoc (by norm_num)]
  · rw [hscale, le_div_iff₀ (by positivity), pow_succ (2 : ℚ) k]
    calc (2 : ℚ) ^ 52 * (2 ^ k * 2)
      _ = (2 ^ 53 : ℕ) * (2 ^ k : ℕ) := by push_cast; ring
      _ ≤ y := (h (2 ^ 53)).1.1 hlo
  · rw [hscale]
    exact roundsTo_roundShift h

/-! ## The quotient -/

/-- The quotient to 96 binary places and its sticky bit (R13). -/
def stickyQuotient (c t : ℕ) : ℕ := 2 * (c * 2 ^ 96 / t) + if c * 2 ^ 96 % t = 0 then 0 else 1

theorem wDiv_eq_nearestWeight {c t : ℕ} (hc : 1 ≤ c) (hct : c ≤ t) :
    wDiv c t = nearestWeight (stickyQuotient c t) 978 := if_pos ⟨hc, hct⟩

theorem le_stickyQuotient_iff {c t : ℕ} (ht : 0 < t) (j : ℕ) :
    j * 2 ≤ stickyQuotient c t ↔ j * t ≤ c * 2 ^ 96 := by
  rw [← Nat.le_div_iff_mul_le ht, stickyQuotient]
  split <;> omega

theorem stickyQuotient_le_iff {c t : ℕ} (ht : 0 < t) (j : ℕ) :
    stickyQuotient c t ≤ j * 2 ↔ c * 2 ^ 96 ≤ j * t := by
  rw [stickyQuotient]
  split
  case isTrue noRemainder =>
    rw [← Nat.div_le_iff_le_mul_of_dvd ht.ne' (Nat.dvd_of_mod_eq_zero noRemainder)]
    omega
  case isFalse remainder =>
    have hne : c * 2 ^ 96 ≠ j * t := fun heq => remainder (heq ▸ Nat.mul_mod_left j t)
    have hlt := Nat.div_lt_iff_lt_mul (x := c * 2 ^ 96) (y := j) ht
    omega

/-- With its sticky bit the quotient's number compares with every even number as the real quotient does. -/
theorem sameOrder_stickyQuotient {c t : ℕ} (ht : 0 < t) :
    SameOrder 2 (stickyQuotient c t) ((c : ℚ) / t * 2 ^ 97) := by
  have htQ : (0 : ℚ) < t := Nat.cast_pos.2 ht
  have hscale : (c : ℚ) / t * 2 ^ 97 = ((c * 2 ^ 96 : ℕ) : ℚ) / t * 2 := by push_cast; ring
  intro j
  rw [le_stickyQuotient_iff ht, stickyQuotient_le_iff ht, hscale, Nat.cast_ofNat,
    mul_le_mul_iff_of_pos_right two_pos, mul_le_mul_iff_of_pos_right two_pos, le_div_iff₀ htQ, div_le_iff₀ htQ]
  constructor <;> norm_cast

theorem stickyQuotient_bounds {c t : ℕ} (hc : 1 ≤ c) (hct : c ≤ t) (ht : t ≤ 2 ^ 32 - 1) :
    2 ^ 65 ≤ stickyQuotient c t ∧ stickyQuotient c t < 2 ^ 98 := by
  have hlo : 2 ^ 64 ≤ c * 2 ^ 96 / t := (Nat.le_div_iff_mul_le (by omega)).2 (by omega)
  have hhi : c * 2 ^ 96 / t ≤ 2 ^ 96 := Nat.div_le_of_le_mul (Nat.mul_le_mul_right _ hct)
  rw [stickyQuotient]
  split <;> omega

/-- `w_div` rounds the quotient at a scale of at most 1023, that of the numbers from 1 on. -/
theorem wDiv_roundsAt {c t : ℕ} (hc : 1 ≤ c) (hct : c ≤ t) (ht : t ≤ 2 ^ 32 - 1) :
    ∃ m e, e ≤ 1023 ∧ wDiv c t = packWeight m e ∧ RoundsAt ((c : ℚ) / t) m e := by
  obtain ⟨hlo, hhi⟩ := stickyQuotient_bounds hc hct ht
  have hn : stickyQuotient c t ≠ 0 := by omega
  have hlogLo : 65 ≤ (stickyQuotient c t).log2 := (Nat.le_log2 hn).2 hlo
  have hlogHi : (stickyQuotient c t).log2 < 98 := (Nat.log2_lt hn).2 hhi
  obtain ⟨k, hk⟩ : ∃ k, (stickyQuotient c t).log2 = k + 53 := ⟨_, (Nat.sub_add_cancel (by omega)).symm⟩
  have horder := (sameOrder_stickyQuotient (c := c) (show 0 < t by omega)).of_dvd
    (dvd_pow_self 2 (show k ≠ 0 by omega))
  obtain ⟨hpack, hrounds⟩ := roundsAt_nearestWeight (e := 978) hk horder (by unfold infinityBits; omega)
  have hunit : (2 : ℚ) ^ 97 * ulp 978 = 1 := by
    rw [ulp, ← mul_div_assoc, ← pow_add, div_self (pow_ne_zero _ two_ne_zero)]
  rw [mul_assoc, hunit, mul_one] at hrounds
  exact ⟨_, _, by omega, (wDiv_eq_nearestWeight hc hct).trans hpack, hrounds⟩

theorem wDiv_isNearest {c t : ℕ} (hc : 1 ≤ c) (hct : c ≤ t) (ht : t ≤ 2 ^ 32 - 1) :
    IsNearest (wDiv c t) ((c : ℚ) / t) := by
  obtain ⟨m, e, -, hw, h⟩ := wDiv_roundsAt hc hct ht
  exact hw ▸ h.isNearest

theorem wDiv_error_le {c t : ℕ} (hc : 1 ≤ c) (hct : c ≤ t) (ht : t ≤ 2 ^ 32 - 1) :
    |(c : ℚ) / t - weightValue (wDiv c t)| ≤ 1 / 2 ^ 53 := by
  obtain ⟨m, e, he, hw, h⟩ := wDiv_roundsAt hc hct ht
  have hulp : ulp 1023 = 1 / 2 ^ 52 := by
    rw [ulp, div_eq_div_iff (pow_ne_zero _ two_ne_zero) (pow_ne_zero _ two_ne_zero), ← pow_add, one_mul]
  calc |(c : ℚ) / t - weightValue (wDiv c t)|
    _ ≤ ulp e / 2 := hw ▸ h.error_le
    _ ≤ ulp 1023 / 2 := div_le_div_of_nonneg_right (ulp_mono he) two_pos.le
    _ = 1 / 2 ^ 53 := by rw [hulp]; norm_num

/-- Two quotients of the same total differ by at least `1/t`, more than the two roundings together. -/
theorem weightValue_wDiv_lt {c c' t : ℕ} (hc : 1 ≤ c) (hlt : c < c') (hct : c' ≤ t) (ht : t ≤ 2 ^ 32 - 1) :
    weightValue (wDiv c t) < weightValue (wDiv c' t) := by
  have htQ : (0 : ℚ) < t := Nat.cast_pos.2 (by omega)
  have herr := abs_le.1 (wDiv_error_le hc (by omega) ht)
  have herr' := abs_le.1 (wDiv_error_le (by omega) hct ht)
  have hone : 1 / (2 : ℚ) ^ 32 ≤ 1 / t :=
    one_div_le_one_div_of_le htQ (by exact_mod_cast (show t ≤ 2 ^ 32 by omega))
  have hgap : (c : ℚ) / t + 1 / t ≤ c' / t := by
    rw [← add_div]
    exact div_le_div_of_nonneg_right (by exact_mod_cast hlt) htQ.le
  have hsmall : 1 / (2 : ℚ) ^ 53 + 1 / 2 ^ 53 < 1 / 2 ^ 32 := by norm_num
  linarith [herr.1, herr'.2]

/-- Settles O31: the quotient with its sticky bit compares with every point of the rounding as the real quotient does,
so its one rounding gives the nearest pattern; and different quotients are further apart than two roundings move. -/
theorem wDivIsTheNearestQuotient : Obligations.WDivIsTheNearestQuotient := by
  intro c t hc hct ht
  refine ⟨wDiv_isNearest hc hct ht, fun c' hlt hc't => ?_⟩
  have hfin := (wDiv_isNearest hc hct ht).1
  have hfin' := (wDiv_isNearest (show 1 ≤ c' by omega) hc't ht).1
  have horder := (weightValue_lt_iff _ _).1 (weightValue_wDiv_lt hc hlt hc't ht)
  rw [wLe_of_finite hfin hfin', wLe_of_finite hfin' hfin]
  exact ⟨decide_eq_true horder.le, decide_eq_false horder.not_ge⟩

end Sys2Proof.Proofs
end

section
/-! The host's registers while IDLE (10_state.md R29 to R47, 45_control_and_host_access.md R238 to R246): what a read
shows, what a read or write leaves, when a window has its element. -/

namespace Sys2Proof.Machine

/-! ## Accesses while IDLE -/

section
variable {s : State} (idle : s.phase = .idle)
include idle

theorem State.busyBit_of_idle : s.busyBit = false := by simp [State.busyBit, idle]

/-- While IDLE a read returns what the register shows; STATUS shows it while BUSY too (R238). -/
theorem State.readValue_of_idle (i : Nat) (r : HostReg) (hr : regAt i = some r) :
    s.readValue i = s.regValue r := by
  cases r <;> simp [State.readValue, State.busyBit_of_idle idle, hr, State.regValue]

/-- The one read with a side effect (R36). -/
theorem State.afterRead_pop_of_idle : s.afterRead 0x06 = { s with obuf := s.obuf.tail } := by
  unfold State.afterRead
  rw [State.busyBit_of_idle idle]
  rfl

end

/-- Only CMD, IBUF_PUSH and SEL can be written (R243). -/
theorem State.hostWrite_eq_self (s : State) {i : Nat} (w : Word) (cmd : regAt i ≠ some .cmd)
    (push : regAt i ≠ some .ibufPush) (sel : regAt i ≠ some .sel) : s.hostWrite i w = s := by
  unfold State.hostWrite
  split
  · rfl
  · split
    · exact absurd ‹_› cmd
    · exact absurd ‹_› push
    · exact absurd ‹_› sel
    · rfl

/-! ## Windows (R246) -/

@[simp] theorem gated_true (v : Word) : gated true v = v := rfl

@[simp] theorem gated_false (v : Word) : gated false v = 0 := rfl

theorem State.ftPresent_iff (s : State) :
    s.ftPresent = true ↔ s.ftValid = true ∧ s.sel.toNat < s.ftLen.toNat := by
  simp [State.ftPresent, BitVec.lt_def]

theorem State.nodePresent_iff (s : State) :
    s.nodePresent = true ↔ s.treeValid = true ∧ s.sel.toNat < s.nodeCnt.toNat := by
  simp [State.nodePresent, BitVec.lt_def]

/-- SEL, where it is a symbol, is its own low 7 bits. -/
theorem State.sel_symbol {s : State} {x : Sym} (hx : s.sel.toNat = x.toNat) : s.sel.extractLsb' 0 7 = x :=
  BitVec.eq_of_toNat_eq (by rw [BitVec.extractLsb'_toNat, Nat.shiftRight_zero, hx, Nat.mod_eq_of_lt x.isLt])

/-- SEL below 128 is a symbol. -/
theorem State.exists_sel_symbol {s : State} (h : s.sel.toNat < 128) : ∃ x : Sym, s.sel.toNat = x.toNat :=
  ⟨BitVec.ofNat 7 s.sel.toNat, by rw [BitVec.toNat_ofNat, Nat.mod_eq_of_lt h]⟩

theorem State.ctSel_symbol {s : State} {x : Sym} (hx : s.sel.toNat = x.toNat) : s.ctSel = s.ctAt x := by
  rw [State.ctSel, State.sel_symbol hx]

theorem State.ctPresent_iff (s : State) :
    s.ctPresent = true ↔ ∃ x : Sym, s.ctValid = true ∧ s.sel.toNat = x.toNat ∧ (s.ctAt x).valid = true := by
  simp only [State.ctPresent, Bool.and_eq_true, decide_eq_true_iff]
  constructor
  · rintro ⟨⟨hct, hsel⟩, hvalid⟩
    obtain ⟨x, hx⟩ := State.exists_sel_symbol hsel
    exact ⟨x, hct, hx, State.ctSel_symbol hx ▸ hvalid⟩
  · rintro ⟨x, hct, hx, hvalid⟩
    exact ⟨⟨hct, hx ▸ x.isLt⟩, State.ctSel_symbol hx ▸ hvalid⟩

/-- An entry of the frequency table in use is FT's at its index. -/
theorem State.ftList_getElem?_eq_some {s : State} {i : Nat} {e : FtEntry} (h : s.ftList[i]? = some e) :
    i < s.ftLen.toNat ∧ s.ftAt i = e := by
  have hlen : i < s.ftList.length := (List.getElem?_eq_some_iff.1 h).1
  have hi : i < s.ftLen.toNat ∧ i < 128 := by simpa [State.ftList] using hlen
  exact ⟨hi.1, Option.some.inj ((s.ftList_getElem? i hi.1 hi.2).symm.trans h)⟩

/-! ## The words the windows show -/

/-- A byte shown in a register is zero-extended. -/
theorem toNat_byteWord (b : Byte) : (b.setWidth 32 : Word).toNat = b.toNat :=
  BitVec.toNat_setWidth_of_le (by norm_num)

/-- A buffer within a capacity of R8 has its length in a register whole. -/
theorem toNat_lengthWord {n cap : Nat} (hn : n ≤ cap) (hcap : capacityInRange cap = true) :
    (BitVec.ofNat 32 n).toNat = n := by
  simp only [capacityInRange, Bool.and_eq_true, decide_eq_true_iff] at hcap
  have hmax : Config.maxCapacity = 2 ^ 32 - 1 := rfl
  exact (BitVec.toNat_ofNat n 32).trans (Nat.mod_eq_of_lt (by omega))

/-- The two halves of a weight over two registers (R42, R45). -/
theorem toNat_weight_halves (p : Weight) :
    (p.extractLsb' 32 32).toNat * 2 ^ 32 + (p.extractLsb' 0 32).toNat = p.toNat := by
  simp only [BitVec.extractLsb'_toNat, Nat.shiftRight_eq_div_pow]
  omega

theorem toNat_append_eq_add {m n : Nat} (x : BitVec m) (y : BitVec n) :
    (x ++ y).toNat = 2 ^ n * x.toNat + y.toNat := by
  rw [BitVec.toNat_append, ← Nat.shiftLeft_add_eq_or_of_lt y.isLt, Nat.shiftLeft_eq, Nat.mul_comm]

theorem toNat_ftSymWord (e : FtEntry) : (ftSymWord e).toNat = 2 ^ 31 + e.sym.toNat := by
  simp only [ftSymWord, toNat_append_eq_add]
  rfl

theorem toNat_ctInfoWord (e : CtEntry) : (ctInfoWord e).toNat = 2 ^ 31 + e.len.toNat := by
  simp only [ctInfoWord, toNat_append_eq_add]
  rfl

theorem toNat_nodeInfoWord (n : Node) :
    (nodeInfoWord n).toNat = 2 ^ 31 + 2 ^ 23 * n.leaf.toNat + 2 ^ 16 * n.sym.toNat
      + 2 ^ 8 * n.right.toNat + n.left.toNat := by
  simp only [nodeInfoWord, toNat_append_eq_add, BitVec.toNat_ofBool]
  have one : (1 : BitVec 1).toNat = 1 := rfl
  have zero : (0 : BitVec 7).toNat = 0 := rfl
  omega

/-! ## The left-aligned code (R46) -/

theorem natOfBits_concat (b : Bits) (x : Bool) : natOfBits (b ++ [x]) = Nat.bit x (natOfBits b) := by
  simp [natOfBits, Nat.bit_val]

/-- The last bit of a bitstring is the lowest of its number. -/
theorem testBit_natOfBits (b : Bits) (j : Nat) : (natOfBits b).testBit j = b.reverse[j]?.getD false := by
  induction b using List.reverseRecOn generalizing j with
  | nil => simp [natOfBits]
  | append_singleton b x ih =>
    rw [natOfBits_concat, List.reverse_concat]
    cases j with
    | zero => exact Nat.testBit_bit_zero x _
    | succ j => exact (Nat.testBit_bit_succ j x _).trans (ih j)

theorem getLsbD_leftAligned {b : Bits} (hb : b.length ≤ 128) {i : Nat} (hi : i < 128) :
    (leftAligned b).getLsbD (127 - i) = b[i]?.getD false := by
  rw [leftAligned, BitVec.getLsbD_ofNat, Nat.testBit_mul_two_pow, testBit_natOfBits]
  by_cases inside : i < b.length
  · have hback : 127 - i - (128 - b.length) = b.length - 1 - i := by omega
    rw [hback, List.getElem?_reverse (by omega), show b.length - 1 - (b.length - 1 - i) = i by omega]
    simp only [show 127 - i < 128 by omega, show 128 - b.length ≤ 127 - i by omega, decide_true, Bool.true_and]
  · have hbelow : ¬128 - b.length ≤ 127 - i := by omega
    simp [hbelow, List.getElem?_eq_none (Nat.le_of_not_lt inside)]

theorem CtEntry.getLsbD_window (e : CtEntry) {i : Nat} (hi : i < 128) :
    e.window.getLsbD (127 - i) = (decide (i < e.len.toNat) && e.bits[i]?.getD false) := by
  have hlen : (e.bits.take e.len.toNat).length ≤ 128 :=
    (List.length_take_le _ _).trans e.len.isLt.le
  rw [CtEntry.window, getLsbD_leftAligned hlen hi, List.getElem?_take]
  by_cases h : i < e.len.toNat <;> simp [h]

/-- The four registers of the CT window make up the 128 bits. -/
theorem append_quarters (v : BitVec 128) :
    v.extractLsb' 96 32 ++ v.extractLsb' 64 32 ++ v.extractLsb' 32 32 ++ v.extractLsb' 0 32 = v := by
  have top : v.extractLsb' 96 32 ++ v.extractLsb' 64 32 = v.extractLsb' 64 64 :=
    BitVec.extractLsb'_append_extractLsb'_eq_extractLsb' rfl
  have upper : v.extractLsb' 64 64 ++ v.extractLsb' 32 32 = v.extractLsb' 32 96 :=
    BitVec.extractLsb'_append_extractLsb'_eq_extractLsb' rfl
  have all : v.extractLsb' 32 96 ++ v.extractLsb' 0 32 = v.extractLsb' 0 128 :=
    BitVec.extractLsb'_append_extractLsb'_eq_extractLsb' rfl
  rw [top, upper, all, BitVec.extractLsb'_eq_self]

end Sys2Proof.Machine

namespace Sys2Proof.Proofs
open Sys2Proof Sys2Proof.Machine Sys2Proof.Claims

/-- Settles O22: the four registers make up the entry's window, whose bits are the code's first `len`, left-aligned. -/
theorem ctWindowShowsTheSelectedCode : Obligations.CtWindowShowsTheSelectedCode := by
  intro s idle
  have read := State.readValue_of_idle idle
  rw [read 0x14 .ctInfo rfl, read 0x15 .ctBits0 rfl, read 0x16 .ctBits1 rfl, read 0x17 .ctBits2 rfl,
    read 0x18 .ctBits3 rfl]
  simp only [State.regValue]
  refine ⟨fun x hct hx hvalid => ?_, fun absent => ?_⟩
  · rw [s.ctPresent_iff.2 ⟨x, hct, hx, hvalid⟩, State.ctSel_symbol hx]
    refine ⟨toNat_ctInfoWord _, fun table => ?_, fun i hi => ?_⟩
    · obtain ⟨hlen, hpos, -⟩ := table.len x hvalid
      exact ⟨hlen ▸ hpos, Nat.lt_succ_iff.1 (s.ctAt x).len.isLt⟩
    · simp only [gated_true, append_quarters]
      exact (s.ctAt x).getLsbD_window hi
  · have hp : s.ctPresent = false := by
      rw [Bool.eq_false_iff, Ne, s.ctPresent_iff]
      rintro ⟨x, hct, hx, hvalid⟩
      exact Bool.false_ne_true ((absent x hct hx).symm.trans hvalid)
    simp [hp]

/-- Settles O15: the read shows OBUF's head and leaves its tail; OBUF_POP is none of the writable registers. -/
theorem popTakesTheFirstElement : Obligations.PopTakesTheFirstElement := by
  intro s idle
  rw [State.readValue_of_idle idle 0x06 .obufPop rfl, State.afterRead_pop_of_idle idle]
  refine ⟨fun b bs hb => ?_, fun hb => ?_, fun w => ?_⟩
  · rw [State.regValue, hb]
    exact ⟨toNat_byteWord b, rfl⟩
  · have kept : { s with obuf := s.obuf.tail } = s := by rw [hb, List.tail_nil, ← hb]
    rw [State.regValue, hb]
    exact ⟨rfl, hb ▸ kept⟩
  · exact s.hostWrite_eq_self w (by decide) (by decide) (by decide)

/-- Settles O19: both registers are windows, and SEL below 128 is the symbol its low 7 bits make. -/
theorem countRegisters : Obligations.CountRegisters := by
  intro s idle
  have read := State.readValue_of_idle idle
  rw [read 0x09 .total rfl, read 0x0A .cnt rfl]
  simp only [State.regValue]
  refine ⟨rfl, fun x hx => ?_, fun hsel => ?_⟩
  · have hsel : s.sel.toNat < 128 := hx ▸ x.isLt
    simp [State.cntPresent, hsel, State.sel_symbol hx, gated]
  · simp [State.cntPresent, Nat.not_lt.2 hsel]

/-- Settles O20: an entry of the list in use is FT's own, and the window is open exactly on such an entry. -/
theorem ftWindowShowsTheSelectedEntry : Obligations.FtWindowShowsTheSelectedEntry := by
  intro s idle
  have read := State.readValue_of_idle idle
  rw [read 0x0C .ftSym rfl, read 0x0D .ftPlo rfl, read 0x0E .ftPhi rfl]
  simp only [State.regValue]
  refine ⟨fun e hft he => ?_, fun absent => ?_⟩
  · obtain ⟨hlt, rfl⟩ := State.ftList_getElem?_eq_some he
    rw [s.ftPresent_iff.2 ⟨hft, hlt⟩]
    exact ⟨toNat_ftSymWord _, toNat_weight_halves _⟩
  · rw [← s.ftPresent_iff, Bool.not_eq_true] at absent
    simp [absent]

/-- What a tree's leaf and internal node hold in the fields they do not use (R59, R114). -/
theorem unused_fields_of_treeTable {s : State} (tree : s.TreeTable) {i : NodeIdx} (hi : i.toNat < s.nodeCnt.toNat) :
    ((s.nodeAt i).leaf = true → (s.nodeAt i).left = 0xFF ∧ (s.nodeAt i).right = 0xFF) ∧
    ((s.nodeAt i).leaf = false → (s.nodeAt i).sym = 0) := by
  by_cases isLeaf : i.toNat < s.ftLen.toNat
  · rw [tree.leaves i isLeaf]
    exact ⟨fun _ => ⟨rfl, rfl⟩, fun h => Bool.noConfusion h⟩
  · have hcount := tree.count
    obtain ⟨hleaf, hsym, -⟩ := tree.internal i (by omega) (by omega)
    rw [hleaf]
    exact ⟨fun h => Bool.noConfusion h, fun _ => hsym⟩

/-- Settles O21: NODE_INFO's fields concatenate to the sum; the tree's invariant gives what its nodes leave unused. -/
theorem nodeWindowShowsTheSelectedNode : Obligations.NodeWindowShowsTheSelectedNode := by
  intro s idle
  have read := State.readValue_of_idle idle
  rw [read 0x11 .nodeInfo rfl, read 0x12 .nodePlo rfl, read 0x13 .nodePhi rfl]
  simp only [State.regValue]
  refine ⟨fun htree hlt => ?_, fun absent => ?_⟩
  · rw [s.nodePresent_iff.2 ⟨htree, hlt⟩]
    exact ⟨toNat_nodeInfoWord _, toNat_weight_halves _, fun tree => unused_fields_of_treeTable tree hlt⟩
  · rw [← s.nodePresent_iff, Bool.not_eq_true] at absent
    simp [absent]

/-- Settles O23: the values are the registers' own, the ranges the invariant's gates and tables. -/
theorem plainRegistersShowTheirElement : Obligations.PlainRegistersShowTheirElement := by
  intro s idle inv
  obtain ⟨hicap, hocap⟩ := inv.params
  have read := State.readValue_of_idle idle
  rw [read 0x02 .erridx rfl, read 0x03 .errval rfl, read 0x05 .ibufLen rfl, read 0x07 .obufLen rfl,
    read 0x08 .sel rfl, read 0x0B .ftLen rfl, read 0x0F .root rfl, read 0x10 .nodeCnt rfl, read 0x19 .cur rfl]
  simp only [State.regValue, toNat_byteWord, toNat_lengthWord inv.buffers.ibuf_cap hicap,
    toNat_lengthWord inv.buffers.obuf_cap hocap, true_and, and_true]
  refine ⟨inv.buffers.ibuf_cap, inv.buffers.obuf_cap, fun hft => ?_, fun hft => (inv.table hft).len_range,
    fun htree => ?_, fun htree => ?_, fun htree => (inv.tree htree).count⟩
  · rw [inv.gates.ft hft]
    rfl
  · rw [(inv.gates.tree htree).2]
    rfl
  · rw [(inv.gates.tree htree).1]
    rfl

end Sys2Proof.Proofs
end

section
/-! The decoder of command words (30_encoding.md R100 to R102): it inverts the encoder and accepts nothing else. -/

namespace Sys2Proof

/-- The opcode map read both ways (R101). -/
theorem opcodeInstr_eq_some_iff {opc : BitVec 4} {i : Instr} : opcodeInstr opc = some i ↔ opc = opcode i := by
  constructor
  · intro h
    unfold opcodeInstr at h
    split at h <;> cases h <;> exact BitVec.eq_of_toNat_eq ‹_›
  · rintro rfl
    cases i <;> rfl

/-- A word is its RSV field [31:4] followed by its OPC field [3:0] (R100). -/
theorem word_eq_fields_append (w : Word) : w = w.extractLsb' 4 28 ++ w.extractLsb' 0 4 :=
  .symm ((BitVec.extractLsb'_append_extractLsb'_eq_extractLsb' (by rfl)).trans BitVec.extractLsb'_eq_self)

/-- A word encodes a command exactly when RSV is 0 and OPC is the command's (R100). -/
theorem eq_encode_iff {w : Word} {i : Instr} :
    w = encode i ↔ w.extractLsb' 4 28 = 0 ∧ w.extractLsb' 0 4 = opcode i := by
  constructor
  · rintro rfl
    exact ⟨BitVec.extractLsb'_append_eq_left, BitVec.extractLsb'_append_eq_right⟩
  · rintro ⟨rsv, opc⟩
    rw [word_eq_fields_append w, rsv, opc, encode]

/-- The decoder accepts a command's own word and no other (R101). -/
theorem decodeWord_eq_ok_iff {w : Word} {i : Instr} : decodeWord w = .ok i ↔ w = encode i := by
  rw [eq_encode_iff, ← opcodeInstr_eq_some_iff, decodeWord]
  simp only [reservedBitsClear, beq_iff_eq]
  split
  case isTrue rsv => cases opcodeInstr (w.extractLsb' 0 4) <;> simp [rsv]
  case isFalse rsv => exact ⟨nofun, fun fields => absurd fields.1 rsv⟩

end Sys2Proof

namespace Sys2Proof.Proofs
open Sys2Proof

/-- Settles O1: the ten words of the map are the commands' encodings. -/
theorem commandWordsAreTheTenOfTheMap : Obligations.CommandWordsAreTheTenOfTheMap := by
  intro w
  and_intros <;> exact decodeWord_eq_ok_iff

end Sys2Proof.Proofs
end

section
/-! FREQ on a text (40_frequency_table.md R130 to R142). E is read through its membership, its order by symbol and its
length; the sort through one number per entry, whose order is that of R138 on finite weights. -/

namespace Sys2Proof.Proofs
open Sys2Proof Sys2Proof.Machine Sys2Proof.Claims

/-! ## FREQ's completion on a text -/

theorem elem_sym_eq_symOf (e : Elem) : e.sym = symOf e :=
  BitVec.eq_of_toNat_eq (by simp [Elem.sym, symOf])

theorem checkSymbol_eq_none_iff (e : Elem) : checkSymbol e = none ↔ IsSymbol e := by
  have high : e.data.getLsbD 7 = false ↔ e.data.toNat < 128 := by
    rw [← BitVec.msb_eq_getLsbD_last e.data, BitVec.msb_eq_false_iff_two_mul_lt]
    omega
  rw [IsSymbol, ← high, checkSymbol]
  cases e.tag <;> cases e.data.getLsbD 7 <;> simp

/-- The state FREQ leaves on a text. -/
def freqDone (s : State) : State := s.beginSession.countInput.buildFt.completeOk

theorem exec_freq_of_text {s : State} (whole : s.iovf = false) (nonempty : s.ibuf ≠ [])
    (syms : ∀ e ∈ s.ibuf, IsSymbol e) : exec .freq s = .next (freqDone s) := by
  have passes : s.inputError true checkSymbol = none :=
    (s.inputError_none true checkSymbol).2
      ⟨whole, fun _ => nonempty, fun e he => (checkSymbol_eq_none_iff e).2 (syms e he)⟩
  rcases runFreq_cases s with ⟨e, h, -⟩ | ⟨-, h⟩
  · cases passes.symm.trans h
  · exact congrArg (fun r : Run => Host.Outcome.next r.complete) h

theorem freqDone_completedOk (s : State) : CompletedOk (freqDone s) := ⟨rfl, rfl, rfl, rfl, rfl, rfl⟩

theorem freqDone_noCodes (s : State) : NoCodes (freqDone s) := s.ctAt_beginSession

theorem freqDone_frame (s : State) : freqDone s = { s with
    phase := .idle, done := true, err := false, errcode := 0, erridx := 0, errval := 0
    ftValid := true, treeValid := false, ctValid := false, synth := (freqDone s).synth
    ftLen := (freqDone s).ftLen, nodeCnt := 0, root := 0xFF, ct := (freqDone s).ct
    cnt := (freqDone s).cnt, total := (freqDone s).total, ft := (freqDone s).ft } := by
  simp only [freqDone, State.completeOk, State.buildFt, State.countInput, State.beginSession]

/-! ## Counting (R133) -/

theorem inputSyms_length (s : State) : s.inputSyms.length = s.ibuf.length := List.length_map _

theorem mem_inputSyms {s : State} {x : Sym} : x ∈ s.inputSyms ↔ ∃ e ∈ s.ibuf, symOf e = x := by
  simp [State.inputSyms, elem_sym_eq_symOf]

theorem count_inputSyms (s : State) (x : Sym) : s.inputSyms.count x = s.ibuf.countP fun e => symOf e = x := by
  rw [State.inputSyms, List.count, List.countP_map]
  exact List.countP_congr fun e _ => by simp [elem_sym_eq_symOf]

section
variable {text : List Sym} (fits : text.length ≤ 2 ^ 32 - 1)
include fits

theorem toNat_ofNat_length : (BitVec.ofNat 32 text.length).toNat = text.length := by
  rw [BitVec.toNat_ofNat]
  omega

theorem toNat_ofNat_count (x : Sym) : (BitVec.ofNat 32 (text.count x)).toNat = text.count x := by
  have := text.count_le_length (a := x)
  rw [BitVec.toNat_ofNat]
  omega

end

/-- The symbols in ascending order. -/
def allSyms : List Sym := (List.finRange 128).map fun i => BitVec.ofNat 7 i.val

theorem mem_allSyms (x : Sym) : x ∈ allSyms :=
  List.mem_map.2 ⟨⟨x.toNat, x.isLt⟩, List.mem_finRange _, by simp⟩

theorem nodup_allSyms : allSyms.Nodup := by
  refine (List.nodup_finRange 128).map fun i j h => Fin.ext ?_
  have hi := i.isLt
  have hj := j.isLt
  have hij := congrArg BitVec.toNat h
  simp only [BitVec.toNat_ofNat] at hij
  omega

theorem countSyms_toList (text : List Sym) :
    (countSyms text).toList = allSyms.map fun x => BitVec.ofNat 32 (text.count x) := by
  rw [countSyms, Vector.toList_ofFn, List.ofFn_eq_map, allSyms, List.map_map]
  rfl

theorem cntAt_freqDone (s : State) (x : Sym) :
    (freqDone s).cntAt x = BitVec.ofNat 32 (s.inputSyms.count x) := by
  show (countSyms s.inputSyms)[x.toNat] = _
  simp [countSyms]

theorem freqDone_total (s : State) : (freqDone s).total = BitVec.ofNat 32 s.inputSyms.length := by
  rw [inputSyms_length]
  rfl

section
variable {s : State} (fits : s.inputSyms.length ≤ 2 ^ 32 - 1)
include fits

theorem toNat_cntAt_freqDone (x : Sym) : ((freqDone s).cntAt x).toNat = s.inputSyms.count x := by
  rw [cntAt_freqDone, toNat_ofNat_count fits]

theorem toNat_total_freqDone : (freqDone s).total.toNat = s.inputSyms.length := by
  rw [freqDone_total, toNat_ofNat_length fits]

end

/-- The counters of a text sum to its length (R133). -/
theorem sum_countSyms {text : List Sym} (fits : text.length ≤ 2 ^ 32 - 1) :
    ((countSyms text).toList.map BitVec.toNat).sum = text.length := by
  calc ((countSyms text).toList.map BitVec.toNat).sum
    _ = (allSyms.map fun x => text.count x).sum := by
      rw [countSyms_toList, List.map_map]
      exact congrArg List.sum (List.map_congr_left fun x _ => toNat_ofNat_count fits x)
    _ = ∑ x ∈ allSyms.toFinset, text.count x := (List.sum_toFinset _ nodup_allSyms).symm
    _ = text.length := by
      simpa only [Multiset.coe_count, Multiset.coe_card] using
        Multiset.sum_count_eq_card (m := (text : Multiset Sym)) fun x _ => List.mem_toFinset.2 (mem_allSyms x)

/-- Settles O36: each counter is the count of its symbol, and a text of fewer than `2^32` elements keeps them whole. -/
theorem freqCountsEverySymbol : Obligations.FreqCountsEverySymbol := by
  intro s whole nonempty syms capacity bound
  have fits : s.inputSyms.length ≤ 2 ^ 32 - 1 := inputSyms_length s ▸ capacity.trans bound
  have htotal := (toNat_total_freqDone fits).trans (inputSyms_length s)
  refine ⟨freqDone s, exec_freq_of_text whole nonempty syms, freqDone_completedOk s, fun x => ?_, htotal, ?_,
    htotal ▸ List.length_pos_iff.2 nonempty, htotal ▸ capacity⟩
  · rw [toNat_cntAt_freqDone fits, count_inputSyms]
  · exact (sum_countSyms fits).trans (toNat_total_freqDone fits).symm

/-! ## The list E (R134, R135) -/

/-- The symbols that stand in a text, in ascending order. -/
def observed (text : List Sym) : List Sym := allSyms.filter (· ∈ text)

/-- The entry of an observed symbol (R134). -/
def entryOf (text : List Sym) (x : Sym) : FtEntry := ⟨x, wDiv (text.count x) text.length⟩

theorem mem_observed {text : List Sym} {x : Sym} : x ∈ observed text ↔ x ∈ text := by
  simp [observed, mem_allSyms]

theorem nodup_observed (text : List Sym) : (observed text).Nodup := nodup_allSyms.filter _

theorem length_observed_le (text : List Sym) : (observed text).length ≤ 128 :=
  (List.length_filter_le _ _).trans (by simp [allSyms])

/-- A text with a symbol has one distinct symbol or several (R137). -/
theorem observed_cases {text : List Sym} (nonempty : text ≠ []) :
    (∃ x, observed text = [x]) ∨ 2 ≤ (observed text).length := by
  obtain ⟨x, hx⟩ := List.exists_mem_of_ne_nil text nonempty
  have hmem := mem_observed.2 hx
  match observed text, hmem with
  | [y], _ => exact .inl ⟨y, rfl⟩
  | _ :: _ :: _, _ => exact .inr (by simp)

theorem observed_eq_singleton {text : List Sym} {x : Sym} (hx : x ∈ text) (all : ∀ y ∈ text, y = x) :
    observed text = [x] := by
  refine List.perm_singleton.1
    ((List.perm_ext_iff_of_nodup (nodup_observed text) (List.nodup_singleton x)).2 fun y => ?_)
  rw [mem_observed, List.mem_singleton]
  exact ⟨all y, fun h => h ▸ hx⟩

theorem two_le_length_observed {text : List Sym} {x y : Sym} (hx : x ∈ text) (hy : y ∈ text) (hne : y ≠ x) :
    2 ≤ (observed text).length := by
  have distinct : [y, x].Nodup := by simp [hne]
  refine (distinct.subperm ?_).length_le
  simp [mem_observed, hx, hy]

section
variable {text : List Sym} (fits : text.length ≤ 2 ^ 32 - 1)
include fits

theorem ofNat_count_eq_zero_iff (x : Sym) : BitVec.ofNat 32 (text.count x) = 0 ↔ x ∉ text := by
  rw [← BitVec.toNat_inj, toNat_ofNat_count fits]
  exact List.count_eq_zero

/-- E holds the entries of the observed symbols in ascending order of their symbols (R135). -/
theorem entries_eq_map_observed :
    entries (countSyms text) (BitVec.ofNat 32 text.length) = (observed text).map (entryOf text) := by
  rw [observed, ← List.filterMap_eq_map, List.filterMap_filter, allSyms, List.filterMap_map]
  refine List.filterMap_congr fun i _ => ?_
  have hcount : (countSyms text)[i] = BitVec.ofNat 32 (text.count (BitVec.ofNat 7 i.val)) := by simp [countSyms]
  simp only [hcount, ofNat_count_eq_zero_iff fits, toNat_ofNat_count fits, toNat_ofNat_length fits,
    Function.comp_apply, entryOf, ite_not, decide_eq_true_iff]

/-- R58 counts the entries by the counters that are not 0. -/
theorem countP_countSyms : (countSyms text).toList.countP (fun c => c ≠ 0) = (observed text).length := by
  rw [countSyms_toList, List.countP_map, observed, ← List.countP_eq_length_filter]
  exact List.countP_congr fun x _ => by
    simp only [Function.comp_apply, ne_eq, ofNat_count_eq_zero_iff fits, not_not]

end

theorem count_range {text : List Sym} {x : Sym} (hx : x ∈ text) :
    1 ≤ text.count x ∧ text.count x ≤ text.length :=
  ⟨List.count_pos_iff.2 hx, List.count_le_length⟩

/-! ## Weights (R13, R134) -/

section
variable {t : ℕ} (fits : t ≤ 2 ^ 32 - 1)
include fits

theorem wDiv_strictMonoOn : StrictMonoOn (fun c => (wDiv c t).toNat) (Set.Icc 1 t) :=
  fun _ hc _ hc' hlt => (weightValue_lt_iff _ _).1 (weightValue_wDiv_lt hc.1 hlt hc'.2 fits)

theorem wDiv_not_le_zero {c : ℕ} (hc : 1 ≤ c) (hct : c ≤ t) : wLe (wDiv c t) weightZero = false := by
  obtain ⟨m, e, -, hw, h⟩ := wDiv_roundsAt hc hct fits
  have hsig := h.hidden_le_sig
  rw [wLe_of_finite (wDiv_isNearest hc hct fits).1 rfl, hw, h.toNat_packWeight]
  exact decide_eq_false (by show ¬ _ ≤ 0; omega)

end

/-- The weight of the only symbol of a text is 1.0 (R134). -/
theorem wDiv_self {t : ℕ} (pos : 1 ≤ t) : wDiv t t = weightOne := by
  have hsticky : stickyQuotient t t = 2 ^ 97 := by
    rw [stickyQuotient, Nat.mul_div_cancel_left _ pos, Nat.mul_mod_right, if_pos rfl]
    rfl
  rw [wDiv_eq_nearestWeight pos le_rfl, hsticky]
  decide

theorem zero_wLe_one : wLe weightZero weightOne = true := by decide

theorem one_not_wLe_zero : wLe weightOne weightZero = false := by decide

/-! ## The sort (R138) -/

/-- The order of R138 as one number: the weight's pattern, then the symbol. -/
def sortKey (e : FtEntry) : ℕ := e.prob.toNat * 128 + e.sym.toNat

theorem sortKey_lt_iff (x y : FtEntry) :
    sortKey x < sortKey y ↔ x.prob.toNat < y.prob.toNat ∨ (x.prob.toNat = y.prob.toNat ∧ x.sym < y.sym) := by
  have hx := x.sym.isLt
  have hy := y.sym.isLt
  rw [sortKey, sortKey, BitVec.lt_def]
  omega

theorem sortKey_injective : Function.Injective sortKey := by
  rintro ⟨a, p⟩ ⟨b, q⟩ h
  have ha := a.isLt
  have hb := b.isLt
  simp only [sortKey] at h
  obtain rfl : a = b := BitVec.eq_of_toNat_eq (by omega)
  obtain rfl : p = q := BitVec.eq_of_toNat_eq (by omega)
  rfl

section
variable {x y : FtEntry} (hx : weightFinite x.prob = true) (hy : weightFinite y.prob = true)
include hx hy

theorem entryBefore_of_finite : entryBefore x y = decide (sortKey x < sortKey y) := by
  simp only [entryBefore, wLe_of_finite hx hy, wLe_of_finite hy hx, sortKey_lt_iff, decide_eq_true_iff]
  rcases lt_trichotomy x.prob.toNat y.prob.toNat with h | h | h
  · simp [h, h.le, h.not_ge]
  · simp [h]
  · simp [h.not_ge, h.not_gt, h.ne']

/-- The order of the keys is the order R58 states. -/
theorem wLe_of_sortKey_lt (h : sortKey x < sortKey y) :
    wLe x.prob y.prob = true ∧ (wLe y.prob x.prob = true → x.sym < y.sym) := by
  rw [wLe_of_finite hx hy, wLe_of_finite hy hx, decide_eq_true_iff, decide_eq_true_iff]
  rcases (sortKey_lt_iff x y).1 h with hlt | ⟨heq, hsym⟩
  · exact ⟨hlt.le, fun hge => absurd hge hlt.not_ge⟩
  · exact ⟨heq.le, fun _ => hsym⟩

end

/-- The library's insertion, by the key. -/
theorem insertEntry_eq_orderedInsert {e : FtEntry} {xs : List FtEntry} (he : weightFinite e.prob = true)
    (hxs : ∀ x ∈ xs, weightFinite x.prob = true) :
    insertEntry e xs = xs.orderedInsert (sortKey ⁻¹'o (· ≤ ·)) e := by
  induction xs with
  | nil => rfl
  | cons x xs ih =>
    obtain ⟨hx, hrest⟩ := List.forall_mem_cons.1 hxs
    rw [insertEntry, entryBefore_of_finite hx he, List.orderedInsert_cons, ih hrest]
    by_cases h : sortKey x < sortKey e
    · simp [h, Order.Preimage, h.not_ge]
    · simp [h, Order.Preimage, not_lt.1 h]

theorem sortEntries_eq_insertionSort {es : List FtEntry} (hes : ∀ e ∈ es, weightFinite e.prob = true) :
    sortEntries es = es.insertionSort (sortKey ⁻¹'o (· ≤ ·)) := by
  induction es with
  | nil => rfl
  | cons e es ih =>
    obtain ⟨he, hrest⟩ := List.forall_mem_cons.1 hes
    rw [sortEntries, ih hrest, List.insertionSort_cons]
    exact insertEntry_eq_orderedInsert he fun x hx => hrest x ((List.mem_insertionSort _).1 hx)

theorem sortEntries_perm {es : List FtEntry} (hes : ∀ e ∈ es, weightFinite e.prob = true) :
    (sortEntries es).Perm es := by
  rw [sortEntries_eq_insertionSort hes]
  exact List.perm_insertionSort _ es

/-- On distinct entries the sorted order is strict. -/
theorem sortEntries_pairwise {es : List FtEntry} (hes : ∀ e ∈ es, weightFinite e.prob = true) (distinct : es.Nodup) :
    (sortEntries es).Pairwise fun x y => sortKey x < sortKey y := by
  have sorted : (sortEntries es).Pairwise (sortKey ⁻¹'o (· ≤ ·)) := by
    rw [sortEntries_eq_insertionSort hes]
    exact List.pairwise_insertionSort _ es
  have hnodup : (sortEntries es).Nodup := (sortEntries_perm hes).nodup_iff.2 distinct
  exact (sorted.and hnodup).imp fun ⟨hle, hne⟩ => lt_of_le_of_ne hle (sortKey_injective.ne hne)

/-! ## The table FREQ leaves -/

/-- The table written is the table in use. -/
theorem take_writeFt (ft : Vector FtEntry 128) {es : List FtEntry} (h : es.length ≤ 128) :
    (writeFt ft es).toList.take es.length = es := by
  refine List.ext_getElem (by simp [h]) fun i h₁ h₂ => ?_
  simp [writeFt, h₂]

theorem fixUp_of_two_le {es : List FtEntry} (h : 2 ≤ es.length) : fixUp es = (es, false) := by
  match es, h with
  | _ :: _ :: _, _ => rfl

/-- The entry of the only symbol of a text (R134). -/
theorem entryOf_single {text : List Sym} {x : Sym} (single : observed text = [x]) :
    text.count x = text.length ∧ entryOf text x = ⟨x, weightOne⟩ := by
  have all : ∀ y ∈ text, x = y := fun y hy => by
    simpa [single, eq_comm] using mem_observed.2 hy
  have hx : x ∈ text := mem_observed.1 (by simp [single])
  have hcount := List.count_eq_length.2 all
  exact ⟨hcount, by rw [entryOf, hcount, wDiv_self (List.length_pos_of_mem hx)]⟩

section
variable {text : List Sym} (fits : text.length ≤ 2 ^ 32 - 1)
include fits

theorem finite_entryOf {x : Sym} (hx : x ∈ text) : weightFinite (entryOf text x).prob = true :=
  (wDiv_isNearest (count_range hx).1 (count_range hx).2 fits).1

theorem finite_observed_entries : ∀ e ∈ (observed text).map (entryOf text), weightFinite e.prob = true :=
  List.forall_mem_map.2 fun _ hx => finite_entryOf fits (mem_observed.1 hx)

/-- Unequal weights come from unequal counts in the same order, equal ones from equal counts (R138). -/
theorem count_order_of_sortKey_lt {x y : Sym} (hx : x ∈ text) (hy : y ∈ text)
    (h : sortKey (entryOf text x) < sortKey (entryOf text y)) :
    text.count x < text.count y ∨ (text.count x = text.count y ∧ x < y) := by
  have mono := wDiv_strictMonoOn fits
  exact ((sortKey_lt_iff _ _).1 h).imp (mono.lt_iff_lt (count_range hx) (count_range hy)).1
    fun ⟨heq, hsym⟩ => ⟨mono.injOn (count_range hx) (count_range hy) heq, hsym⟩

end

section
variable {s : State} (fits : s.inputSyms.length ≤ 2 ^ 32 - 1)
include fits

/-- The fields of the table FREQ leaves, by the list the fix-up gives. -/
theorem freqDone_table {es : List FtEntry} {b : Bool} (hlen : es.length ≤ 128)
    (hfin : ∀ e ∈ es, weightFinite e.prob = true)
    (hfix : fixUp ((observed s.inputSyms).map (entryOf s.inputSyms)) = (es, b)) :
    (freqDone s).synth = b ∧ (freqDone s).ftLen.toNat = es.length ∧ (freqDone s).ftList = sortEntries es := by
  have htable : fixUp (entries s.beginSession.countInput.cnt s.beginSession.countInput.total) = (es, b) := by
    rw [← hfix, ← entries_eq_map_observed fits, inputSyms_length]
    rfl
  have htoNat : (BitVec.ofNat 8 es.length).toNat = es.length := by
    rw [BitVec.toNat_ofNat]
    omega
  have hsorted := (sortEntries_perm hfin).length_eq
  simp only [freqDone, State.ftList, State.completeOk_synth, State.completeOk_ftLen, State.completeOk_ft,
    State.buildFt_synth, State.buildFt_ftLen, State.buildFt_ft, htable, htoNat, true_and]
  rw [← hsorted]
  exact take_writeFt _ (hsorted.trans_le hlen)

theorem freqDone_several (several : 2 ≤ (observed s.inputSyms).length) :
    (freqDone s).synth = false ∧ (freqDone s).ftLen.toNat = (observed s.inputSyms).length ∧
      (freqDone s).ftList = sortEntries ((observed s.inputSyms).map (entryOf s.inputSyms)) := by
  have h := freqDone_table fits (by simpa using length_observed_le _) (finite_observed_entries fits)
    (fixUp_of_two_le (by rwa [List.length_map]))
  rwa [List.length_map] at h

theorem freqDone_single {x : Sym} (single : observed s.inputSyms = [x]) :
    (freqDone s).synth = true ∧ (freqDone s).ftLen.toNat = 2 ∧
      (freqDone s).ftList = [⟨x + 1, weightZero⟩, ⟨x, weightOne⟩] := by
  have hfix : fixUp ((observed s.inputSyms).map (entryOf s.inputSyms)) =
      ([⟨x, weightOne⟩, ⟨x + 1, weightZero⟩], true) := by
    rw [single, List.map_singleton, (entryOf_single single).2]
    rfl
  have syntheticFirst : entryBefore ⟨x + 1, weightZero⟩ ⟨x, weightOne⟩ = true := by
    simp [entryBefore, zero_wLe_one, one_not_wLe_zero]
  have h := freqDone_table fits (by simp) (by simpa using ⟨rfl, rfl⟩) hfix
  rwa [sortEntries, sortEntries, sortEntries, insertEntry, insertEntry, if_pos syntheticFirst, insertEntry] at h

/-- With several observed symbols the entries in use are theirs. -/
theorem mem_ftList_several (several : 2 ≤ (observed s.inputSyms).length) {e : FtEntry} :
    e ∈ (freqDone s).ftList ↔ e.sym ∈ s.inputSyms ∧ e = entryOf s.inputSyms e.sym := by
  rw [(freqDone_several fits several).2.2, (sortEntries_perm (finite_observed_entries fits)).mem_iff, List.mem_map]
  constructor
  · rintro ⟨x, hx, rfl⟩
    exact ⟨mem_observed.1 hx, rfl⟩
  · rintro ⟨hx, he⟩
    exact ⟨e.sym, mem_observed.2 hx, he.symm⟩

/-- With several observed symbols the table is strictly sorted by the key. -/
theorem ftList_pairwise_several (several : 2 ≤ (observed s.inputSyms).length) :
    (freqDone s).ftList.Pairwise fun x y => sortKey x < sortKey y := by
  rw [(freqDone_several fits several).2.2]
  refine sortEntries_pairwise (finite_observed_entries fits) ((nodup_observed _).map ?_)
  exact fun x y h => congrArg FtEntry.sym h

theorem cntAt_freqDone_ne_zero {x : Sym} (hx : x ∈ s.inputSyms) : (freqDone s).cntAt x ≠ 0 := by
  rw [cntAt_freqDone, Ne, ofNat_count_eq_zero_iff fits]
  exact not_not_intro hx

section
variable (nonempty : s.inputSyms ≠ [])
include nonempty

theorem single_of_synth (h : (freqDone s).synth = true) : ∃ x, observed s.inputSyms = [x] :=
  (observed_cases nonempty).resolve_right fun several =>
    Bool.noConfusion ((freqDone_several fits several).1.symm.trans h)

theorem several_of_not_synth (h : (freqDone s).synth = false) : 2 ≤ (observed s.inputSyms).length :=
  (observed_cases nonempty).resolve_left fun ⟨_, single⟩ =>
    Bool.noConfusion ((freqDone_single fits single).1.symm.trans h)

/-! ### The clauses of R58 -/

theorem freqDone_len_range : 2 ≤ (freqDone s).ftLen.toNat ∧ (freqDone s).ftLen.toNat ≤ 128 := by
  rcases observed_cases nonempty with ⟨x, single⟩ | several
  · rw [(freqDone_single fits single).2.1]
    decide
  · rw [(freqDone_several fits several).2.1]
    exact ⟨several, length_observed_le _⟩

theorem freqDone_distinct : ((freqDone s).ftList.map FtEntry.sym).Nodup := by
  rcases observed_cases nonempty with ⟨x, single⟩ | several
  · simp [(freqDone_single fits single).2.2]
  · rw [(freqDone_several fits several).2.2,
      ((sortEntries_perm (finite_observed_entries fits)).map _).nodup_iff, List.map_map]
    exact (List.map_id _).symm ▸ nodup_observed _

theorem freqDone_sorted : (freqDone s).ftList.Pairwise fun x y =>
    wLe x.prob y.prob = true ∧ (wLe y.prob x.prob = true → x.sym < y.sym) := by
  rcases observed_cases nonempty with ⟨x, single⟩ | several
  · rw [(freqDone_single fits single).2.2, List.pairwise_pair]
    exact ⟨zero_wLe_one, fun h => Bool.noConfusion (one_not_wLe_zero.symm.trans h)⟩
  · refine (ftList_pairwise_several fits several).imp_of_mem fun {x y} hx hy hlt => ?_
    obtain ⟨hx, hxe⟩ := (mem_ftList_several fits several).1 hx
    obtain ⟨hy, hye⟩ := (mem_ftList_several fits several).1 hy
    exact wLe_of_sortKey_lt (hxe ▸ finite_entryOf fits hx) (hye ▸ finite_entryOf fits hy) hlt

theorem freqDone_observed (h : (freqDone s).synth = false) {e : FtEntry} (he : e ∈ (freqDone s).ftList) :
    (freqDone s).cntAt e.sym ≠ 0 ∧
      e.prob = wDiv ((freqDone s).cntAt e.sym).toNat (freqDone s).total.toNat ∧
      wLe e.prob weightZero = false := by
  obtain ⟨hx, he⟩ := (mem_ftList_several fits (several_of_not_synth fits nonempty h)).1 he
  have hprob : e.prob = wDiv (s.inputSyms.count e.sym) s.inputSyms.length := congrArg FtEntry.prob he
  obtain ⟨hpos, hle⟩ := count_range hx
  rw [toNat_cntAt_freqDone fits, toNat_total_freqDone fits]
  exact ⟨cntAt_freqDone_ne_zero fits hx, hprob, hprob ▸ wDiv_not_le_zero fits hpos hle⟩

/-- What FREQ leaves on a text meets the frequency table's invariant (R58). -/
theorem freqDone_ftTable : (freqDone s).FtTable where
  len_range := freqDone_len_range fits nonempty
  distinct := freqDone_distinct fits nonempty
  sorted := freqDone_sorted fits nonempty
  total_pos := toNat_total_freqDone fits ▸ List.length_pos_iff.2 nonempty
  total_sum := (toNat_total_freqDone fits).trans (sum_countSyms fits).symm
  observed h :=
    ⟨(freqDone_several fits (several_of_not_synth fits nonempty h)).2.1.trans (countP_countSyms fits).symm,
      fun _ => freqDone_observed fits nonempty h⟩
  synthetic h := by
    obtain ⟨x, single⟩ := single_of_synth fits nonempty h
    refine ⟨x, (freqDone_single fits single).2.2, ?_⟩
    rw [cntAt_freqDone, freqDone_total, (entryOf_single single).1]

/-- Without a synthetic entry the order is that of (CNT, symbol) (R138). -/
theorem freqDone_count_order (h : (freqDone s).synth = false) :
    (freqDone s).ftList.Pairwise fun x y =>
      ((freqDone s).cntAt x.sym).toNat < ((freqDone s).cntAt y.sym).toNat ∨
        ((freqDone s).cntAt x.sym = (freqDone s).cntAt y.sym ∧ x.sym < y.sym) := by
  have several := several_of_not_synth fits nonempty h
  refine (ftList_pairwise_several fits several).imp_of_mem fun {x y} hx hy hlt => ?_
  obtain ⟨hx, hxe⟩ := (mem_ftList_several fits several).1 hx
  obtain ⟨hy, hye⟩ := (mem_ftList_several fits several).1 hy
  rw [hxe, hye] at hlt
  rw [← BitVec.toNat_inj, toNat_cntAt_freqDone fits, toNat_cntAt_freqDone fits]
  exact count_order_of_sortKey_lt fits hx hy hlt

end

end

/-- Settles O37: with one observed symbol the table is written out; with several it is E sorted by one number per entry,
whose order is that of the weights and so that of the counts. -/
theorem freqBuildsTheSortedTable : Obligations.FreqBuildsTheSortedTable := by
  intro s whole nonempty syms bound
  have fits : s.inputSyms.length ≤ 2 ^ 32 - 1 := inputSyms_length s ▸ bound
  have htext : s.inputSyms ≠ [] := mt List.map_eq_nil_iff.1 nonempty
  exact ⟨freqDone s, exec_freq_of_text whole nonempty syms, freqDone_completedOk s,
    congrArg State.ftValid (freqDone_frame s), freqDone_ftTable fits htext, freqDone_noCodes s,
    freqDone_count_order fits htext, freqDone_frame s⟩

/-- Settles O38: the text has one observed symbol or several. -/
theorem freqInjectsTheSyntheticEntry : Obligations.FreqInjectsTheSyntheticEntry := by
  rintro s x whole ⟨e, he, rfl⟩ syms bound
  have nonempty := List.ne_nil_of_mem he
  have fits : s.inputSyms.length ≤ 2 ^ 32 - 1 := inputSyms_length s ▸ bound
  have mem {e : Elem} (he : e ∈ s.ibuf) : symOf e ∈ s.inputSyms := mem_inputSyms.2 ⟨e, he, rfl⟩
  have htext := List.ne_nil_of_mem (mem he)
  obtain ⟨two, most⟩ := freqDone_len_range fits htext
  refine ⟨freqDone s, exec_freq_of_text whole nonempty syms, freqDone_completedOk s, two, most, fun all => ?_, ?_⟩
  · have single : observed s.inputSyms = [symOf e] := observed_eq_singleton (mem he) fun y hy => by
      obtain ⟨d, hd, rfl⟩ := mem_inputSyms.1 hy
      exact all d hd
    obtain ⟨hsynth, hlen, hft⟩ := freqDone_single fits single
    exact ⟨hsynth, BitVec.eq_of_toNat_eq hlen, symOf e + 1, BitVec.toNat_add _ _, by simp, hft⟩
  · rintro ⟨d, hd, hne⟩
    have several := two_le_length_observed (mem he) (mem hd) hne
    exact ⟨(freqDone_several fits several).1,
      fun f hf => cntAt_freqDone_ne_zero fits ((mem_ftList_several fits several).1 hf).1⟩

end Sys2Proof.Proofs
end

section
/-! BUILD (41_tree_builder.md R150, R151). With a table of 2 to 128 entries it completes with `buildDone`: the old tree
and code table are dropped, and the loop writes NODE and the queue pointers alone. -/

namespace Sys2Proof.Proofs
open Sys2Proof Sys2Proof.Machine Sys2Proof.Claims

/-- The state BUILD leaves on a table (R150, R157). -/
def buildDone (s : State) : State := (mergeLoop 127 s.dropTree.loadLeaves).closeTree.completeOk

/-- BUILD is not refused (R158) where a table, if there is one, has 2 to 128 entries. -/
theorem leavesOutOfRange_eq_false_iff (s : State) :
    s.leavesOutOfRange = false ↔ (s.ftValid = true → 2 ≤ s.ftLen.toNat ∧ s.ftLen.toNat ≤ 128) := by
  simp [State.leavesOutOfRange, Nat.succ_le_iff]

theorem exec_build_of_in_range {s : State} (h : s.leavesOutOfRange = false) :
    exec .build s = .next (runBuild s).complete :=
  if_neg (Bool.eq_false_iff.1 h)

theorem exec_build_of_no_table {s : State} (table : s.ftValid = false) :
    exec .build s = .next (errDone s 4 0 0) := by
  have inRange := (leavesOutOfRange_eq_false_iff s).2 (by simp [table])
  rcases runBuild_cases s with ⟨-, stop⟩ | ⟨valid, -⟩
  · rw [exec_build_of_in_range inRange, stop]
    rfl
  · simp [table] at valid

theorem exec_build_of_table {s : State} (table : s.ftValid = true) (two : 2 ≤ s.ftLen.toNat)
    (most : s.ftLen.toNat ≤ 128) : exec .build s = .next (buildDone s) := by
  have inRange := (leavesOutOfRange_eq_false_iff s).2 fun _ => ⟨two, most⟩
  rcases runBuild_cases s with ⟨invalid, -⟩ | ⟨-, run⟩
  · simp [table] at invalid
  · rw [exec_build_of_in_range inRange, run]
    rfl

theorem buildDone_completedOk (s : State) : CompletedOk (buildDone s) := ⟨rfl, rfl, rfl, rfl, rfl, rfl⟩

/-- What BUILD leaves unchanged; the code table's entries are all made absent. -/
theorem buildDone_frame (s : State) : buildDone s = { s with
    phase := .idle, done := true, err := false, errcode := 0, erridx := 0, errval := 0
    treeValid := true, ctValid := false, ct := unsetAll s.ct
    nodeCnt := (buildDone s).nodeCnt, root := (buildDone s).root, node := (buildDone s).node
    sqHead := (buildDone s).sqHead, tqHead := (buildDone s).tqHead, tqTail := (buildDone s).tqTail } := by
  obtain ⟨node, sqHead, tqHead, tqTail, loop⟩ := mergeLoop_frame 127 s.dropTree.loadLeaves
  rw [buildDone, loop]
  rfl

theorem buildDone_noCodes (s : State) : NoCodes (buildDone s) := fun x => by
  rw [buildDone_frame]
  exact s.ctAt_dropTree x

/-- Settles O40: without a table BUILD stops at its first check, on the state unchanged; a table of 2 to 128 entries is
in range, and no merge touches the code table that was dropped first. -/
theorem buildNeedsATable : Obligations.BuildNeedsATable := fun s =>
  ⟨exec_build_of_no_table, fun table two most =>
    ⟨buildDone s, exec_build_of_table table two most, buildDone_completedOk s,
      congrArg State.ctValid (buildDone_frame s), buildDone_noCodes s⟩⟩

end Sys2Proof.Proofs
end

section
/-! `pack` and `unpack` (43_bit_packer.md R185 to R201). The byte sequences `pack` makes are those whose bits begin with
a padding marker: fewer than eight zeros and a 1. Both functions are inverse to each other on them. -/

namespace Sys2Proof.Proofs
open Sys2Proof Sys2Proof.Machine Sys2Proof.Claims

/-! ## Bytes and their bits (R109) -/

theorem bits8_eq_bitsOfByte : bits8 = bitsOfByte := rfl

theorem bitsOfByte_injective : Function.Injective bitsOfByte := by
  intro y z h
  simp only [bitsOfByte, List.cons.injEq, and_true] at h
  obtain ⟨h7, h6, h5, h4, h3, h2, h1, h0⟩ := h
  refine BitVec.eq_of_getLsbD_eq fun i hi => ?_
  interval_cases i <;> assumption

theorem bytesOfBits_bitsOfByte_append (y : Byte) (s : Bits) :
    bytesOfBits (bitsOfByte y ++ s) = y :: bytesOfBits s :=
  congrArg (· :: bytesOfBits s) (bitsOfByte_injective (bitsOfByte_byteOfBits ..))

/-- Whole bytes are read back from their bits; `flatMap_bytesOfBits` is the other direction. -/
theorem bytesOfBits_flatMap_bitsOfByte (ys : List Byte) : bytesOfBits (ys.flatMap bitsOfByte) = ys := by
  induction ys with
  | nil => rfl
  | cons y ys ih => rw [List.flatMap_cons, bytesOfBits_bitsOfByte_append, ih]

theorem true_mem_bitsOfByte_iff {y : Byte} : true ∈ bitsOfByte y ↔ y ≠ 0 := by
  have zeros : bitsOfByte 0 = List.replicate 8 false := rfl
  rw [← bitsOfByte_injective.ne_iff, zeros, Ne, List.eq_replicate_iff]
  simp

/-! ## The padding marker (R187, R197) -/

/-- The bits of `ys` are `k < 8` zeros, a 1, and the payload `r` (R191). -/
structure MarkedBy (ys : List Byte) (k : Nat) (r : Bits) : Prop where
  zeros_lt : k < 8
  bits : ys.flatMap bitsOfByte = List.replicate k false ++ true :: r

theorem packBits_markedBy (b : Bits) : MarkedBy (packBits b) (paddingLength b.length - 1) b := by
  obtain ⟨-, most⟩ := paddingLength_range b.length
  refine ⟨by omega, ?_⟩
  rw [flatMap_packBits, paddingMarker, List.append_assoc, List.singleton_append]

section
variable {ys : List Byte} {k : Nat} {r : Bits} (marked : MarkedBy ys k r)
include marked

theorem MarkedBy.unpackBytes_eq : unpackBytes ys = r := by
  rw [unpackBytes, marked.bits, dropMarker_marker 8 k r marked.zeros_lt]

theorem MarkedBy.length_eq : r.length + k + 1 = 8 * ys.length := by
  have total := congrArg List.length marked.bits
  simp only [flatMap_bitsOfByte_length, List.length_append, List.length_replicate, List.length_cons] at total
  omega

theorem MarkedBy.paddingLength_eq : paddingLength r.length = k + 1 := by
  have hk := marked.zeros_lt
  have total := marked.length_eq
  unfold paddingLength
  omega

/-- The marker is the one `pack` writes, so packing the payload gives the bytes back. -/
theorem MarkedBy.packBits_eq : packBits r = ys := by
  rw [packBits, marked.paddingLength_eq, paddingMarker, List.append_assoc, List.singleton_append,
    Nat.add_sub_cancel, ← marked.bits, bytesOfBits_flatMap_bitsOfByte]

end

/-- A marker is the first 1 of a first byte other than 0 (R191). -/
theorem exists_markedBy_iff {ys : List Byte} : (∃ k r, MarkedBy ys k r) ↔ ∃ y rest, ys = y :: rest ∧ y ≠ 0 := by
  constructor
  · rintro ⟨k, r, hk, bits⟩
    match ys with
    | [] => simp at bits
    | y :: rest =>
      have first : bitsOfByte y = (List.replicate k false ++ true :: r).take 8 := by
        rw [← bits, List.flatMap_cons, List.take_left' (bitsOfByte_length y)]
      obtain ⟨j, hj⟩ : ∃ j, 8 - k = j + 1 := ⟨7 - k, by omega⟩
      exact ⟨y, rest, rfl, true_mem_bitsOfByte_iff.1 (by simp [first, List.take_append, hj])⟩
  · rintro ⟨y, rest, rfl, hy⟩
    obtain ⟨zeros, payload, atMarker, hzeros⟩ := List.eq_append_cons_of_mem (true_mem_bitsOfByte_iff.2 hy)
    have hlen := congrArg List.length atMarker
    simp only [bitsOfByte_length, List.length_append, List.length_cons] at hlen
    have allFalse : zeros = List.replicate zeros.length false :=
      List.eq_replicate_of_mem fun b hb => Bool.eq_false_iff.2 fun h => hzeros (h ▸ hb)
    refine ⟨zeros.length, payload ++ rest.flatMap bitsOfByte, by omega, ?_⟩
    rw [← allFalse, List.flatMap_cons, atMarker, List.append_assoc, List.cons_append]

theorem exists_packBits_eq_iff {ys : List Byte} : (∃ b, packBits b = ys) ↔ ∃ y rest, ys = y :: rest ∧ y ≠ 0 := by
  rw [← exists_markedBy_iff]
  constructor
  · rintro ⟨b, rfl⟩
    exact ⟨_, b, packBits_markedBy b⟩
  · rintro ⟨_, r, marked⟩
    exact ⟨r, marked.packBits_eq⟩

theorem unpackBytes_packBits : Function.LeftInverse unpackBytes packBits :=
  fun b => (packBits_markedBy b).unpackBytes_eq

/-- Settles O51: a sequence is packed exactly when its bits begin with a marker, and what follows is its payload. -/
theorem packedSequencesStartWithANonzeroByte : Obligations.PackedSequencesStartWithANonzeroByte :=
  ⟨fun _ _ h => unpackBytes_packBits.injective h, fun _ => exists_packBits_eq_iff, fun _ _ _ hk bits =>
    have marked := MarkedBy.mk hk (bits8_eq_bitsOfByte ▸ bits)
    ⟨marked.packBits_eq, marked.length_eq, marked.paddingLength_eq⟩⟩

/-! ## The two commands on input that passes their checks -/

theorem checkChar_eq_none_iff (e : Elem) : checkChar e = none ↔ IsBitChar e := by
  rw [IsBitChar, checkChar]
  cases e.tag <;> simp [or_iff_not_imp_left]

theorem checkByte_eq_none_iff (e : Elem) : checkByte e = none ↔ e.tag = false := by
  rw [checkByte]
  cases e.tag <;> simp

/-- A character is written back from its bit (R108, R200). -/
theorem charOfBit_bit {e : Elem} (h : IsBitChar e) : charOfBit e.bit = e.data := by
  obtain ⟨-, zero | one⟩ := h
  · rw [Elem.bit, zero]; rfl
  · rw [Elem.bit, one]; rfl

theorem map_charOfBit_inputBits {s : State} (chars : ∀ e ∈ s.ibuf, IsBitChar e) :
    s.inputBits.map charOfBit = s.ibuf.map Elem.data := by
  rw [State.inputBits, List.map_map]
  exact List.map_congr_left fun e he => charOfBit_bit (chars e he)

/-- The state PACK leaves when it completes ok (R185). -/
def packDone (s : State) : State := State.completeOk { s with obuf := packBits s.inputBits, bitbuf := [] }

/-- PACK completes ok on characters alone. -/
theorem exec_pack_ok {s a : State} (run : exec .pack s = .next a) (ok : a.err = false) :
    (∀ e ∈ s.ibuf, IsBitChar e) ∧ a = packDone s := by
  obtain rfl : (runPack s).complete = a := Host.Outcome.next.inj run
  rcases runPack_cases s with ⟨e, -, stop⟩ | ⟨-, -, stop⟩ | ⟨passes, -, done⟩
  · rw [stop] at ok; cases ok
  · rw [stop] at ok; cases ok
  · obtain ⟨-, -, chars⟩ := (s.inputError_none false checkChar).1 passes
    exact ⟨fun e he => (checkChar_eq_none_iff e).1 (chars e he), by rw [done]; rfl⟩

/-- The state UNPACK leaves when it completes ok (R195). -/
def unpackDone (s : State) : State :=
  State.completeOk { s with obuf := (unpackBytes s.inputBytes).map charOfBit, bitbuf := [] }

theorem exec_unpack_of_fits {s : State} (whole : s.iovf = false) (bytes : ∀ e ∈ s.ibuf, e.tag = false)
    (fits : (unpackBytes s.inputBytes).length ≤ s.obufCap) : exec .unpack s = .next (unpackDone s) := by
  have passes : s.inputError false checkByte = none :=
    (s.inputError_none false checkByte).2 ⟨whole, nofun, fun e he => (checkByte_eq_none_iff e).2 (bytes e he)⟩
  rcases runUnpack_cases s with ⟨e, h, -⟩ | ⟨-, long, -⟩ | ⟨-, -, done⟩
  · cases passes.symm.trans h
  · exact absurd fits long.not_ge
  · exact congrArg (fun r : Run => Host.Outcome.next r.complete) done

/-- The state with its output moved to a cleared IBUF, as untagged bytes (R201). -/
def moveOutput (a : State) : State := { a with ibuf := a.obuf.map fun y => ⟨false, y⟩ }

theorem inputBytes_moveOutput (a : State) : (moveOutput a).inputBytes = a.obuf := by
  simp [State.inputBytes, moveOutput, Function.comp_def]

/-- What UNPACK reads after PACK is the bitstring PACK read (R201). -/
theorem unpackBytes_moveOutput_packDone (s : State) :
    unpackBytes (moveOutput (packDone s)).inputBytes = s.inputBits := by
  rw [inputBytes_moveOutput]
  exact unpackBytes_packBits s.inputBits

/-- UNPACK after PACK gives back the characters (R201). -/
theorem exec_unpack_moveOutput_packDone {s : State} (whole : s.iovf = false)
    (chars : ∀ e ∈ s.ibuf, IsBitChar e) (fits : s.ibuf.length ≤ s.obufCap) :
    ∃ b, exec .unpack (moveOutput (packDone s)) = .next b ∧ b.err = false ∧ b.obuf = s.ibuf.map Elem.data := by
  have bits := unpackBytes_moveOutput_packDone s
  refine ⟨_, exec_unpack_of_fits whole ?_ ?_, rfl, ?_⟩
  · simp [moveOutput]
  · rw [bits, State.inputBits, List.length_map]
    exact fits
  · exact (congrArg (List.map charOfBit) bits).trans (map_charOfBit_inputBits chars)

/-- Settles O50: `unpack` is a left inverse of `pack`, so the converse law holds on `pack`'s image alone; PACK and UNPACK
apply the two functions to the characters' bits. -/
theorem unpackInvertsPack : Obligations.UnpackInvertsPack := by
  refine ⟨unpackBytes_packBits, fun ys => ?_, fun s a whole run ok fits => ?_⟩
  · rw [← exists_packBits_eq_iff]
    refine ⟨fun h => ⟨_, h⟩, ?_⟩
    rintro ⟨b, rfl⟩
    exact congrArg packBits (unpackBytes_packBits b)
  · obtain ⟨chars, rfl⟩ := exec_pack_ok run ok
    exact exec_unpack_moveOutput_packDone whole chars fits

end Sys2Proof.Proofs
end

section
/-! The round trip of encoding and decoding (44_encode_decode.md R222). The merge loop ends on an internal node, so the
root is internal; every code CGEN writes is then a path of at least one branch from the root to its symbol's leaf, and
the walk of DECODE over a concatenation of such paths emits their symbols and ends at the root. -/

namespace Sys2Proof.Proofs
open Sys2Proof Sys2Proof.Machine Sys2Proof.Claims

/-! ## The walk over codes (R219) -/

/-- A path to a leaf that has at least one branch emits the leaf's symbol and puts the walker back at the root. -/
theorem walk_leadsTo_append {s : State} {m : NodeIdx} (leaf : (s.nodeAt m).leaf = true) (rest : Bits) (b : Bool)
    (bs : Bits) {n : NodeIdx} (path : s.LeadsTo n (b :: bs) m) :
    s.walk n (b :: bs ++ rest) = ((s.nodeAt m).sym :: (s.walk s.root rest).1, (s.walk s.root rest).2) := by
  induction bs generalizing n b with
  | nil =>
    obtain ⟨-, rfl⟩ : _ ∧ s.child n b = m := path
    simp [State.walk, leaf]
  | cons b' bs ih =>
    obtain ⟨-, path⟩ := path
    have internal : (s.nodeAt (s.child n b)).leaf = false := path.1
    rw [List.cons_append, State.walk]
    simpa [internal] using ih b' path

theorem walk_isCode_append {s : State} (internal : (s.nodeAt s.root).leaf = false) {x : Sym} {code : Bits}
    (isCode : s.IsCode x code) (rest : Bits) :
    s.walk s.root (code ++ rest) = (x :: (s.walk s.root rest).1, (s.walk s.root rest).2) := by
  obtain ⟨m, path, leaf, rfl⟩ := isCode
  cases code with
  | nil =>
    obtain rfl : s.root = m := path
    exact absurd (internal.symm.trans leaf) Bool.false_ne_true
  | cons b bs => exact walk_leadsTo_append leaf rest b bs path

theorem walk_codes {s : State} (internal : (s.nodeAt s.root).leaf = false) {code : Sym → Bits} (text : List Sym)
    (codes : ∀ x ∈ text, s.IsCode x (code x)) : s.walk s.root (text.flatMap code) = (text, s.root) := by
  induction text with
  | nil => rfl
  | cons x text ih =>
    obtain ⟨hx, codes⟩ := List.forall_mem_cons.1 codes
    rw [List.flatMap_cons, walk_isCode_append internal hx, ih codes]

/-! ## BUILD: the root is internal (R155, R157) -/

theorem mergeStep_tqTail (s : State) : s.mergeStep.tqTail = s.tqTail + 1 := by
  obtain ⟨_, _, first⟩ := s.pick_frame
  obtain ⟨_, _, second⟩ := s.pick.2.pick_frame
  rw [State.mergeStep, State.enqueue_tqTail, second, first]

theorem toNat_tqTail_mergeStep {s : State} (room : s.tqTail.toNat < 255) :
    s.mergeStep.tqTail.toNat = s.tqTail.toNat + 1 := by
  rw [mergeStep_tqTail, BitVec.toNat_add_of_lt (Nat.succ_lt_succ room)]
  rfl

/-- The last node enqueued is internal. -/
def LastIsInternal (s : State) : Prop := (s.nodeAt (s.tqTail - 1)).leaf = false

/-- A merge enqueues an internal node (R155). -/
theorem mergeStep_lastIsInternal {s : State} (room : s.tqTail.toNat < 255) : LastIsInternal s.mergeStep := by
  obtain ⟨_, _, first⟩ := s.pick_frame
  obtain ⟨_, _, second⟩ := s.pick.2.pick_frame
  have tail : s.pick.2.pick.2.tqTail = s.tqTail := by rw [second, first]
  rw [LastIsInternal, mergeStep_tqTail, BitVec.add_sub_cancel, State.mergeStep,
    State.nodeAt_enqueue _ _ _ (tail ▸ room), if_pos tail.symm]
  rfl

theorem mergeLoop_lastIsInternal (k : Nat) {s : State} (room : s.tqTail.toNat + k ≤ 255) (last : LastIsInternal s) :
    LastIsInternal (mergeLoop k s) := by
  induction k generalizing s with
  | zero => exact last
  | succ k ih =>
    rw [mergeLoop]
    split
    · have below : s.tqTail.toNat < 255 := by omega
      refine ih ?_ (mergeStep_lastIsInternal below)
      rw [toNat_tqTail_mergeStep below]
      omega
    · exact last

/-- A frequency table BUILD has a meaning for (R158). -/
structure HasTable (s : State) : Prop where
  valid : s.ftValid = true
  two : 2 ≤ s.ftLen.toNat
  most : s.ftLen.toNat ≤ 128

/-- A table has two entries or more, so the loop merges at least once. -/
theorem mergeLoop_loadLeaves_lastIsInternal {s : State} (table : HasTable s) :
    LastIsInternal (mergeLoop 127 s.dropTree.loadLeaves) := by
  obtain ⟨-, two, most⟩ := table
  have below : s.dropTree.loadLeaves.tqTail.toNat < 255 := by
    rw [State.loadLeaves_tqTail, State.dropTree_ftLen]
    omega
  have several : 1 < s.dropTree.loadLeaves.queued := by
    simp [State.queued]
    omega
  rw [mergeLoop, if_pos several]
  refine mergeLoop_lastIsInternal 126 ?_ (mergeStep_lastIsInternal below)
  rw [toNat_tqTail_mergeStep below, State.loadLeaves_tqTail, State.dropTree_ftLen]
  omega

/-- A tree DECODE can walk. -/
structure HasTree (s : State) : Prop where
  valid : s.treeValid = true
  root_internal : (s.nodeAt s.root).leaf = false

/-- What the commands of a session leave of a text to encode. -/
structure SameInput (s t : State) : Prop where
  ibuf : t.ibuf = s.ibuf
  iovf : t.iovf = s.iovf
  obufCap : t.obufCap = s.obufCap

theorem SameInput.trans {s t u : State} (h : SameInput s t) (h' : SameInput t u) : SameInput s u :=
  ⟨h'.ibuf.trans h.ibuf, h'.iovf.trans h.iovf, h'.obufCap.trans h.obufCap⟩

theorem runBuild_hasTree {f : State} (table : HasTable f) :
    ∃ b, runBuild f = .ok b ∧ HasTree b ∧ SameInput f b := by
  rcases runBuild_cases f with ⟨invalid, -⟩ | ⟨-, run⟩
  · exact absurd (invalid.symm.trans table.valid) Bool.false_ne_true
  · refine ⟨_, run, ⟨rfl, mergeLoop_loadLeaves_lastIsInternal table⟩, ?_⟩
    obtain ⟨_, _, _, _, loop⟩ := mergeLoop_frame 127 f.dropTree.loadLeaves
    rw [loop]
    exact ⟨rfl, rfl, rfl⟩

/-! ## CGEN: the codes are paths (R172, R173) -/

/-- The bits lead from node `n` to the leaf of symbol `x`; from the root this is `State.IsCode`. -/
def LeadsToLeafOf (s : State) (x : Sym) (n : NodeIdx) (code : Bits) : Prop :=
  ∃ m, s.LeadsTo n code m ∧ (s.nodeAt m).leaf = true ∧ (s.nodeAt m).sym = x

theorem LeadsToLeafOf.cons {s : State} {x : Sym} {n : NodeIdx} {b : Bool} {code : Bits}
    (internal : (s.nodeAt n).leaf = false) (below : LeadsToLeafOf s x (s.child n b) code) :
    LeadsToLeafOf s x n (b :: code) := by
  obtain ⟨m, leads, atLeaf⟩ := below
  exact ⟨m, ⟨internal, leads⟩, atLeaf⟩

/-- What the search finds extends its path by the way down from its node. -/
theorem search_leadsToLeafOf {s : State} {x : Sym} (fuel : Nat) {n : NodeIdx} {path found : Bits}
    (search : s.search x fuel n path = some found) : ∃ code, found = path ++ code ∧ LeadsToLeafOf s x n code := by
  induction fuel generalizing n path with
  | zero => cases search
  | succ fuel ih =>
    rw [State.search] at search
    cases kind : (s.nodeAt n).leaf with
    | true =>
      simp only [kind, if_true, Option.ite_none_right_eq_some, Option.some.injEq] at search
      obtain ⟨sym, rfl⟩ := search
      exact ⟨[], (List.append_nil _).symm, n, rfl, kind, sym⟩
    | false =>
      simp only [kind, Bool.false_eq_true, if_false] at search
      obtain ⟨b, below⟩ : ∃ b, s.search x fuel (s.child n b) (path ++ [b]) = some found := by
        split at search
        next left => exact ⟨false, left.trans search⟩
        next => exact ⟨true, search⟩
      obtain ⟨code, rfl, leads⟩ := ih below
      exact ⟨b :: code, List.append_assoc .., leads.cons kind⟩

theorem codePath_isCode {s : State} {x : Sym} {code : Bits} (h : s.codePath x = some code) : s.IsCode x code := by
  obtain ⟨_, rfl, leads⟩ := search_leadsToLeafOf 128 h
  exact leads

/-- A path depends on NODE and ROOT alone. -/
theorem isCode_congr {s t : State} (node : t.node = s.node) (root : t.root = s.root) {x : Sym} {code : Bits} :
    t.IsCode x code ↔ s.IsCode x code := by
  have nodeAt : t.nodeAt = s.nodeAt := by funext i; rw [State.nodeAt, State.nodeAt, node]
  have leads (bs : Bits) (n m : NodeIdx) : t.LeadsTo n bs m ↔ s.LeadsTo n bs m := by
    induction bs generalizing n with
    | nil => rfl
    | cons b bs ih => simp only [State.LeadsTo, State.child, nodeAt, ih]
  simp only [State.IsCode, leads, nodeAt, root]

/-- Every code that is present is a path from the root to its symbol's leaf. -/
def CodesArePaths (s : State) : Prop := ∀ x, (s.ctAt x).valid = true → s.IsCode x (s.ctAt x).bits

theorem codesArePaths_of_fields {s t : State} (paths : CodesArePaths s) (node : t.node = s.node)
    (root : t.root = s.root) (ct : t.ct = s.ct) : CodesArePaths t := by
  intro x present
  have ctAt : t.ctAt x = s.ctAt x := by rw [State.ctAt, State.ctAt, ct]
  rw [ctAt] at present ⊢
  exact (isCode_congr node root).2 (paths x present)

theorem ctAt_writeCode (s : State) (y x : Sym) :
    (s.writeCode y).ctAt x = s.ctAt x ∨ s.codePath x = some ((s.writeCode y).ctAt x).bits := by
  rw [State.writeCode]
  split
  next code found =>
    by_cases same : y = x
    · subst same
      exact .inr (by simpa [State.ctAt] using found)
    · have apart : y.toNat ≠ x.toNat := fun h => same (BitVec.eq_of_toNat_eq h)
      exact .inl (by simp [State.ctAt, apart])
  next => exact .inl rfl

theorem writeCode_codesArePaths {s : State} (paths : CodesArePaths s) (y : Sym) : CodesArePaths (s.writeCode y) := by
  intro x present
  have node : (s.writeCode y).node = s.node := by rw [s.writeCode_frame]
  have root : (s.writeCode y).root = s.root := by rw [s.writeCode_frame]
  rw [isCode_congr node root]
  rcases ctAt_writeCode s y x with same | written
  · rw [same] at present ⊢
    exact paths x present
  · exact codePath_isCode written

theorem writeCodes_codesArePaths (xs : List Sym) {s : State} (paths : CodesArePaths s) :
    CodesArePaths (xs.foldl State.writeCode s) := by
  induction xs generalizing s with
  | nil => exact paths
  | cons x xs ih => exact ih (writeCode_codesArePaths paths x)

/-- A session ENCODE and DECODE agree on. -/
structure HasCodes (s : State) : Prop where
  tree : HasTree s
  paths : CodesArePaths s

theorem dropCodes_codesArePaths (s : State) : CodesArePaths s.dropCodes := fun x present =>
  absurd ((s.ctAt_dropCodes x).symm.trans present) Bool.false_ne_true

theorem runCgen_hasCodes {b : State} (tree : HasTree b) : ∃ c, runCgen b = .ok c ∧ HasCodes c ∧ SameInput b c := by
  rcases runCgen_cases b with ⟨invalid, -⟩ | ⟨-, run⟩
  · exact absurd (invalid.symm.trans tree.valid) Bool.false_ne_true
  · have paths := writeCodes_codesArePaths b.ftSyms (dropCodes_codesArePaths b)
    obtain ⟨ct, frame⟩ : ∃ ct, b.ftSyms.foldl State.writeCode b.dropCodes = { b.dropCodes with ct := ct } :=
      ⟨_, State.writeCodes_frame b.ftSyms b.dropCodes⟩
    rw [frame] at run paths
    exact ⟨_, run, ⟨⟨tree.valid, tree.root_internal⟩, codesArePaths_of_fields paths rfl rfl rfl⟩, ⟨rfl, rfl, rfl⟩⟩

/-! ## ENCODE and DECODE on input that passes their checks -/

/-- The state ENCODE leaves when it completes ok (R210). -/
def encodeDone (c : State) : State :=
  State.completeOk { c with obuf := packBits (c.codeBits c.inputSyms), bitbuf := [] }

theorem ctAt_valid_of_checkCoded {c : State} {e : Elem} (h : checkCoded c e = none) : (c.ctAt e.sym).valid = true := by
  rw [checkCoded] at h
  split at h
  next => cases h
  next =>
    split at h
    · assumption
    · cases h

/-- Where ENCODE completes ok every element of the text has a code. -/
theorem runEncode_complete_ok {c : State} (ok : (runEncode c).complete.err = false) :
    (∀ x ∈ c.inputSyms, (c.ctAt x).valid = true) ∧ (runEncode c).complete = encodeDone c := by
  rcases runEncode_cases c with ⟨-, stop⟩ | ⟨-, e, -, stop⟩ | ⟨-, -, -, stop⟩ | ⟨-, passes, -, done⟩
  · rw [stop] at ok; cases ok
  · rw [stop] at ok; cases ok
  · rw [stop] at ok; cases ok
  · obtain ⟨-, -, coded⟩ := (c.inputError_none true (checkCoded c)).1 passes
    exact ⟨List.forall_mem_map.2 fun e he => ctAt_valid_of_checkCoded (coded e he), by rw [done]; rfl⟩

/-- The state DECODE leaves on a walk's result (R218, R220). -/
def decodeDone (s : State) (r : List Sym × NodeIdx) : State :=
  State.completeOk { s with
    bitbuf := [], obuf := r.1.map fun x => x.setWidth 8, cur := r.2, midcode := r.2 != s.root }

theorem exec_decode_of_fits {s : State} {r : List Sym × NodeIdx} (tree : s.treeValid = true) (whole : s.iovf = false)
    (bytes : ∀ e ∈ s.ibuf, e.tag = false) (walk : s.walk s.root (unpackBytes s.inputBytes) = r)
    (fits : r.1.length ≤ s.obufCap) : exec .decode s = .next (decodeDone s r) := by
  subst walk
  have passes : s.inputError false checkByte = none :=
    (s.inputError_none false checkByte).2 ⟨whole, nofun, fun e he => (checkByte_eq_none_iff e).2 (bytes e he)⟩
  rcases runDecode_cases s with ⟨invalid, -⟩ | ⟨-, e, h, -⟩ | ⟨-, -, long, -⟩ | ⟨-, -, -, done⟩
  · exact absurd (invalid.symm.trans tree) Bool.false_ne_true
  · cases passes.symm.trans h
  · exact absurd fits long.not_ge
  · exact congrArg (fun r : Run => Host.Outcome.next r.complete) done

/-- DECODE after ENCODE walks the text's codes (R222). -/
theorem exec_decode_moveOutput_encodeDone {c : State} (codes : HasCodes c) (whole : c.iovf = false)
    (present : ∀ x ∈ c.inputSyms, (c.ctAt x).valid = true) (fits : c.inputSyms.length ≤ c.obufCap) :
    exec .decode (moveOutput (encodeDone c)) =
      .next (decodeDone (moveOutput (encodeDone c)) (c.inputSyms, c.root)) := by
  obtain ⟨⟨valid, internal⟩, paths⟩ := codes
  refine exec_decode_of_fits valid whole (by simp [moveOutput]) ?_ fits
  have bits : unpackBytes (moveOutput (encodeDone c)).inputBytes = c.codeBits c.inputSyms := by
    rw [inputBytes_moveOutput]
    exact unpackBytes_packBits _
  calc
    _ = c.walk c.root (c.codeBits c.inputSyms) := by
      rw [bits]
      exact State.walk_congr c (moveOutput (encodeDone c)) rfl rfl _ _
    _ = (c.inputSyms, c.root) := walk_codes internal _ fun x hx => paths x (present x hx)

/-- The symbol of a text's element, written as a byte, is its data (R106). -/
theorem setWidth_sym {e : Elem} (h : IsSymbol e) : e.sym.setWidth 8 = e.data := by
  obtain ⟨-, low⟩ := h
  apply BitVec.eq_of_toNat_eq
  simp [Elem.sym]
  omega

/-! ## Both ways of encoding (R222, R226) -/

theorem inputError_of_text {s : State} (whole : s.iovf = false) (nonempty : s.ibuf ≠ [])
    (syms : ∀ e ∈ s.ibuf, IsSymbol e) : s.inputError true checkSymbol = none :=
  (s.inputError_none true checkSymbol).2
    ⟨whole, fun _ => nonempty, fun e he => (checkSymbol_eq_none_iff e).2 (syms e he)⟩

theorem freqDone_hasTable {s : State} (nonempty : s.ibuf ≠ []) (bound : s.ibuf.length ≤ 2 ^ 32 - 1) :
    HasTable (freqDone s) := by
  have fits : s.inputSyms.length ≤ 2 ^ 32 - 1 := inputSyms_length s ▸ bound
  obtain ⟨two, most⟩ := freqDone_len_range fits (mt List.map_eq_nil_iff.1 nonempty)
  exact ⟨congrArg State.ftValid (freqDone_frame s), two, most⟩

/-- BUILD and CGEN on a table leave a session whose codes are paths, with the text still in IBUF. -/
theorem exec_build_cgen_hasCodes {s f b c : State} (table : HasTable f) (same : SameInput s f)
    (build : exec .build f = .next b) (cgen : exec .cgen b = .next c) : HasCodes c ∧ SameInput s c := by
  have inRange := (leavesOutOfRange_eq_false_iff f).2 fun _ => ⟨table.two, table.most⟩
  obtain ⟨b', buildOk, tree, built⟩ := runBuild_hasTree table
  cases (exec_build_of_in_range inRange).symm.trans build
  rw [buildOk] at cgen
  obtain ⟨c', cgenOk, codes, coded⟩ := runCgen_hasCodes (b := b'.completeOk) ⟨tree.valid, tree.root_internal⟩
  obtain rfl : (runCgen b'.completeOk).complete = c := Host.Outcome.next.inj cgen
  rw [cgenOk]
  exact ⟨⟨⟨codes.tree.valid, codes.tree.root_internal⟩, codesArePaths_of_fields codes.paths rfl rfl rfl⟩,
    (same.trans ⟨built.ibuf, built.iovf, built.obufCap⟩).trans ⟨coded.ibuf, coded.iovf, coded.obufCap⟩⟩

/-- COMPRESS on a text ends with the pseudocode of ENCODE on such a session. -/
theorem runCompress_hasCodes {s : State} (whole : s.iovf = false) (nonempty : s.ibuf ≠ [])
    (syms : ∀ e ∈ s.ibuf, IsSymbol e) (bound : s.ibuf.length ≤ 2 ^ 32 - 1) :
    ∃ c, HasCodes c ∧ SameInput s c ∧ runCompress s = runEncode c := by
  have passes := inputError_of_text whole nonempty syms
  rcases runCompress_cases s with ⟨e, h, -⟩ | ⟨-, run⟩
  · cases passes.symm.trans h
  · obtain ⟨valid, two, most⟩ := freqDone_hasTable (s := s.emptyObuf) nonempty bound
    obtain ⟨b, build, tree, built⟩ := runBuild_hasTree (f := s.emptyObuf.beginSession.countInput.buildFt)
      ⟨valid, two, most⟩
    obtain ⟨c, cgen, codes, coded⟩ := runCgen_hasCodes tree
    refine ⟨c, codes, .trans ⟨built.ibuf, built.iovf, built.obufCap⟩ coded, ?_⟩
    calc runCompress s
      _ = ((runBuild s.emptyObuf.beginSession.countInput.buildFt).andThen runCgen).andThen runEncode := run
      _ = (runCgen b).andThen runEncode := by rw [build]; rfl
      _ = runEncode c := by rw [cgen]; rfl

theorem exists_hasCodes_of_encodedFrom {s a : State} (encoded : EncodedFrom s a) (whole : s.iovf = false)
    (nonempty : s.ibuf ≠ []) (syms : ∀ e ∈ s.ibuf, IsSymbol e) (bound : s.ibuf.length ≤ 2 ^ 32 - 1) :
    ∃ c, HasCodes c ∧ SameInput s c ∧ a = (runEncode c).complete := by
  rcases encoded with compress | ⟨f, b, c, freq, build, cgen, encode⟩
  · obtain ⟨c, codes, same, run⟩ := runCompress_hasCodes whole nonempty syms bound
    exact ⟨c, codes, same, run ▸ (Host.Outcome.next.inj compress).symm⟩
  · cases (exec_freq_of_text whole nonempty syms).symm.trans freq
    have same : SameInput s (freqDone s) := ⟨rfl, rfl, rfl⟩
    obtain ⟨codes, same⟩ := exec_build_cgen_hasCodes (freqDone_hasTable nonempty bound) same build cgen
    exact ⟨c, codes, same, (Host.Outcome.next.inj encode).symm⟩

/-- Settles O59: both ways leave a session whose codes are paths from an internal root, on which the walk over the codes
of a text gives the text and ends at the root. -/
theorem decodeRecoversTheText : Obligations.DecodeRecoversTheText := by
  intro s a whole nonempty syms bound fits run ok
  obtain ⟨c, codes, ⟨ibuf, iovf, obufCap⟩, rfl⟩ := exists_hasCodes_of_encodedFrom run whole nonempty syms bound
  obtain ⟨present, done⟩ := runEncode_complete_ok ok
  rw [done]
  refine ⟨_, exec_decode_moveOutput_encodeDone codes (iovf.trans whole) present ?_, rfl, ?_, bne_self_eq_false _, rfl⟩
  · rwa [inputSyms_length, ibuf, obufCap]
  · show c.inputSyms.map (fun x => x.setWidth 8) = _
    rw [State.inputSyms, ibuf, List.map_map]
    exact List.map_congr_left fun e he => setWidth_sym (syms e he)

end Sys2Proof.Proofs
end

section
/-! The host's writes while IDLE, the accesses that do nothing, and ICLR (45_control_and_host_access.md R236, R241,
R243, R245). Every register has one index, and the indices end at 0x19 (10_state.md R29). -/

namespace Sys2Proof.Machine

/-! ## Register indices (R29, R71) -/

theorem regAt_eq_none_iff {i : Nat} : regAt i = none ↔ 0x1A ≤ i := List.getElem?_eq_none_iff

/-- No register stands at two indices (R29). -/
theorem eq_of_regAt_eq_some {i j : Nat} {r : HostReg} (hi : regAt i = some r) (hj : regAt j = some r) : i = j := by
  have bound : i < hostRegs.length := (List.getElem?_eq_some_iff.1 hi).1
  have nodup : hostRegs.Nodup := by decide
  exact (List.getElem?_inj bound nodup).1 (hi.trans hj.symm)

/-! ## Accesses -/

section
variable {s : State} (idle : s.phase = .idle)
include idle

/-- A CMD write issues the word, whatever it is (R236). -/
theorem State.hostWrite_cmd_of_idle (w : Word) : s.hostWrite 0x00 w = s.issue w :=
  if_neg (Bool.eq_false_iff.1 (State.busyBit_of_idle idle))

theorem State.hostWrite_sel_of_idle (w : Word) : s.hostWrite 0x08 w = { s with sel := w.extractLsb' 0 8 } :=
  if_neg (Bool.eq_false_iff.1 (State.busyBit_of_idle idle))

end

theorem State.readValue_of_no_reg (s : State) {i : Nat} (absent : regAt i = none) : s.readValue i = 0 := by
  rw [State.readValue, absent]

/-- Only the read of OBUF_POP has a side effect (R239). -/
theorem State.afterRead_eq_self (s : State) {i : Nat} (pop : regAt i ≠ some .obufPop) : s.afterRead i = s := by
  unfold State.afterRead
  split
  · rfl
  · split
    · exact absurd ‹_› pop
    · rfl

end Sys2Proof.Machine

namespace Sys2Proof.Proofs
open Sys2Proof Sys2Proof.Machine Sys2Proof.Claims

/-- Settles O12: while IDLE the write issues the word; while BUSY every write is lost. -/
theorem issueKeepsTheWordAndClearsTheRecord : Obligations.IssueKeepsTheWordAndClearsTheRecord := by
  intro s w
  refine ⟨fun idle => ?_, s.hostWrite_busy 0x00 w⟩
  rw [State.hostWrite_cmd_of_idle idle]
  rfl

/-- Settles O14: extracting bits 7 to 0 of a word is, by definition, reducing its number to 8 bits. -/
theorem selWriteSetsOnlySel : Obligations.SelWriteSetsOnlySel := fun _ w idle =>
  State.hostWrite_sel_of_idle idle w

/-- Settles O16: an index other than 0x00, 0x04 and 0x08 selects none of the three writable registers, and one of 0x1A
or above selects none at all. -/
theorem otherAccessesDoNothing : Obligations.OtherAccessesDoNothing := by
  intro s i w _
  refine ⟨fun cmd push sel => ?_, fun high => ?_⟩
  · exact s.hostWrite_eq_self w (fun h => cmd (eq_of_regAt_eq_some h rfl))
      (fun h => push (eq_of_regAt_eq_some h rfl)) (fun h => sel (eq_of_regAt_eq_some h rfl))
  · have absent : regAt i = none := regAt_eq_none_iff.2 high
    exact ⟨s.readValue_of_no_reg absent, s.afterRead_eq_self (by simp [absent])⟩

/-- Settles O34: word 2 is ICLR's encoding, and ICLR's two assignments are followed by the ok completion. -/
theorem iclrEmptiesTheInputBuffer : Obligations.IclrEmptiesTheInputBuffer :=
  ⟨decodeWord_eq_ok_iff.2 rfl, fun _ => rfl⟩

end Sys2Proof.Proofs
end

section
/-! Reset (70_reset_and_hazards.md R291): what every register shows in the reset state, and what every index reads. -/

namespace Sys2Proof.Machine

/-- Each register has its own index and each index its one register (R29). -/
theorem reg_eq_iff_index_eq {i j : Nat} {r q : HostReg} (hi : regAt i = some r) (hj : regAt j = some q) :
    r = q ↔ i = j := by
  constructor
  · rintro rfl
    exact eq_of_regAt_eq_some hi hj
  · rintro rfl
    exact Option.some.inj (hi.symm.trans hj)

/-- Every field of STATUS is 0 at reset (R57); none is a capacity. -/
theorem State.statusWord_resetWith (a b : Nat) : (State.resetWith a b).statusWord = 0 := by
  have sameForAll : (State.resetWith a b).statusWord = (State.resetWith 0 0).statusWord := rfl
  rw [sameForAll]
  decide

/-- At reset OBUF is empty, the two node indices are NIL, every window's gate is shut, and the rest is 0. -/
theorem State.regValue_resetWith (a b : Nat) (r : HostReg) :
    (State.resetWith a b).regValue r =
      if r = .obufPop then 0x80000000 else if r = .root ∨ r = .cur then 0x000000FF else 0 := by
  have cntShut : (State.resetWith a b).cntPresent = false := rfl
  have ftShut : (State.resetWith a b).ftPresent = false := rfl
  have nodeShut : (State.resetWith a b).nodePresent = false := rfl
  have ctShut : (State.resetWith a b).ctPresent = false := rfl
  cases r with
  | status => exact State.statusWord_resetWith a b
  | cnt => simp [State.regValue, cntShut]
  | ftSym | ftPlo | ftPhi => simp [State.regValue, ftShut]
  | nodeInfo | nodePlo | nodePhi => simp [State.regValue, nodeShut]
  | ctInfo | ctBits0 | ctBits1 | ctBits2 | ctBits3 => simp [State.regValue, ctShut]
  | _ => rfl

end Sys2Proof.Machine

namespace Sys2Proof.Proofs
open Sys2Proof Sys2Proof.Machine Sys2Proof.Claims

/-- Settles O24: the reset state is IDLE, so an index reads what its register shows; an index without one reads 0. -/
theorem resetRegisterValues : Obligations.ResetRegisterValues := by
  intro a b i
  cases hr : regAt i with
  | none =>
    have high : 0x1A ≤ i := regAt_eq_none_iff.1 hr
    rw [State.readValue_of_no_reg _ hr, if_neg (by omega), if_neg (by omega)]
  | some r =>
    have pop : r = .obufPop ↔ i = 0x06 := reg_eq_iff_index_eq hr rfl
    have root : r = .root ↔ i = 0x0F := reg_eq_iff_index_eq hr rfl
    have cur : r = .cur ↔ i = 0x19 := reg_eq_iff_index_eq hr rfl
    rw [State.readValue_of_idle rfl i r hr, State.regValue_resetWith]
    simp only [pop, root, cur]

end Sys2Proof.Proofs
end

section
/-! One step from any state, said once for the invariants (45_control_and_host_access.md R235 to R243). A step is a
command's completion, or a host access, whose effect on HUFFCORE is one of seven; the rest is the host's own side. -/

namespace Sys2Proof.Proofs
open Sys2Proof Sys2Proof.Machine Sys2Proof.Claims

/-! ## Host accesses -/

/-- HUFFCORE is the same; the host's own side may differ. -/
inductive SameEngine (s : State) : State → Prop
  | intro (script : List HostAction) (reads : List Word) (left : Nat) (draws : List Nat) (issued : Nat) :
    SameEngine s { s with
      hostScript := script, hostReads := reads, busyLeft := left, busyDraws := draws, issued := issued }

theorem SameEngine.refl (s : State) : SameEngine s s := .intro ..

theorem SameEngine.trans {s t u : State} (h : SameEngine s t) (h' : SameEngine t u) : SameEngine s u := by
  obtain ⟨_, _, _, _, _⟩ := h
  obtain ⟨_, _, _, _, _⟩ := h'
  exact .intro ..

theorem sameEngine_setScript (s : State) (rest : List HostAction) : SameEngine s (s.setScript rest) := .intro ..

theorem sameEngine_spendDelay (s : State) : SameEngine s s.spendDelay := by
  rw [s.spendDelay_frame]
  exact .intro ..

/-- What one access does to HUFFCORE (R236, R239 to R243, R290). -/
inductive HostEffect (s : State) : State → Prop
  | nothing : HostEffect s s
  | pop : HostEffect s { s with obuf := s.obuf.tail }
  | issue (w : Word) : s.phase = .idle → HostEffect s (s.issue w)
  | push (e : Elem) : s.ibuf.length < s.ibufCap → HostEffect s { s with ibuf := s.ibuf ++ [e] }
  | overflow : s.ibufCap ≤ s.ibuf.length → HostEffect s { s with iovf := true }
  | select (sel : BitVec 8) : HostEffect s { s with sel := sel }
  | reset : HostEffect s s.assertReset

theorem hostEffect_afterRead (s : State) (i : Nat) : HostEffect s (s.afterRead i) := by
  unfold State.afterRead
  split
  · exact .nothing
  · split
    · exact .pop
    · exact .nothing

theorem hostEffect_hostWrite (s : State) (i : Nat) (w : Word) : HostEffect s (s.hostWrite i w) := by
  rcases s.hostWrite_cases i w with h | ⟨idle, h⟩ | h | h <;> rw [h]
  · exact .nothing
  · exact .issue w idle
  · rcases s.pushElem_cases (elemOfWord w) with ⟨room, h⟩ | ⟨full, h⟩ <;> rw [h]
    · exact .push _ room
    · exact .overflow full
  · exact .select _

theorem hostEffect_hostRead (s : State) (i : Nat) : ∃ u, HostEffect s u ∧ SameEngine u (s.hostRead i) :=
  ⟨_, hostEffect_afterRead s i, .intro ..⟩

/-- A read may leave a loop at the head of the script (R117). -/
theorem hostEffect_hostRead_or_again (s : State) (i : Nat) (script : List HostAction) {t : State}
    (h : t = s.hostRead i ∨ t = (s.hostRead i).setScript script) : ∃ u, HostEffect s u ∧ SameEngine u t := by
  obtain ⟨u, effect, same⟩ := hostEffect_hostRead s i
  rcases h with rfl | rfl
  · exact ⟨u, effect, same⟩
  · exact ⟨u, effect, same.trans (sameEngine_setScript ..)⟩

/-- An action of the host is one access, seen between two moves of the host's own side. -/
theorem hostStep_next {s v : State} {a : HostAction} {rest : List HostAction} (h : s.hostStep a rest = .next v) :
    ∃ t u, SameEngine s t ∧ HostEffect t u ∧ SameEngine u v := by
  refine ⟨s.spendDelay.setScript rest, ?_⟩
  have same : SameEngine s (s.spendDelay.setScript rest) :=
    (sameEngine_spendDelay s).trans (sameEngine_setScript ..)
  suffices ∃ u, HostEffect (s.spendDelay.setScript rest) u ∧ SameEngine u v by
    obtain ⟨u, effect, after⟩ := this
    exact ⟨u, same, effect, after⟩
  cases a with
  | rd i => cases h; exact hostEffect_hostRead _ i
  | wr i w => cases h; exact ⟨_, hostEffect_hostWrite _ i w, .refl _⟩
  | wait =>
    cases h
    refine hostEffect_hostRead_or_again _ statusIndex (.wait :: rest) ?_
    split
    · exact .inr rfl
    · exact .inl rfl
  | popAll =>
    cases h
    refine hostEffect_hostRead_or_again _ obufPopIndex (.popAll :: rest) ?_
    split
    · exact .inl rfl
    · exact .inr rfl
  | busRd offset size =>
    simp only [State.hostStep] at h
    split at h
    · cases h; exact hostEffect_hostRead _ _
    · cases h
  | busWr offset size w =>
    simp only [State.hostStep] at h
    split at h
    · cases h; exact ⟨_, hostEffect_hostWrite _ _ w, .refl _⟩
    · cases h
  | rst => cases h; exact ⟨_, .reset, .refl _⟩

/-! ## Commands -/

/-- The pseudocode of a command. -/
def runOf : Instr → State → Run
  | .clr => runClr
  | .iclr => runIclr
  | .freq => runFreq
  | .build => runBuild
  | .cgen => runCgen
  | .encode => runEncode
  | .decode => runDecode
  | .pack => runPack
  | .unpack => runUnpack
  | .compress => runCompress

/-- A command's next state is its pseudocode's completion; BUILD has one only in range (R158). -/
theorem exec_next {i : Instr} {s t : State} (h : exec i s = .next t) :
    t = (runOf i s).complete ∧ (i = .build → s.leavesOutOfRange = false) := by
  cases i with
  | build =>
    cases range : s.leavesOutOfRange with
    | true => simp [exec, execBuild, range] at h
    | false => exact ⟨(Host.Outcome.next.inj ((exec_build_of_in_range range).symm.trans h)).symm, fun _ => rfl⟩
  | _ => exact ⟨(Host.Outcome.next.inj h).symm, nofun⟩

/-- An invariant is kept by every step if the host's accesses and the completions keep it. -/
theorem step_keeps {P : State → Prop} (engine : ∀ s t, SameEngine s t → P s → P t)
    (host : ∀ s t, HostEffect s t → P s → P t)
    (command : ∀ i s, P s → P (runOf i s).complete)
    (illegal : ∀ s, P s → P s.completeIllegal) {s t : State} (hs : P s) (h : step s = .next t) : P t := by
  rcases step_cases s with ⟨-, i, -, hstep⟩ | ⟨-, -, hstep⟩ | ⟨-, a, rest, -, hstep⟩ | ⟨-, -, hstep⟩ <;>
    rw [hstep] at h
  · exact (exec_next h).1 ▸ command i s hs
  · cases h; exact illegal s hs
  · obtain ⟨_, _, before, effect, after⟩ := hostStep_next h
    exact engine _ _ after (host _ _ effect (engine _ _ before hs))
  · cases h; exact hs

theorem andThen_keeps {P : State → Prop} {f : State → Run} (hf : ∀ s, P s → P (f s).state) {r : Run}
    (hr : P r.state) : P (r.andThen f).state := by
  cases r with
  | ok s => exact hf s hr
  | raise e s => exact hr

/-- The session's structures and the record are the same; buffers, walker, SEL and IOVF may differ. -/
inductive SameSession (s : State) : State → Prop
  | intro (midcode iovf : Bool) (cur : NodeIdx) (sel : BitVec 8) (ibuf : List Elem) (obuf : List Byte)
      (bitbuf : Bits) :
    SameSession s { s with
      midcode := midcode, iovf := iovf, cur := cur, sel := sel, ibuf := ibuf, obuf := obuf, bitbuf := bitbuf }

/-- Only the output and BITBUF may differ. -/
inductive OutputOnly (s : State) : State → Prop
  | intro (obuf : List Byte) (bitbuf : Bits) : OutputOnly s { s with obuf := obuf, bitbuf := bitbuf }

theorem OutputOnly.sameSession {s t : State} (h : OutputOnly s t) : SameSession s t := by
  obtain ⟨_, _⟩ := h
  exact .intro ..

theorem outputOnly_runPack (s : State) : OutputOnly s (runPack s).state := by
  rcases runPack_cases s with ⟨_, -, h⟩ | ⟨-, -, h⟩ | ⟨-, -, h⟩ <;> rw [h] <;> exact .intro ..

theorem outputOnly_runUnpack (s : State) : OutputOnly s (runUnpack s).state := by
  rcases runUnpack_cases s with ⟨_, -, h⟩ | ⟨-, -, h⟩ | ⟨-, -, h⟩ <;> rw [h] <;> exact .intro ..

theorem outputOnly_runEncode (s : State) : OutputOnly s (runEncode s).state := by
  rcases runEncode_cases s with ⟨-, h⟩ | ⟨-, _, -, h⟩ | ⟨-, -, -, h⟩ | ⟨-, -, -, h⟩ <;>
    rw [h] <;> exact .intro ..

theorem sameSession_runDecode (s : State) : SameSession s (runDecode s).state := by
  rcases runDecode_cases s with ⟨-, h⟩ | ⟨-, _, -, h⟩ | ⟨-, -, -, h⟩ | ⟨-, -, -, h⟩ <;>
    rw [h] <;> exact .intro ..

/-- Only the session's structures, with the queue pointers, may differ. -/
inductive SessionOnly (s : State) : State → Prop
  | intro (ftValid treeValid ctValid synth : Bool) (cnt : Vector Word 128) (total : Word)
      (ft : Vector FtEntry 128) (ftLen : BitVec 8) (node : Vector Node 255) (nodeCnt : BitVec 8) (root : NodeIdx)
      (ct : Vector CtEntry 128) (sqHead tqHead tqTail : BitVec 8) :
    SessionOnly s { s with
      ftValid := ftValid, treeValid := treeValid, ctValid := ctValid, synth := synth, cnt := cnt, total := total
      ft := ft, ftLen := ftLen, node := node, nodeCnt := nodeCnt, root := root, ct := ct
      sqHead := sqHead, tqHead := tqHead, tqTail := tqTail }

theorem sessionOnly_runFreq (s : State) : SessionOnly s (runFreq s).state := by
  rcases runFreq_cases s with ⟨_, -, h⟩ | ⟨-, h⟩ <;> rw [h] <;> exact .intro ..

theorem sessionOnly_runBuild (s : State) : SessionOnly s (runBuild s).state := by
  rcases runBuild_cases s with ⟨-, h⟩ | ⟨-, h⟩ <;> rw [h]
  · exact .intro ..
  · obtain ⟨_, _, _, _, loop⟩ := mergeLoop_frame 127 s.dropTree.loadLeaves
    rw [loop]
    exact .intro ..

theorem sessionOnly_runCgen (s : State) : SessionOnly s (runCgen s).state := by
  rcases runCgen_cases s with ⟨-, h⟩ | ⟨-, h⟩ <;> rw [h]
  · exact .intro ..
  · rw [State.writeCodes_frame]
    exact .intro ..

/-- COMPRESS moves the session and the output alone (R226). -/
theorem runCompress_keeps {P : State → Prop} (session : ∀ t u, SessionOnly t u → P t → P u)
    (output : ∀ t u, OutputOnly t u → P t → P u) {s : State} (hs : P s) : P (runCompress s).state :=
  andThen_keeps (fun t => output t _ (outputOnly_runEncode t)) <|
    andThen_keeps (fun t => session t _ (sessionOnly_runCgen t)) <|
      andThen_keeps (fun t => session t _ (sessionOnly_runBuild t)) <|
        session _ _ (sessionOnly_runFreq s.emptyObuf) (output s _ (.intro ..) hs)

/-- A property of the session is kept by every command if FREQ, BUILD and CGEN keep it, and the end of a session. -/
theorem runOf_keeps {P : State → Prop} {s : State}
    (freq : ∀ t, t.ibuf = s.ibuf → P t → P (runFreq t).state)
    (build : ∀ t, P t → P (runBuild t).state) (cgen : ∀ t, P t → P (runCgen t).state)
    (ended : ∀ t, P t → P t.beginSession) (same : ∀ t u, SameSession t u → P t → P u) (i : Instr) (hs : P s) :
    P (runOf i s).state := by
  have encode : ∀ t, P t → P (runEncode t).state := fun t => same _ _ (outputOnly_runEncode t).sameSession
  cases i with
  | clr => exact same _ _ (.intro ..) (ended s hs)
  | iclr => exact same _ _ (.intro ..) hs
  | freq => exact freq s rfl hs
  | build => exact build s hs
  | cgen => exact cgen s hs
  | encode => exact encode s hs
  | decode => exact same _ _ (sameSession_runDecode s) hs
  | pack => exact same _ _ (outputOnly_runPack s).sameSession hs
  | unpack => exact same _ _ (outputOnly_runUnpack s).sameSession hs
  | compress =>
    have emptied : P s.emptyObuf := same _ _ (.intro ..) hs
    exact andThen_keeps encode (andThen_keeps cgen (andThen_keeps build (freq _ rfl emptied)))

end Sys2Proof.Proofs
end

section
/-! The invariants of the flags, the buffers and the gated elements, kept by every step from any state (10_state.md R28,
R41 to R44, R49, R50, R270). -/

namespace Sys2Proof.Proofs
open Sys2Proof Sys2Proof.Machine Sys2Proof.Claims

/-! ## The flags (R28, R115) -/

/-- The clauses of R28 on the session's flags. -/
structure SessionFlags (s : State) : Prop where
  ct_tree : s.ctValid = true → s.treeValid = true
  tree_ft : s.treeValid = true → s.ftValid = true
  synth_two : s.synth = true → s.ftValid = true ∧ s.ftLen = 2

theorem sessionFlags_of_flagInv {s : State} (h : s.FlagInv) : SessionFlags s :=
  ⟨h.ct_tree, h.tree_ft, h.synth_two⟩

/-- The record of a completion meets its clauses by itself (R24, R271). -/
theorem flagInv_complete {r : Run} (h : SessionFlags r.state) : r.complete.FlagInv := by
  obtain ⟨ct_tree, tree_ft, synth_two⟩ := h
  cases r with
  | ok s =>
    exact ⟨ct_tree, tree_ft, synth_two, nofun, ⟨fun h => absurd rfl h, nofun⟩, Nat.zero_le _, nofun⟩
  | raise e s =>
    exact ⟨ct_tree, tree_ft, synth_two, fun _ => rfl, ⟨fun _ => rfl, fun _ => e.error.code_ne_zero⟩,
      e.error.code_range.2, nofun⟩

/-- An entry is injected into a list of one (R137). -/
theorem fixUp_length_of_synth {es : List FtEntry} (h : (fixUp es).2 = true) : (fixUp es).1.length = 2 := by
  match es with
  | [_] => rfl
  | [] | _ :: _ :: _ => cases h

theorem sessionFlags_beginSession (s : State) : SessionFlags s.beginSession := ⟨nofun, nofun, nofun⟩

theorem sessionFlags_runFreq (s : State) : SessionFlags (runFreq s).state := by
  rcases runFreq_cases s with ⟨_, -, h⟩ | ⟨-, h⟩ <;> rw [h]
  · exact sessionFlags_beginSession s
  · refine ⟨nofun, nofun, fun synth => ⟨rfl, ?_⟩⟩
    rw [Run.state, State.buildFt_synth] at synth
    rw [Run.state, State.buildFt_ftLen, fixUp_length_of_synth synth]
    rfl

theorem sessionFlags_runBuild {s : State} (hs : SessionFlags s) : SessionFlags (runBuild s).state := by
  rcases runBuild_cases s with ⟨-, h⟩ | ⟨valid, h⟩ <;> rw [h]
  · exact hs
  · obtain ⟨_, _, _, _, loop⟩ := mergeLoop_frame 127 s.dropTree.loadLeaves
    rw [loop]
    exact ⟨nofun, fun _ => valid, hs.synth_two⟩

theorem sessionFlags_runCgen {s : State} (hs : SessionFlags s) : SessionFlags (runCgen s).state := by
  rcases runCgen_cases s with ⟨-, h⟩ | ⟨valid, h⟩ <;> rw [h]
  · exact hs
  · rw [State.writeCodes_frame]
    exact ⟨fun _ => valid, hs.tree_ft, hs.synth_two⟩

theorem sessionFlags_sameSession {s t : State} (h : SameSession s t) (hs : SessionFlags s) : SessionFlags t := by
  obtain ⟨⟩ := h
  exact ⟨hs.ct_tree, hs.tree_ft, hs.synth_two⟩

theorem sessionFlags_runOf (i : Instr) {s : State} (hs : SessionFlags s) : SessionFlags (runOf i s).state :=
  runOf_keeps (fun t _ _ => sessionFlags_runFreq t) (fun _ => sessionFlags_runBuild) (fun _ => sessionFlags_runCgen)
    (fun t _ => sessionFlags_beginSession t) (fun _ _ => sessionFlags_sameSession) i hs

theorem flagInv_sameEngine {s t : State} (h : SameEngine s t) (hs : s.FlagInv) : t.FlagInv := by
  obtain ⟨⟩ := h
  exact ⟨hs.ct_tree, hs.tree_ft, hs.synth_two, hs.err_done, hs.errcode_err, hs.errcode_range, hs.busy_clear⟩

theorem flagInv_resetWith (a b : Nat) : (State.resetWith a b).FlagInv :=
  ⟨nofun, nofun, nofun, nofun, ⟨fun h => absurd rfl h, nofun⟩, Nat.zero_le _, nofun⟩

theorem flagInv_hostEffect {s t : State} (h : HostEffect s t) (hs : s.FlagInv) : t.FlagInv := by
  cases h with
  | nothing => exact hs
  | issue w idle =>
    exact ⟨hs.ct_tree, hs.tree_ft, hs.synth_two, nofun, ⟨fun h => absurd rfl h, nofun⟩, Nat.zero_le _,
      fun _ => ⟨rfl, rfl⟩⟩
  | reset => exact flagInv_sameEngine (.intro ..) (flagInv_resetWith s.ibufCap s.obufCap)
  | pop | push | overflow | select =>
    exact ⟨hs.ct_tree, hs.tree_ft, hs.synth_two, hs.err_done, hs.errcode_err, hs.errcode_range, hs.busy_clear⟩

/-- Settles O27: a completion writes a whole record, and every command's pseudocode keeps the clauses on the session's
flags; of the host's accesses only the issue and the reset touch a flag. -/
theorem flagInvariantIsKept : Obligations.FlagInvariantIsKept := fun _ _ =>
  step_keeps (fun _ _ => flagInv_sameEngine) (fun _ _ => flagInv_hostEffect)
    (fun i _ hs => flagInv_complete (sessionFlags_runOf i (sessionFlags_of_flagInv hs)))
    (fun s hs => flagInv_complete (r := .raise ⟨.illegalCommand, s.pend, 0⟩ s) (sessionFlags_of_flagInv hs))

/-! ## The buffers (R49, R50, R270) -/

/-- The parameters and the buffers' bounds. -/
def BuffersOk (s : State) : Prop := s.ParamsOk ∧ s.BufferInv

/-- Everything `BuffersOk` reads but OBUF is the same, and OBUF fits. -/
structure SameInputSide (s t : State) : Prop where
  ibufCap : t.ibufCap = s.ibufCap
  obufCap : t.obufCap = s.obufCap
  ibuf : t.ibuf = s.ibuf
  iovf : t.iovf = s.iovf
  bitbuf : s.bitbuf = [] → t.bitbuf = []
  obuf_cap : s.obuf.length ≤ s.obufCap → t.obuf.length ≤ t.obufCap

/-- A state with an empty BITBUF meets the clauses on it. -/
theorem bufferInv_of_bitbuf_empty {s : State} (ibuf_cap : s.ibuf.length ≤ s.ibufCap)
    (obuf_cap : s.obuf.length ≤ s.obufCap) (iovf_full : s.iovf = true → s.ibuf.length = s.ibufCap)
    (bitbuf_empty : s.bitbuf = []) : s.BufferInv :=
  ⟨ibuf_cap, obuf_cap, iovf_full, by simp [bitbuf_empty], bitbuf_empty⟩

theorem SameInputSide.buffersOk {s t : State} (h : SameInputSide s t) (hs : BuffersOk s) : BuffersOk t := by
  obtain ⟨params, bounds⟩ := hs
  refine ⟨?_, bufferInv_of_bitbuf_empty ?_ (h.obuf_cap bounds.obuf_cap) ?_ (h.bitbuf bounds.bitbuf_empty)⟩
  · rwa [State.ParamsOk, h.ibufCap, h.obufCap]
  · rw [h.ibuf, h.ibufCap]
    exact bounds.ibuf_cap
  · rw [h.iovf, h.ibuf, h.ibufCap]
    exact bounds.iovf_full

/-- The four commands with an output leave none, or one they have tested against OBUF_CAP (R190, R200, R213, R220). -/
theorem sameInputSide_of_output (s : State) {t : State} (out : List Byte) (fits : out.length ≤ s.obufCap)
    (midcode : Bool) (cur : NodeIdx) (bits : Bits) (empty : s.bitbuf = [] → bits = [])
    (ht : t = { s with obuf := out, midcode := midcode, cur := cur, bitbuf := bits }) : SameInputSide s t := by
  subst ht
  exact ⟨rfl, rfl, rfl, rfl, empty, fun _ => fits⟩

theorem sameInputSide_runPack (s : State) : SameInputSide s (runPack s).state := by
  rcases runPack_cases s with ⟨_, -, h⟩ | ⟨-, -, h⟩ | ⟨-, fits, h⟩ <;> rw [h]
  · exact sameInputSide_of_output s [] (Nat.zero_le _) _ _ _ id rfl
  · exact sameInputSide_of_output s [] (Nat.zero_le _) _ _ _ id rfl
  · exact sameInputSide_of_output s _ (by rwa [packBits_length]) _ _ [] (fun _ => rfl) rfl

theorem sameInputSide_runUnpack (s : State) : SameInputSide s (runUnpack s).state := by
  rcases runUnpack_cases s with ⟨_, -, h⟩ | ⟨-, -, h⟩ | ⟨-, fits, h⟩ <;> rw [h]
  · exact sameInputSide_of_output s [] (Nat.zero_le _) _ _ _ id rfl
  · exact sameInputSide_of_output s [] (Nat.zero_le _) _ _ [] (fun _ => rfl) rfl
  · exact sameInputSide_of_output s _ (by rwa [List.length_map]) _ _ [] (fun _ => rfl) rfl

theorem sameInputSide_runEncode (s : State) : SameInputSide s (runEncode s).state := by
  rcases runEncode_cases s with ⟨-, h⟩ | ⟨-, _, -, h⟩ | ⟨-, -, -, h⟩ | ⟨-, -, fits, h⟩ <;> rw [h]
  · exact sameInputSide_of_output s [] (Nat.zero_le _) _ _ _ id rfl
  · exact sameInputSide_of_output s [] (Nat.zero_le _) _ _ _ id rfl
  · exact sameInputSide_of_output s [] (Nat.zero_le _) _ _ _ id rfl
  · exact sameInputSide_of_output s _ (by rwa [packBits_length]) _ _ [] (fun _ => rfl) rfl

theorem sameInputSide_runDecode (s : State) : SameInputSide s (runDecode s).state := by
  rcases runDecode_cases s with ⟨-, h⟩ | ⟨-, _, -, h⟩ | ⟨-, -, -, h⟩ | ⟨-, -, fits, h⟩ <;> rw [h]
  · exact sameInputSide_of_output s [] (Nat.zero_le _) _ _ _ id rfl
  · exact sameInputSide_of_output s [] (Nat.zero_le _) _ _ _ id rfl
  · exact sameInputSide_of_output s [] (Nat.zero_le _) _ _ [] (fun _ => rfl) rfl
  · exact sameInputSide_of_output s _ (by rwa [List.length_map]) _ _ [] (fun _ => rfl) rfl

theorem sameInputSide_of_sessionOnly {s t : State} (h : SessionOnly s t) : SameInputSide s t := by
  obtain ⟨⟩ := h
  exact ⟨rfl, rfl, rfl, rfl, id, id⟩

theorem buffersOk_runOf (i : Instr) {s : State} (hs : BuffersOk s) : BuffersOk (runOf i s).state := by
  have freq : ∀ t, BuffersOk t → BuffersOk (runFreq t).state := fun t => 
    (sameInputSide_of_sessionOnly (sessionOnly_runFreq t)).buffersOk
  have build : ∀ t, BuffersOk t → BuffersOk (runBuild t).state := fun t => 
    (sameInputSide_of_sessionOnly (sessionOnly_runBuild t)).buffersOk
  have cgen : ∀ t, BuffersOk t → BuffersOk (runCgen t).state := fun t => 
    (sameInputSide_of_sessionOnly (sessionOnly_runCgen t)).buffersOk
  have encode : ∀ t, BuffersOk t → BuffersOk (runEncode t).state := fun t => (sameInputSide_runEncode t).buffersOk
  cases i with
  | clr => exact ⟨hs.1, bufferInv_of_bitbuf_empty (Nat.zero_le _) (Nat.zero_le _) nofun hs.2.bitbuf_empty⟩
  | iclr => exact ⟨hs.1, bufferInv_of_bitbuf_empty (Nat.zero_le _) hs.2.obuf_cap nofun hs.2.bitbuf_empty⟩
  | freq => exact freq s hs
  | build => exact build s hs
  | cgen => exact cgen s hs
  | encode => exact encode s hs
  | decode => exact (sameInputSide_runDecode s).buffersOk hs
  | pack => exact (sameInputSide_runPack s).buffersOk hs
  | unpack => exact (sameInputSide_runUnpack s).buffersOk hs
  | compress =>
    have emptied : BuffersOk s.emptyObuf :=
      (sameInputSide_of_output s [] (Nat.zero_le _) s.midcode s.cur s.bitbuf id rfl).buffersOk hs
    exact andThen_keeps encode (andThen_keeps cgen (andThen_keeps build (freq _ emptied)))

theorem buffersOk_complete {r : Run} (h : BuffersOk r.state) : BuffersOk r.complete := by
  refine SameInputSide.buffersOk ?_ h
  cases r <;> exact ⟨rfl, rfl, rfl, rfl, id, id⟩

theorem buffersOk_sameEngine {s t : State} (h : SameEngine s t) : BuffersOk s → BuffersOk t := by
  obtain ⟨⟩ := h
  exact SameInputSide.buffersOk ⟨rfl, rfl, rfl, rfl, id, id⟩

theorem bufferInv_resetWith (a b : Nat) : (State.resetWith a b).BufferInv :=
  bufferInv_of_bitbuf_empty (Nat.zero_le _) (Nat.zero_le _) nofun rfl

theorem buffersOk_hostEffect {s t : State} (h : HostEffect s t) (hs : BuffersOk s) : BuffersOk t := by
  obtain ⟨params, bounds⟩ := hs
  cases h with
  | nothing => exact ⟨params, bounds⟩
  | issue w idle => exact SameInputSide.buffersOk (s := s) ⟨rfl, rfl, rfl, rfl, id, id⟩ ⟨params, bounds⟩
  | select sel => exact SameInputSide.buffersOk (s := s) ⟨rfl, rfl, rfl, rfl, id, id⟩ ⟨params, bounds⟩
  | pop =>
    refine SameInputSide.buffersOk (s := s) ⟨rfl, rfl, rfl, rfl, id, fun h => ?_⟩ ⟨params, bounds⟩
    exact le_trans (by simp) h
  | push e room =>
    refine ⟨params, bufferInv_of_bitbuf_empty ?_ bounds.obuf_cap (fun overflowed => ?_) bounds.bitbuf_empty⟩
    · rw [List.length_append]
      exact room
    · exact absurd (bounds.iovf_full overflowed) room.ne
  | overflow full =>
    exact ⟨params, bufferInv_of_bitbuf_empty bounds.ibuf_cap bounds.obuf_cap
      (fun _ => le_antisymm bounds.ibuf_cap full) bounds.bitbuf_empty⟩
  | reset => exact buffersOk_sameEngine (.intro ..) ⟨params, bufferInv_resetWith s.ibufCap s.obufCap⟩

/-- Settles O28: a command leaves no output or one tested against OBUF_CAP; a push into a full IBUF sets IOVF, and one
into an IBUF with room finds IOVF = 0, since IOVF is set on a full IBUF only. -/
theorem bufferBoundsAreKept : Obligations.BufferBoundsAreKept := fun _ _ =>
  step_keeps (P := BuffersOk) (fun _ _ => buffersOk_sameEngine) (fun _ _ => buffersOk_hostEffect)
    (fun i _ hs => buffersOk_complete (buffersOk_runOf i hs))
    (fun s => buffersOk_complete (r := .raise ⟨.illegalCommand, s.pend, 0⟩ s))

/-! ## The gated elements (R41, R43, R44) -/

theorem gateInv_beginSession (s : State) : s.beginSession.GateInv :=
  ⟨fun _ => rfl, fun _ => ⟨rfl, rfl⟩, fun _ => s.ctAt_beginSession⟩

theorem gateInv_runFreq (s : State) : (runFreq s).state.GateInv := by
  rcases runFreq_cases s with ⟨_, -, h⟩ | ⟨-, h⟩ <;> rw [h]
  · exact gateInv_beginSession s
  · exact ⟨nofun, fun _ => ⟨rfl, rfl⟩, fun _ => s.ctAt_beginSession⟩

theorem gateInv_runBuild {s : State} (hs : s.GateInv) : (runBuild s).state.GateInv := by
  rcases runBuild_cases s with ⟨-, h⟩ | ⟨-, h⟩ <;> rw [h]
  · exact hs
  · obtain ⟨_, _, _, _, loop⟩ := mergeLoop_frame 127 s.dropTree.loadLeaves
    rw [loop]
    exact ⟨hs.ft, nofun, fun _ => s.ctAt_dropTree⟩

theorem gateInv_runCgen {s : State} (hs : s.GateInv) : (runCgen s).state.GateInv := by
  rcases runCgen_cases s with ⟨-, h⟩ | ⟨-, h⟩ <;> rw [h]
  · exact hs
  · rw [State.writeCodes_frame]
    exact ⟨hs.ft, hs.tree, nofun⟩

theorem gateInv_sameSession {s t : State} (h : SameSession s t) (hs : s.GateInv) : t.GateInv := by
  obtain ⟨⟩ := h
  exact ⟨hs.ft, hs.tree, hs.ct⟩

theorem gateInv_runOf (i : Instr) {s : State} (hs : s.GateInv) : (runOf i s).state.GateInv :=
  runOf_keeps (fun t _ _ => gateInv_runFreq t) (fun _ => gateInv_runBuild) (fun _ => gateInv_runCgen)
    (fun t _ => gateInv_beginSession t) (fun _ _ => gateInv_sameSession) i hs

theorem gateInv_complete {r : Run} (h : r.state.GateInv) : r.complete.GateInv := by
  cases r <;> exact ⟨h.ft, h.tree, h.ct⟩

theorem gateInv_sameEngine {s t : State} (h : SameEngine s t) (hs : s.GateInv) : t.GateInv := by
  obtain ⟨⟩ := h
  exact ⟨hs.ft, hs.tree, hs.ct⟩

theorem noCodes_resetWith (a b : Nat) : NoCodes (State.resetWith a b) := fun x =>
  congrArg CtEntry.valid (Vector.getElem_replicate x.isLt)

theorem gateInv_resetWith (a b : Nat) : (State.resetWith a b).GateInv :=
  ⟨fun _ => rfl, fun _ => ⟨rfl, rfl⟩, fun _ => noCodes_resetWith a b⟩

theorem gateInv_hostEffect {s t : State} (h : HostEffect s t) (hs : s.GateInv) : t.GateInv := by
  cases h with
  | reset => exact gateInv_sameEngine (.intro ..) (gateInv_resetWith s.ibufCap s.obufCap)
  | _ => exact ⟨hs.ft, hs.tree, hs.ct⟩

/-- Settles O29: where a command or the reset clears a valid flag it clears what the flag gates. -/
theorem gatedElementsStayCleared : Obligations.GatedElementsStayCleared := fun _ _ =>
  step_keeps (fun _ _ => gateInv_sameEngine) (fun _ _ => gateInv_hostEffect)
    (fun i _ hs => gateInv_complete (gateInv_runOf i hs))
    (fun s => gateInv_complete (r := .raise ⟨.illegalCommand, s.pend, 0⟩ s))

end Sys2Proof.Proofs
end

section
/-! BUILD's tree (41_tree_builder.md R152 to R161). Each merge takes two nodes from the fronts of the queues, so the
nodes taken are always those below the two fronts, each taken once: at the end every node but the last is a child
exactly once. The weights of the nodes made before decide the selections, so the leaves determine the tree. -/

namespace Sys2Proof.Proofs
open Sys2Proof Sys2Proof.Machine Sys2Proof.Claims

/-! ## Selections from the fronts (R154) -/

/-- The source front is in `0 .. L`, the target front in `L .. tail` (R152, R153). -/
structure Fronts (L tail sq tq : ℕ) : Prop where
  sq_le : sq ≤ L
  tq_ge : L ≤ tq
  tq_le : tq ≤ tail

/-- Node `j` is below the front of its queue: it has been selected. -/
def Taken (L sq tq j : ℕ) : Prop := j < sq ∨ (L ≤ j ∧ j < tq)

section
variable {w w' : ℕ → Weight} {L tail sq tq n sq' tq' : ℕ}

/-- A selection advances one of the fronts by one. -/
theorem selects_fronts (h : Selects w L tail sq tq n sq' tq') (f : Fronts L tail sq tq) :
    Fronts L tail sq' tq' ∧ sq' + tq' = sq + tq + 1 := by
  obtain ⟨sq_le, tq_ge, tq_le⟩ := f
  rcases h with ⟨rfl, rfl, rfl, lt, -⟩ | ⟨rfl, rfl, rfl, lt, -⟩
  · exact ⟨⟨lt, tq_ge, tq_le⟩, by omega⟩
  · exact ⟨⟨sq_le, by omega, lt⟩, by omega⟩

theorem selects_lt_tail (h : Selects w L tail sq tq n sq' tq') (f : Fronts L tail sq tq) : n < tail := by
  obtain ⟨-, tq_ge, tq_le⟩ := f
  rcases h with ⟨rfl, -, -, lt, -⟩ | ⟨rfl, -, -, lt, -⟩ <;> omega

theorem selects_not_taken (h : Selects w L tail sq tq n sq' tq') (f : Fronts L tail sq tq) : ¬ Taken L sq tq n := by
  obtain ⟨sq_le, tq_ge, -⟩ := f
  rcases h with ⟨rfl, -, -, lt, -⟩ | ⟨rfl, -, -, lt, -⟩ <;> unfold Taken <;> omega

theorem selects_taken_iff (h : Selects w L tail sq tq n sq' tq') (f : Fronts L tail sq tq) (j : ℕ) :
    Taken L sq' tq' j ↔ Taken L sq tq j ∨ j = n := by
  obtain ⟨sq_le, tq_ge, -⟩ := f
  rcases h with ⟨rfl, rfl, rfl, lt, -⟩ | ⟨rfl, rfl, rfl, lt, -⟩ <;> unfold Taken <;> omega

/-- A selection reads the weights of nodes made before it alone. -/
theorem selects_congr (h : Selects w L tail sq tq n sq' tq') (f : Fronts L tail sq tq)
    (agree : ∀ i, i < tail → w' i = w i) : Selects w' L tail sq tq n sq' tq' := by
  obtain ⟨sq_le, tq_ge, tq_le⟩ := f
  rcases h with ⟨hn, hsq, htq, lt, front⟩ | ⟨hn, hsq, htq, lt, front⟩
  · refine .inl ⟨hn, hsq, htq, lt, ?_⟩
    rcases tq_le.eq_or_lt with empty | some
    · exact .inl empty
    · rwa [agree sq (by omega), agree tq some]
  · refine .inr ⟨hn, hsq, htq, lt, ?_⟩
    rcases sq_le.eq_or_lt with empty | some
    · exact .inl empty
    · rwa [agree sq (by omega), agree tq lt]

/-- The weights decide every selection. -/
theorem selects_unique {n₂ sq₂ tq₂ : ℕ} (h : Selects w L tail sq tq n sq' tq')
    (h₂ : Selects w L tail sq tq n₂ sq₂ tq₂) : n = n₂ ∧ sq' = sq₂ ∧ tq' = tq₂ := by
  have clash (source : sq < L) (target : tq < tail) (le : tq = tail ∨ wLe (w sq) (w tq) = true)
      (not_le : sq = L ∨ wLe (w sq) (w tq) = false) : False :=
    Bool.false_ne_true ((not_le.resolve_left source.ne).symm.trans (le.resolve_left target.ne))
  rcases h with ⟨rfl, rfl, rfl, lt, front⟩ | ⟨rfl, rfl, rfl, lt, front⟩ <;>
    rcases h₂ with ⟨rfl, rfl, rfl, lt₂, front₂⟩ | ⟨rfl, rfl, rfl, lt₂, front₂⟩
  · exact ⟨rfl, rfl, rfl⟩
  · exact (clash lt lt₂ front front₂).elim
  · exact (clash lt₂ lt front₂ front).elim
  · exact ⟨rfl, rfl, rfl⟩

end

/-! ## A chain of merges (R155, R156) -/

/-- Merge `k` selects its two children one after the other from the nodes below `L + k`. -/
structure MergeChain (w : ℕ → Weight) (L : ℕ) (sq tq : ℕ → ℕ) (child : ℕ → Bool → ℕ) : Prop where
  sq_zero : sq 0 = 0
  tq_zero : tq 0 = L
  merge : ∀ k, k + 1 < L → ∃ sm tm,
    Selects w L (L + k) (sq k) (tq k) (child k false) sm tm ∧
    Selects w L (L + k) sm tm (child k true) (sq (k + 1)) (tq (k + 1))

section
variable {w : ℕ → Weight} {L : ℕ} {sq tq : ℕ → ℕ} {child : ℕ → Bool → ℕ} (chain : MergeChain w L sq tq child)
include chain

/-- After `k` merges `2k` nodes are taken. -/
theorem MergeChain.fronts (k : ℕ) (hk : k < L) : Fronts L (L + k) (sq k) (tq k) ∧ sq k + tq k = L + 2 * k := by
  induction k with
  | zero =>
    rw [chain.sq_zero, chain.tq_zero]
    exact ⟨⟨Nat.zero_le _, le_rfl, le_rfl⟩, by omega⟩
  | succ k ih =>
    obtain ⟨before, sum⟩ := ih (by omega)
    obtain ⟨sm, tm, first, second⟩ := chain.merge k hk
    obtain ⟨middle, sum₁⟩ := selects_fronts first before
    obtain ⟨after, sum₂⟩ := selects_fronts second middle
    exact ⟨⟨after.sq_le, after.tq_ge, by have := after.tq_le; omega⟩, by omega⟩

/-- The node just made is not yet taken. -/
theorem MergeChain.tq_succ_le (k : ℕ) (hk : k + 1 < L) : tq (k + 1) ≤ L + k := by
  obtain ⟨before, -⟩ := chain.fronts k (by omega)
  obtain ⟨sm, tm, first, second⟩ := chain.merge k hk
  exact (selects_fronts second (selects_fronts first before).1).1.tq_le

/-- At the end every node but the last is taken (R157). -/
theorem MergeChain.ends (two : 2 ≤ L) : sq (L - 1) = L ∧ tq (L - 1) = 2 * L - 2 := by
  obtain ⟨⟨sq_le, -, -⟩, sum⟩ := chain.fronts (L - 1) (by omega)
  have last := chain.tq_succ_le (L - 2) (by omega)
  rw [show L - 2 + 1 = L - 1 by omega] at last
  omega

/-- The children of a merge are two nodes made before it. -/
theorem MergeChain.children (k : ℕ) (hk : k + 1 < L) :
    (∀ b, child k b < L + k) ∧ child k false ≠ child k true := by
  obtain ⟨before, -⟩ := chain.fronts k (by omega)
  obtain ⟨sm, tm, first, second⟩ := chain.merge k hk
  have middle := (selects_fronts first before).1
  have firstTaken := (selects_taken_iff first before _).2 (.inr rfl)
  refine ⟨fun b => ?_, fun same => selects_not_taken second middle (same ▸ firstTaken)⟩
  cases b
  · exact selects_lt_tail first before
  · exact selects_lt_tail second middle

theorem MergeChain.taken_succ_iff (k : ℕ) (hk : k + 1 < L) (j : ℕ) :
    Taken L (sq (k + 1)) (tq (k + 1)) j ↔ Taken L (sq k) (tq k) j ∨ ∃ b, child k b = j := by
  obtain ⟨before, -⟩ := chain.fronts k (by omega)
  obtain ⟨sm, tm, first, second⟩ := chain.merge k hk
  rw [selects_taken_iff second (selects_fronts first before).1, selects_taken_iff first before,
    Bool.exists_bool, or_assoc, eq_comm (a := j), eq_comm (a := j)]

theorem MergeChain.child_not_taken (k : ℕ) (hk : k + 1 < L) (b : Bool) : ¬ Taken L (sq k) (tq k) (child k b) := by
  obtain ⟨before, -⟩ := chain.fronts k (by omega)
  obtain ⟨sm, tm, first, second⟩ := chain.merge k hk
  cases b
  · exact selects_not_taken first before
  · exact fun taken => selects_not_taken second (selects_fronts first before).1
      ((selects_taken_iff first before _).2 (.inl taken))

/-- A node is taken exactly when it is a child in one of the merges made. -/
theorem MergeChain.taken_iff (k : ℕ) (hk : k < L) (j : ℕ) :
    Taken L (sq k) (tq k) j ↔ ∃ i b, i < k ∧ child i b = j := by
  induction k with
  | zero =>
    rw [chain.sq_zero, chain.tq_zero]
    simp [Taken]
  | succ k ih =>
    rw [chain.taken_succ_iff k hk, ih (by omega)]
    constructor
    · rintro (⟨i, b, lt, h⟩ | ⟨b, h⟩)
      · exact ⟨i, b, by omega, h⟩
      · exact ⟨k, b, by omega, h⟩
    · rintro ⟨i, b, lt, h⟩
      rcases Nat.lt_succ_iff_lt_or_eq.1 lt with lt | rfl
      · exact .inl ⟨i, b, lt, h⟩
      · exact .inr ⟨b, h⟩

/-- No node is a child in two places. -/
theorem MergeChain.child_injective {i i' : ℕ} {b b' : Bool} (hi : i + 1 < L) (hi' : i' + 1 < L)
    (same : child i b = child i' b') : i = i' ∧ b = b' := by
  have later {i i' : ℕ} {b b' : Bool} (hi' : i' + 1 < L) (lt : i < i') : child i b ≠ child i' b' := fun same =>
    chain.child_not_taken i' hi' b' ((chain.taken_iff i' (by omega) _).2 ⟨i, b, lt, same⟩)
  rcases lt_trichotomy i i' with lt | rfl | lt
  · exact absurd same (later hi' lt)
  · have apart := (chain.children i hi).2
    match b, b' with
    | false, false | true, true => exact ⟨rfl, rfl⟩
    | false, true => exact absurd same apart
    | true, false => exact absurd same.symm apart
  · exact absurd same.symm (later hi lt)

/-- Every node but the last is a child. -/
theorem MergeChain.exists_parent (two : 2 ≤ L) {j : ℕ} (hj : j < 2 * L - 2) : ∃ i b, i + 1 < L ∧ child i b = j := by
  obtain ⟨hsq, htq⟩ := chain.ends two
  have taken : Taken L (sq (L - 1)) (tq (L - 1)) j := by
    rw [hsq, htq, Taken]
    omega
  obtain ⟨i, b, lt, h⟩ := (chain.taken_iff (L - 1) (by omega) j).1 taken
  exact ⟨i, b, by omega, h⟩

end

/-! ## The queues in the machine (R152 to R154) -/

/-- The weight of node `i`. -/
def weightAt (u : State) (i : ℕ) : Weight := (u.nodeAt (BitVec.ofNat 8 i)).prob

theorem weightAt_toNat (u : State) (i : NodeIdx) : weightAt u i.toNat = (u.nodeAt i).prob := by
  rw [weightAt, BitVec.ofNat_toNat, BitVec.setWidth_eq]

/-- The queue pointers of a merge with `L` leaves and `tail` nodes made. -/
structure Queues (L tail : ℕ) (u : State) : Prop where
  ftLen : u.ftLen.toNat = L
  tqTail : u.tqTail.toNat = tail
  fronts : Fronts L tail u.sqHead.toNat u.tqHead.toNat

theorem toNat_succ {i : BitVec 8} {n : ℕ} (h : i.toNat < n) (hn : n ≤ 255) : (i + 1).toNat = i.toNat + 1 :=
  BitVec.toNat_add_of_lt (by show _ + 1 < _; omega)

section
variable {L tail : ℕ} {u : State} (q : Queues L tail u) (leaves : L ≤ 128) (room : tail ≤ 255)
include q leaves room

/-- With a node left in a queue a selection takes it from the fronts. -/
theorem pick_selects (some : u.sqHead.toNat + u.tqHead.toNat < L + tail) :
    Selects (weightAt u) L tail u.sqHead.toNat u.tqHead.toNat u.pick.1.toNat
      u.pick.2.sqHead.toNat u.pick.2.tqHead.toNat := by
  obtain ⟨ftLen, tqTail, sq_le, tq_ge, tq_le⟩ := q
  have sourceEmpty : u.sqHead = u.ftLen ↔ u.sqHead.toNat = L := by rw [← ftLen, BitVec.toNat_inj]
  have targetEmpty : u.tqHead = u.tqTail ↔ u.tqHead.toNat = tail := by rw [← tqTail, BitVec.toNat_inj]
  have source (lt : u.sqHead.toNat < L) : (u.sqHead + 1).toNat = u.sqHead.toNat + 1 := toNat_succ lt (by omega)
  have target (lt : u.tqHead.toNat < tail) : (u.tqHead + 1).toNat = u.tqHead.toNat + 1 := toNat_succ lt room
  rw [Selects, weightAt_toNat, weightAt_toNat, State.pick]
  split
  next empty =>
    have lt : u.tqHead.toNat < tail := by have := sourceEmpty.1 empty; omega
    exact .inr ⟨rfl, rfl, target lt, lt, .inl (sourceEmpty.1 empty)⟩
  next nonempty =>
    have lt : u.sqHead.toNat < L := lt_of_le_of_ne sq_le (mt sourceEmpty.2 nonempty)
    split
    next empty => exact .inl ⟨rfl, source lt, rfl, lt, .inl (targetEmpty.1 empty)⟩
    next nonempty' =>
      have lt' : u.tqHead.toNat < tail := lt_of_le_of_ne tq_le (mt targetEmpty.2 nonempty')
      split
      next le => exact .inl ⟨rfl, source lt, rfl, lt, .inr le⟩
      next not_le => exact .inr ⟨rfl, rfl, target lt', lt', .inr (Bool.eq_false_iff.2 not_le)⟩

theorem queues_pick (some : u.sqHead.toNat + u.tqHead.toNat < L + tail) : Queues L tail u.pick.2 := by
  have fronts := (selects_fronts (pick_selects q leaves room some) q.fronts).1
  obtain ⟨_, _, frame⟩ := u.pick_frame
  rw [frame] at fronts ⊢
  exact ⟨q.ftLen, q.tqTail, fronts⟩

end

theorem nodeAt_pick (u : State) : u.pick.2.nodeAt = u.nodeAt := by
  obtain ⟨_, _, frame⟩ := u.pick_frame
  rw [frame]
  rfl

/-- What a merge does to the nodes: the new one holds its two selections, the others stay (R155). -/
theorem nodeAt_mergeStep {u : State} (room : u.tqTail.toNat < 255) (i : NodeIdx) :
    u.mergeStep.nodeAt i =
      if i = u.tqTail then
        ⟨false, 0, wAdd (u.nodeAt u.pick.1).prob (u.nodeAt u.pick.2.pick.1).prob, u.pick.1, u.pick.2.pick.1⟩
      else u.nodeAt i := by
  obtain ⟨_, _, first⟩ := u.pick_frame
  obtain ⟨_, _, second⟩ := u.pick.2.pick_frame
  have tail : u.pick.2.pick.2.tqTail = u.tqTail := by rw [second, first]
  rw [State.mergeStep, State.nodeAt_enqueue _ _ _ (tail ▸ room), tail, mergedNode, nodeAt_pick, nodeAt_pick]

/-- One merge, with two nodes or more in the queues (R154, R155). -/
theorem mergeStep_selects {L tail : ℕ} {u : State} (q : Queues L tail u) (leaves : L ≤ 128) (room : tail < 255)
    (several : u.sqHead.toNat + u.tqHead.toNat + 1 < L + tail) :
    Queues L (tail + 1) u.mergeStep ∧
    ∃ sm tm,
      Selects (weightAt u) L tail u.sqHead.toNat u.tqHead.toNat u.pick.1.toNat sm tm ∧
      Selects (weightAt u) L tail sm tm u.pick.2.pick.1.toNat
        u.mergeStep.sqHead.toNat u.mergeStep.tqHead.toNat := by
  have first := pick_selects q leaves room.le (by omega)
  have middle := queues_pick q leaves room.le (by omega)
  have sum := (selects_fronts first q.fronts).2
  have second := pick_selects middle leaves room.le (by omega)
  have after := queues_pick middle leaves room.le (by omega)
  obtain ⟨sq_le, tq_ge, tq_le⟩ := after.fronts
  refine ⟨⟨?_, ?_, ?_⟩, _, _, first, ?_⟩
  · rw [State.mergeStep, State.enqueue_ftLen, after.ftLen]
  · rw [State.mergeStep, State.enqueue_tqTail, toNat_succ (after.tqTail.trans_lt room) le_rfl, after.tqTail]
  · rw [State.mergeStep, State.enqueue_sqHead, State.enqueue_tqHead]
    exact ⟨sq_le, tq_ge, by omega⟩
  · have weights : weightAt u.pick.2 = weightAt u := by
      funext i
      rw [weightAt, weightAt, nodeAt_pick]
    rw [State.mergeStep, State.enqueue_sqHead, State.enqueue_tqHead, ← weights]
    exact second

/-! ## The states between the merges (R156) -/

/-- The state after `k` merges. -/
def afterMerges (s : State) (k : ℕ) : State := State.mergeStep^[k] s.dropTree.loadLeaves

theorem afterMerges_succ (s : State) (k : ℕ) : afterMerges s (k + 1) = (afterMerges s k).mergeStep :=
  Function.iterate_succ_apply' ..

section
variable {s : State} (table : HasTable s)
include table

/-- After `k` merges `L + k` nodes are made and `2k` are taken. -/
theorem queues_afterMerges (k : ℕ) (hk : k < s.ftLen.toNat) :
    Queues s.ftLen.toNat (s.ftLen.toNat + k) (afterMerges s k) ∧
    (afterMerges s k).sqHead.toNat + (afterMerges s k).tqHead.toNat = s.ftLen.toNat + 2 * k := by
  obtain ⟨-, two, most⟩ := table
  induction k with
  | zero =>
    refine ⟨⟨?_, ?_, ?_⟩, ?_⟩ <;> simp only [afterMerges, Function.iterate_zero, id, State.loadLeaves_ftLen,
      State.loadLeaves_tqTail, State.loadLeaves_sqHead, State.loadLeaves_tqHead, State.dropTree_ftLen]
    · rfl
    · exact ⟨Nat.zero_le _, le_rfl, le_rfl⟩
    · exact Nat.zero_add _
  | succ k ih =>
    obtain ⟨q, sum⟩ := ih (by omega)
    obtain ⟨after, sm, tm, first, second⟩ := mergeStep_selects q most (by omega) (by omega)
    obtain ⟨middle, sum₁⟩ := selects_fronts first q.fronts
    have sum₂ := (selects_fronts second middle).2
    rw [afterMerges_succ]
    exact ⟨after, by omega⟩

/-- The loop stops when one node is left, after `L - 1` merges (R156). -/
theorem mergeLoop_afterMerges (fuel k : ℕ) (hk : k < s.ftLen.toNat) (enough : s.ftLen.toNat ≤ k + fuel + 1) :
    mergeLoop fuel (afterMerges s k) = afterMerges s (s.ftLen.toNat - 1) := by
  induction fuel generalizing k with
  | zero =>
    obtain rfl : k = s.ftLen.toNat - 1 := by omega
    rfl
  | succ fuel ih =>
    obtain ⟨⟨ftLen, tqTail, sq_le, tq_ge, tq_le⟩, sum⟩ := queues_afterMerges table k hk
    rw [mergeLoop, State.queued, ftLen, tqTail, ← afterMerges_succ]
    split
    next several => exact ih (k + 1) (by omega) (by omega)
    next one =>
      obtain rfl : k = s.ftLen.toNat - 1 := by omega
      rfl

/-- A node once made stays. -/
theorem nodeAt_afterMerges {k k' : ℕ} (le : k ≤ k') (hk' : k' < s.ftLen.toNat) {i : NodeIdx}
    (made : i.toNat < s.ftLen.toNat + k) : (afterMerges s k').nodeAt i = (afterMerges s k).nodeAt i := by
  induction k', le using Nat.le_induction with
  | base => rfl
  | succ k' le ih =>
    have tail := (queues_afterMerges table k' (by omega)).1.tqTail
    have most := table.most
    have old : i ≠ (afterMerges s k').tqTail := fun h => by rw [h, tail] at made; omega
    rw [afterMerges_succ, nodeAt_mergeStep (by omega), if_neg old, ih (by omega)]

theorem buildDone_eq : buildDone s = (afterMerges s (s.ftLen.toNat - 1)).closeTree.completeOk := by
  have := table.two
  have := table.most
  rw [buildDone]
  exact congrArg (fun u : State => u.closeTree.completeOk) (mergeLoop_afterMerges table 127 0 (by omega) (by omega))

/-! ## What BUILD leaves -/

theorem nodeAt_buildDone {k : ℕ} (hk : k < s.ftLen.toNat) {i : NodeIdx} (made : i.toNat < s.ftLen.toNat + k) :
    (buildDone s).nodeAt i = (afterMerges s k).nodeAt i := by
  rw [buildDone_eq table]
  exact nodeAt_afterMerges table (by omega) (by omega) made

/-- The leaves copy the table (R152). -/
theorem nodeAt_buildDone_leaf {i : NodeIdx} (lt : i.toNat < s.ftLen.toNat) :
    (buildDone s).nodeAt i = leafNode (s.ftAt i.toNat) := by
  have two := table.two
  have most := table.most
  rw [nodeAt_buildDone table (k := 0) (by omega) lt, State.nodeAt_lt _ _ (by omega)]
  show s.dropTree.loadLeaves.node[i.toNat] = _
  simp only [State.loadLeaves, Vector.getElem_ofFn]
  exact if_pos lt

/-- The node a merge makes, by its number. -/
abbrev nodeNo (t : State) (i : ℕ) : Node := t.nodeAt (BitVec.ofNat 8 i)

/-- Merge `k` of a tree with `L` leaves, from the fronts before to those after (R154, R155). -/
def MergeMade (t : State) (L k sq tq sq' tq' : ℕ) : Prop :=
  ∃ sm tm,
    Selects (weightAt t) L (L + k) sq tq (nodeNo t (L + k)).left.toNat sm tm ∧
    Selects (weightAt t) L (L + k) sm tm (nodeNo t (L + k)).right.toNat sq' tq' ∧
    nodeNo t (L + k) =
      ⟨false, 0, wAdd (t.nodeAt (nodeNo t (L + k)).left).prob (t.nodeAt (nodeNo t (L + k)).right).prob,
        (nodeNo t (L + k)).left, (nodeNo t (L + k)).right⟩

/-- Every merge is one of the tree BUILD leaves. -/
theorem mergeMade_buildDone {k : ℕ} (hk : k + 1 < s.ftLen.toNat) :
    MergeMade (buildDone s) s.ftLen.toNat k (afterMerges s k).sqHead.toNat (afterMerges s k).tqHead.toNat
      (afterMerges s (k + 1)).sqHead.toNat (afterMerges s (k + 1)).tqHead.toNat := by
  have most := table.most
  obtain ⟨q, sum⟩ := queues_afterMerges table k (by omega)
  obtain ⟨-, sm, tm, first, second⟩ := mergeStep_selects q most (by omega) (by omega)
  have middle := (selects_fronts first q.fronts).1
  have old {i : NodeIdx} (lt : i.toNat < s.ftLen.toNat + k) :
      (buildDone s).nodeAt i = (afterMerges s k).nodeAt i := nodeAt_buildDone table (by omega) lt
  have left := old (selects_lt_tail first q.fronts)
  have right := old (selects_lt_tail second middle)
  have made : nodeNo (buildDone s) (s.ftLen.toNat + k) = ⟨false, 0,
      wAdd ((buildDone s).nodeAt (afterMerges s k).pick.1).prob
        ((buildDone s).nodeAt (afterMerges s k).pick.2.pick.1).prob,
      (afterMerges s k).pick.1, (afterMerges s k).pick.2.pick.1⟩ := by
    have number : BitVec.ofNat 8 (s.ftLen.toNat + k) = (afterMerges s k).tqTail := by
      rw [← q.tqTail, BitVec.ofNat_toNat, BitVec.setWidth_eq]
    rw [nodeNo, number, nodeAt_buildDone table hk (by rw [q.tqTail]; omega), afterMerges_succ,
      nodeAt_mergeStep (by rw [q.tqTail]; omega), if_pos rfl, left, right]
  have weights (i : ℕ) (lt : i < s.ftLen.toNat + k) : weightAt (buildDone s) i = weightAt (afterMerges s k) i := by
    rw [weightAt, weightAt, old (by rw [BitVec.toNat_ofNat]; omega)]
  refine ⟨sm, tm, ?_, ?_, ?_⟩
  · rw [made]
    exact selects_congr first q.fronts weights
  · rw [made, afterMerges_succ]
    exact selects_congr second middle weights
  · rw [made]

end

theorem afterMerges_zero_fronts (s : State) :
    (afterMerges s 0).sqHead.toNat = 0 ∧ (afterMerges s 0).tqHead.toNat = s.ftLen.toNat := by
  constructor <;> simp [afterMerges]

/-- Settles O42: after each number of merges the fronts are the machine's queue heads, and a merge reads and makes nodes
of the final tree. -/
theorem buildMergesTheQueueFronts : Obligations.BuildMergesTheQueueFronts := by
  intro s valid two most
  have table : HasTable s := ⟨valid, two, most⟩
  obtain ⟨sq_zero, tq_zero⟩ := afterMerges_zero_fronts s
  exact ⟨buildDone s, exec_build_of_table valid two most, fun k => (afterMerges s k).sqHead.toNat,
    fun k => (afterMerges s k).tqHead.toNat, sq_zero, tq_zero, fun k hk => mergeMade_buildDone table hk⟩

/-! ## The tree (R59, R157) -/

theorem buildDone_ftLen (s : State) : (buildDone s).ftLen = s.ftLen := by rw [buildDone_frame]

theorem buildDone_ft (s : State) : (buildDone s).ft = s.ft := by rw [buildDone_frame]

/-- A node index at or above `n` is `n` and a number of steps. -/
theorem exists_eq_ofNat_add {n : ℕ} {i : NodeIdx} (le : n ≤ i.toNat) :
    ∃ k, i.toNat = n + k ∧ i = BitVec.ofNat 8 (n + k) :=
  ⟨i.toNat - n, by omega, by rw [Nat.add_sub_cancel' le, BitVec.ofNat_toNat, BitVec.setWidth_eq]⟩

section
variable {s : State} (table : HasTable s)
include table

/-- The merges of the tree BUILD leaves are a chain. -/
theorem mergeChain_buildDone :
    MergeChain (weightAt (buildDone s)) s.ftLen.toNat (fun k => (afterMerges s k).sqHead.toNat)
      (fun k => (afterMerges s k).tqHead.toNat)
      (fun k b => ((buildDone s).child (BitVec.ofNat 8 (s.ftLen.toNat + k)) b).toNat) where
  sq_zero := (afterMerges_zero_fronts s).1
  tq_zero := (afterMerges_zero_fronts s).2
  merge k hk := by
    obtain ⟨sm, tm, first, second, -⟩ := mergeMade_buildDone table hk
    exact ⟨sm, tm, first, second⟩

/-- The queue pointers at BUILD's end (R54, R157). -/
theorem buildDone_pointers :
    (buildDone s).sqHead.toNat = s.ftLen.toNat ∧ (buildDone s).tqHead.toNat = 2 * s.ftLen.toNat - 2 ∧
    (buildDone s).tqTail.toNat = 2 * s.ftLen.toNat - 1 := by
  have two := table.two
  obtain ⟨sq, tq⟩ := (mergeChain_buildDone table).ends two
  have tail := (queues_afterMerges table (s.ftLen.toNat - 1) (by omega)).1.tqTail
  rw [buildDone_eq table]
  exact ⟨sq, tq, tail.trans (by omega)⟩

theorem toNat_nodeCnt_buildDone : (buildDone s).nodeCnt.toNat = 2 * s.ftLen.toNat - 1 := by
  have tail := (buildDone_pointers table).2.2
  rw [buildDone_eq table] at tail ⊢
  exact tail

theorem toNat_root_buildDone : (buildDone s).root.toNat = 2 * s.ftLen.toNat - 2 := by
  have two := table.two
  have tail := toNat_nodeCnt_buildDone table
  have root : (buildDone s).root = (buildDone s).nodeCnt - 1 := by rw [buildDone_eq table]; rfl
  rw [root, BitVec.toNat_sub_of_le (by rw [BitVec.le_def, tail]; show 1 ≤ _; omega), tail]
  rfl

/-- An internal node is the merge of two different nodes below it. -/
theorem internal_buildDone {k : ℕ} (hk : k + 1 < s.ftLen.toNat) :
    let n := nodeNo (buildDone s) (s.ftLen.toNat + k)
    n.leaf = false ∧ n.sym = 0 ∧ n.left.toNat < s.ftLen.toNat + k ∧ n.right.toNat < s.ftLen.toNat + k ∧
    n.left ≠ n.right ∧
    n.prob = wAdd ((buildDone s).nodeAt n.left).prob ((buildDone s).nodeAt n.right).prob := by
  obtain ⟨below, apart⟩ := (mergeChain_buildDone table).children k hk
  obtain ⟨_, _, -, -, made⟩ := mergeMade_buildDone table hk
  exact ⟨congrArg Node.leaf made, congrArg Node.sym made, below false, below true,
    fun same => apart (congrArg BitVec.toNat same), congrArg Node.prob made⟩

theorem one_parent_buildDone {j : NodeIdx} (hj : j.toNat < 2 * s.ftLen.toNat - 2) :
    ∃! p : NodeIdx × Bool, s.ftLen.toNat ≤ p.1.toNat ∧ p.1.toNat ≤ 2 * s.ftLen.toNat - 2 ∧
      (buildDone s).child p.1 p.2 = j := by
  have two := table.two
  have most := table.most
  have chain := mergeChain_buildDone table
  obtain ⟨k, b, hk, child⟩ := chain.exists_parent two hj
  have number : (BitVec.ofNat 8 (s.ftLen.toNat + k)).toNat = s.ftLen.toNat + k := by
    rw [BitVec.toNat_ofNat]
    omega
  refine ⟨(BitVec.ofNat 8 (s.ftLen.toNat + k), b), ⟨?_, ?_, BitVec.eq_of_toNat_eq child⟩, ?_⟩
  · exact number.symm ▸ Nat.le_add_right _ _
  · exact number.trans_le (by omega)
  · rintro ⟨p, b'⟩ ⟨le, ge, rfl⟩
    obtain ⟨k', toNat, rfl⟩ := exists_eq_ofNat_add le
    obtain ⟨rfl, rfl⟩ := chain.child_injective (by omega) hk child.symm
    rfl

/-- BUILD leaves one binary tree over the table's entries (R59). -/
theorem buildDone_treeTable : (buildDone s).TreeTable where
  count := by rw [buildDone_ftLen, toNat_nodeCnt_buildDone table]
  root_last := by rw [buildDone_ftLen, toNat_root_buildDone table]
  leaves i lt := by
    rw [buildDone_ftLen] at lt
    rw [nodeAt_buildDone_leaf table lt, State.ftAt, State.ftAt, buildDone_ft]
  internal i le ge := by
    have two := table.two
    rw [buildDone_ftLen] at le ge
    obtain ⟨k, toNat, rfl⟩ := exists_eq_ofNat_add le
    obtain ⟨leaf, sym, left, right, apart, prob⟩ := internal_buildDone table (k := k) (by omega)
    exact ⟨leaf, sym, BitVec.lt_def.2 (left.trans_eq toNat.symm),
      BitVec.lt_def.2 (right.trans_eq toNat.symm), apart, prob⟩
  one_parent j hj := by
    rw [buildDone_ftLen] at hj ⊢
    exact one_parent_buildDone table hj

end

/-- Settles O41: the merges are a chain that takes every node but the last exactly once. -/
theorem buildMakesOneBinaryTree : Obligations.BuildMakesOneBinaryTree := by
  intro s valid two most
  have table : HasTable s := ⟨valid, two, most⟩
  obtain ⟨sqHead, tqHead, tqTail⟩ := buildDone_pointers table
  have ct : (buildDone s).ct = unsetAll s.ct := congrArg State.ct (buildDone_frame s)
  refine ⟨buildDone s, exec_build_of_table valid two most, buildDone_completedOk s, buildDone_treeTable table,
    buildDone_noCodes s, sqHead, tqHead, tqTail, ?_⟩
  rw [ct]
  exact buildDone_frame s

/-! ## The leaves determine the tree (R161) -/

section
variable {t t' : State} {L k sq tq sq₁ tq₁ sq₂ tq₂ : ℕ}

/-- Two trees with the same nodes below `L + k` make the same merge `k`. -/
theorem MergeMade.unique (made : MergeMade t L k sq tq sq₁ tq₁) (made' : MergeMade t' L k sq tq sq₂ tq₂)
    (fronts : Fronts L (L + k) sq tq) (room : L + k ≤ 256)
    (agree : ∀ i : NodeIdx, i.toNat < L + k → t'.nodeAt i = t.nodeAt i) :
    nodeNo t' (L + k) = nodeNo t (L + k) ∧ sq₂ = sq₁ ∧ tq₂ = tq₁ := by
  obtain ⟨sm, tm, first, second, node⟩ := made
  obtain ⟨sm', tm', first', second', node'⟩ := made'
  have weights (i : ℕ) (lt : i < L + k) : weightAt t' i = weightAt t i := by
    rw [weightAt, weightAt, agree _ (by rw [BitVec.toNat_ofNat]; omega)]
  obtain ⟨left, rfl, rfl⟩ := selects_unique first' (selects_congr first fronts weights)
  have middle := (selects_fronts first fronts).1
  obtain ⟨right, rfl, rfl⟩ := selects_unique second' (selects_congr second middle weights)
  refine ⟨?_, rfl, rfl⟩
  rw [node', node, BitVec.eq_of_toNat_eq left, BitVec.eq_of_toNat_eq right,
    agree _ (selects_lt_tail first fronts), agree _ (selects_lt_tail second middle)]

end

/-- Two tables with the same entries are built into the same nodes, by the same merges. -/
theorem nodeAt_buildDone_congr {s s' : State} (table : HasTable s) (table' : HasTable s') (len : s'.ftLen = s.ftLen)
    (entries : ∀ i, i < s.ftLen.toNat → s'.ftAt i = s.ftAt i) (k : ℕ) (hk : k < s.ftLen.toNat) :
    (∀ i : NodeIdx, i.toNat < s.ftLen.toNat + k → (buildDone s').nodeAt i = (buildDone s).nodeAt i) ∧
    (afterMerges s' k).sqHead.toNat = (afterMerges s k).sqHead.toNat ∧
    (afterMerges s' k).tqHead.toNat = (afterMerges s k).tqHead.toNat := by
  have most := table.most
  induction k with
  | zero =>
    obtain ⟨sq, tq⟩ := afterMerges_zero_fronts s
    obtain ⟨sq', tq'⟩ := afterMerges_zero_fronts s'
    refine ⟨fun i lt => ?_, sq'.trans sq.symm, tq'.trans (len ▸ tq.symm)⟩
    rw [nodeAt_buildDone_leaf table lt, nodeAt_buildDone_leaf table' (len ▸ lt), entries _ lt]
  | succ k ih =>
    obtain ⟨agree, sq, tq⟩ := ih (by omega)
    have made' := mergeMade_buildDone table' (k := k) (len ▸ hk)
    rw [len, sq, tq] at made'
    have fronts := (queues_afterMerges table k (by omega)).1.fronts
    obtain ⟨node, sq, tq⟩ := (mergeMade_buildDone table hk).unique made' fronts (by omega) agree
    refine ⟨fun i lt => ?_, sq, tq⟩
    by_cases old : i.toNat < s.ftLen.toNat + k
    · exact agree i old
    · obtain ⟨j, toNat, rfl⟩ := exists_eq_ofNat_add (Nat.not_lt.1 old)
      obtain rfl : j = 0 := by omega
      exact node

/-- The entries in use are the list's. -/
theorem ftAt_eq_of_ftList_eq {s s' : State} (most : s.ftLen.toNat ≤ 128) (len : s'.ftLen = s.ftLen)
    (list : s'.ftList = s.ftList) (i : ℕ) (hi : i < s.ftLen.toNat) : s'.ftAt i = s.ftAt i := by
  have entry := s'.ftList_getElem? i (len ▸ hi) (by omega)
  rw [list, s.ftList_getElem? i hi (by omega)] at entry
  exact (Option.some.inj entry).symm

theorem hasTable_of_exec_build {s t : State} (valid : s.ftValid = true) (run : exec .build s = .next t) :
    HasTable s ∧ t = buildDone s := by
  obtain ⟨two, most⟩ := (leavesOutOfRange_eq_false_iff s).1 ((exec_next run).2 rfl) valid
  exact ⟨⟨valid, two, most⟩, Host.Outcome.next.inj (run.symm.trans (exec_build_of_table valid two most))⟩

/-- Settles O44: merge by merge the two trees have the same nodes, since a selection depends on nodes made before it. -/
theorem buildDependsOnTheTableAlone : Obligations.BuildDependsOnTheTableAlone := by
  intro s s' t t' valid valid' len list run run'
  obtain ⟨table, rfl⟩ := hasTable_of_exec_build valid run
  obtain ⟨table', rfl⟩ := hasTable_of_exec_build valid' run'
  have two := table.two
  have cnt := toNat_nodeCnt_buildDone table
  have root := toNat_root_buildDone table
  rw [len] at cnt root
  refine ⟨BitVec.eq_of_toNat_eq (cnt.trans (toNat_nodeCnt_buildDone table').symm),
    BitVec.eq_of_toNat_eq (root.trans (toNat_root_buildDone table').symm), fun i hi => ?_⟩
  rw [BitVec.lt_def, toNat_nodeCnt_buildDone table] at hi
  exact ((nodeAt_buildDone_congr table table' len.symm (ftAt_eq_of_ftList_eq table.most len.symm list.symm)
    (s.ftLen.toNat - 1) (by omega)).1 i (by omega)).symm

/-- Settles O43: the two bounds are those BUILD tests. -/
theorem buildRefusesFewerThanTwoLeaves : Obligations.BuildRefusesFewerThanTwoLeaves := by
  intro s valid bounds
  have out : s.leavesOutOfRange = true := by
    rw [← Bool.not_eq_false, leavesOutOfRange_eq_false_iff]
    intro range
    have := range valid
    omega
  exact if_pos out

end Sys2Proof.Proofs
end

section
/-! CGEN's codes (42_code_table.md R170 to R177). In a tree a child's index is below its parent's, which bounds every
path, and a node has one parent, which makes the path to it unique; so the search finds each symbol's one path, and any
bitstring that is long enough runs into exactly one leaf. -/

namespace Sys2Proof.Proofs
open Sys2Proof Sys2Proof.Machine Sys2Proof.Claims

/-! ## Ways through the nodes -/

section
variable {s : State}

theorem leadsTo_append {n m : NodeIdx} {a b : Bits} :
    s.LeadsTo n (a ++ b) m ↔ ∃ p, s.LeadsTo n a p ∧ s.LeadsTo p b m := by
  induction a generalizing n with
  | nil => exact ⟨fun h => ⟨n, rfl, h⟩, fun ⟨_, here, h⟩ => here ▸ h⟩
  | cons x a ih =>
    constructor
    · rintro ⟨internal, h⟩
      obtain ⟨p, first, second⟩ := ih.1 h
      exact ⟨p, ⟨internal, first⟩, second⟩
    · rintro ⟨p, ⟨internal, first⟩, second⟩
      exact ⟨internal, ih.2 ⟨p, first, second⟩⟩

theorem leadsTo_unique {n m m' : NodeIdx} {b : Bits} (h : s.LeadsTo n b m) (h' : s.LeadsTo n b m') : m = m' := by
  induction b generalizing n with
  | nil => exact h.symm.trans h'
  | cons x b ih => exact ih h.2 h'.2

/-- A leaf ends every way that reaches it. -/
theorem eq_of_leadsTo_leaf {n m m' : NodeIdx} {b b' : Bits} (h : s.LeadsTo n b m) (leaf : (s.nodeAt m).leaf = true)
    (h' : s.LeadsTo n b' m') (isPrefix : b <+: b') : b = b' := by
  obtain ⟨rest, rfl⟩ := isPrefix
  obtain ⟨p, first, second⟩ := leadsTo_append.1 h'
  obtain rfl := leadsTo_unique h first
  cases rest with
  | nil => exact (List.append_nil b).symm
  | cons x rest => exact absurd (second.1.symm.trans leaf) Bool.false_ne_true

/-- A bitstring runs out at an internal node or runs into a leaf. -/
theorem leadsTo_internal_or_leaf (n : NodeIdx) (b : Bits) :
    (∃ c, s.LeadsTo n b c ∧ (s.nodeAt c).leaf = false) ∨
    ∃ p rest m, b = p ++ rest ∧ s.LeadsTo n p m ∧ (s.nodeAt m).leaf = true := by
  induction b generalizing n with
  | nil =>
    cases kind : (s.nodeAt n).leaf with
    | false => exact .inl ⟨n, rfl, kind⟩
    | true => exact .inr ⟨[], [], n, rfl, rfl, kind⟩
  | cons x b ih =>
    cases kind : (s.nodeAt n).leaf with
    | true => exact .inr ⟨[], x :: b, n, rfl, rfl, kind⟩
    | false =>
      rcases ih (s.child n x) with ⟨c, way, internal⟩ | ⟨p, rest, m, rfl, way, leaf⟩
      · exact .inl ⟨c, ⟨kind, way⟩, internal⟩
      · exact .inr ⟨x :: p, rest, m, rfl, ⟨kind, way⟩, leaf⟩

/-- The search finds a leaf of its symbol wherever there is one within its depth (R172). -/
theorem search_isSome {n m : NodeIdx} {b : Bits} (way : s.LeadsTo n b m) (leaf : (s.nodeAt m).leaf = true)
    (fuel : ℕ) (path : Bits) (deep : b.length < fuel) : (s.search (s.nodeAt m).sym fuel n path).isSome := by
  induction b generalizing n fuel path with
  | nil =>
    obtain ⟨fuel, rfl⟩ : ∃ k, fuel = k + 1 := ⟨fuel - 1, by omega⟩
    obtain rfl : n = m := way
    simp [State.search, leaf]
  | cons x b ih =>
    obtain ⟨fuel, rfl⟩ : ∃ k, fuel = k + 1 := ⟨fuel - 1, by omega⟩
    obtain ⟨internal, way⟩ := way
    have below (path : Bits) := ih way fuel path (Nat.lt_of_succ_lt_succ deep)
    rw [State.search]
    simp only [internal, Bool.false_eq_true, if_false]
    split
    · rfl
    · next left =>
      cases x with
      | true => exact below _
      | false => exact absurd (below (path ++ [false])) (by simp [State.child] at left ⊢; simp [left])

end

/-! ## Paths in a tree (R59, R113) -/

/-- A tree over 2 to 128 leaves with different symbols. -/
structure WholeTree (s : State) : Prop where
  table : s.TreeTable
  two : 2 ≤ s.ftLen.toNat
  most : s.ftLen.toNat ≤ 128

section
variable {s : State} (tree : WholeTree s)
include tree

/-- The leaves are the nodes below `L`. -/
theorem WholeTree.leaf_iff {i : NodeIdx} (hi : i.toNat ≤ s.root.toNat) :
    (s.nodeAt i).leaf = true ↔ i.toNat < s.ftLen.toNat := by
  rw [tree.table.root_last] at hi
  rcases Nat.lt_or_ge i.toNat s.ftLen.toNat with lt | le
  · rw [tree.table.leaves i lt]
    exact iff_of_true rfl lt
  · rw [(tree.table.internal i le hi).1]
    exact iff_of_false Bool.false_ne_true le.not_gt

theorem WholeTree.internal_iff {i : NodeIdx} (hi : i.toNat ≤ s.root.toNat) :
    (s.nodeAt i).leaf = false ↔ s.ftLen.toNat ≤ i.toNat := by
  rw [← Bool.not_eq_true, tree.leaf_iff hi, Nat.not_lt]

theorem WholeTree.root_internal : (s.nodeAt s.root).leaf = false := by
  have two := tree.two
  rw [tree.internal_iff le_rfl, tree.table.root_last]
  omega

theorem WholeTree.child_lt {i : NodeIdx} (hi : i.toNat ≤ s.root.toNat) (internal : (s.nodeAt i).leaf = false)
    (b : Bool) : (s.child i b).toNat < i.toNat := by
  have le := (tree.internal_iff hi).1 internal
  rw [tree.table.root_last] at hi
  obtain ⟨-, -, left, right, -⟩ := tree.table.internal i le hi
  cases b
  · exact BitVec.lt_def.1 left
  · exact BitVec.lt_def.1 right

/-- Every branch leads to a smaller index. -/
theorem WholeTree.length_add_le {n m : NodeIdx} {b : Bits} (hn : n.toNat ≤ s.root.toNat) (way : s.LeadsTo n b m) :
    b.length + m.toNat ≤ n.toNat := by
  induction b generalizing n with
  | nil =>
    obtain rfl : n = m := way
    exact (Nat.zero_add _).le
  | cons x b ih =>
    obtain ⟨internal, way⟩ := way
    have lt := tree.child_lt hn internal x
    have := ih (by omega) way
    rw [List.length_cons]
    omega

/-- The way to an internal node has at most `L - 2` branches. -/
theorem WholeTree.length_le_of_internal {m : NodeIdx} {b : Bits} (way : s.LeadsTo s.root b m)
    (internal : (s.nodeAt m).leaf = false) : b.length + 2 ≤ s.ftLen.toNat := by
  have two := tree.two
  have bound := tree.length_add_le le_rfl way
  have le := (tree.internal_iff (by omega)).1 internal
  rw [tree.table.root_last] at bound
  omega

/-- The way to any node has at most `L - 1` branches (R175). -/
theorem WholeTree.length_le {m : NodeIdx} {b : Bits} (way : s.LeadsTo s.root b m) : b.length ≤ s.ftLen.toNat - 1 := by
  rcases List.eq_nil_or_concat' b with rfl | ⟨b, x, rfl⟩
  · exact Nat.zero_le _
  · obtain ⟨p, way, internal, -⟩ := leadsTo_append.1 way
    have := tree.length_le_of_internal way internal
    rw [List.length_append, List.length_singleton]
    omega

theorem WholeTree.exists_parent {j : NodeIdx} (hj : j.toNat < s.root.toNat) :
    ∃ p b, (s.nodeAt p).leaf = false ∧ p.toNat ≤ s.root.toNat ∧ s.child p b = j := by
  rw [tree.table.root_last] at hj
  obtain ⟨⟨p, b⟩, ⟨le, ge, child⟩, -⟩ := tree.table.one_parent j hj
  have inTree : p.toNat ≤ s.root.toNat := tree.table.root_last ▸ ge
  exact ⟨p, b, (tree.internal_iff inTree).2 le, inTree, child⟩

theorem WholeTree.parent_unique {p p' : NodeIdx} {b b' : Bool} (hp : p.toNat ≤ s.root.toNat)
    (hp' : p'.toNat ≤ s.root.toNat) (internal : (s.nodeAt p).leaf = false) (internal' : (s.nodeAt p').leaf = false)
    (same : s.child p' b' = s.child p b) : p' = p ∧ b' = b := by
  have lt := tree.child_lt hp internal b
  have root := tree.table.root_last
  obtain ⟨_, -, unique⟩ := tree.table.one_parent (s.child p b) (by omega)
  have first := unique (p, b) ⟨(tree.internal_iff hp).1 internal, root ▸ hp, rfl⟩
  have second := unique (p', b') ⟨(tree.internal_iff hp').1 internal', root ▸ hp', same⟩
  exact Prod.mk.inj (second.trans first.symm)

/-- Every node of the tree is reached from the root. -/
theorem WholeTree.exists_way {i : NodeIdx} (hi : i.toNat ≤ s.root.toNat) : ∃ b, s.LeadsTo s.root b i := by
  induction k : s.root.toNat - i.toNat using Nat.strong_induction_on generalizing i with
  | _ k ih =>
    rcases hi.eq_or_lt with here | below
    · exact ⟨[], BitVec.eq_of_toNat_eq here.symm⟩
    · obtain ⟨p, b, internal, inTree, rfl⟩ := tree.exists_parent below
      have lt := tree.child_lt inTree internal b
      obtain ⟨way, leads⟩ := ih (s.root.toNat - p.toNat) (by omega) inTree rfl
      exact ⟨way ++ [b], leadsTo_append.2 ⟨p, leads, internal, rfl⟩⟩

/-- Since a node has one parent, one way leads to it. -/
theorem WholeTree.way_unique {m : NodeIdx} {b b' : Bits} (way : s.LeadsTo s.root b m)
    (way' : s.LeadsTo s.root b' m) : b = b' := by
  have noCycle {b : Bits} (way : s.LeadsTo s.root b s.root) : b = [] :=
    List.length_eq_zero_iff.1 (by have := tree.length_add_le le_rfl way; omega)
  induction b using List.reverseRecOn generalizing b' m with
  | nil =>
    obtain rfl : s.root = m := way
    exact (noCycle way').symm
  | append_singleton b x ih =>
    rcases List.eq_nil_or_concat' b' with rfl | ⟨b', x', rfl⟩
    · obtain rfl : s.root = m := way'
      exact noCycle way
    · obtain ⟨p, before, internal, rfl⟩ := leadsTo_append.1 way
      obtain ⟨p', before', internal', same⟩ := leadsTo_append.1 way'
      have below := tree.length_add_le le_rfl before
      have below' := tree.length_add_le le_rfl before'
      obtain ⟨rfl, rfl⟩ := tree.parent_unique (by omega) (by omega) internal internal' same
      rw [ih before before']

/-! ## Codes of symbols -/

theorem WholeTree.leaf_sym {i : NodeIdx} (lt : i.toNat < s.ftLen.toNat) :
    (s.ftList.map FtEntry.sym)[i.toNat]? = some (s.nodeAt i).sym := by
  have most := tree.most
  rw [List.getElem?_map, s.ftList_getElem? _ lt (by omega), tree.table.leaves i lt]
  rfl

/-- A code ends on a leaf, whose symbol is in the table. -/
theorem WholeTree.mem_of_isCode {x : Sym} {b : Bits} (code : s.IsCode x b) : x ∈ s.ftList.map FtEntry.sym := by
  obtain ⟨m, way, leaf, rfl⟩ := code
  have below := tree.length_add_le le_rfl way
  exact List.mem_of_getElem? (tree.leaf_sym ((tree.leaf_iff (by omega)).1 leaf))

/-- Every symbol of the table has a code. -/
theorem WholeTree.exists_isCode {x : Sym} (hx : x ∈ s.ftList.map FtEntry.sym) : ∃ b, s.IsCode x b := by
  have two := tree.two
  have most := tree.most
  obtain ⟨i, hi, rfl⟩ := List.getElem_of_mem hx
  have lt : i < s.ftLen.toNat := by rwa [List.length_map, s.ftList_length most] at hi
  have number : (BitVec.ofNat 8 i).toNat = i := by
    rw [BitVec.toNat_ofNat]
    omega
  have inTree : (BitVec.ofNat 8 i).toNat ≤ s.root.toNat := by
    rw [tree.table.root_last]
    omega
  obtain ⟨b, way⟩ := tree.exists_way inTree
  have sym := tree.leaf_sym (i := BitVec.ofNat 8 i) (by omega)
  rw [number, List.getElem?_eq_getElem hi] at sym
  exact ⟨b, BitVec.ofNat 8 i, way, (tree.leaf_iff inTree).2 (by omega), (Option.some.inj sym).symm⟩

/-- CGEN's search finds the code of every symbol that has one: no code is deeper than 127 (R175). -/
theorem WholeTree.exists_codePath {x : Sym} (hx : x ∈ s.ftList.map FtEntry.sym) : ∃ b, s.codePath x = some b := by
  obtain ⟨b, m, way, leaf, rfl⟩ := tree.exists_isCode hx
  have most := tree.most
  have deep := tree.length_le way
  exact Option.isSome_iff_exists.1 (search_isSome way leaf 128 [] (by omega))

theorem WholeTree.isCode_ne_nil {x : Sym} {b : Bits} (code : s.IsCode x b) : b ≠ [] := by
  rintro rfl
  obtain ⟨m, rfl, leaf, -⟩ := code
  exact absurd (tree.root_internal.symm.trans leaf) Bool.false_ne_true

/-- With different symbols on the leaves a symbol has one code. -/
theorem WholeTree.isCode_unique (distinct : (s.ftList.map FtEntry.sym).Nodup) {x : Sym} {b b' : Bits}
    (code : s.IsCode x b) (code' : s.IsCode x b') : b = b' := by
  obtain ⟨m, way, leaf, rfl⟩ := code
  obtain ⟨m', way', leaf', sym⟩ := code'
  have below := tree.length_add_le le_rfl way
  have below' := tree.length_add_le le_rfl way'
  have lt := (tree.leaf_iff (by omega)).1 leaf
  have lt' := (tree.leaf_iff (by omega)).1 leaf'
  have here := tree.leaf_sym lt
  have here' := tree.leaf_sym lt'
  rw [sym] at here'
  obtain rfl : m = m' := BitVec.eq_of_toNat_eq
    ((List.getElem?_inj (List.getElem?_eq_some_iff.1 here).1 distinct).1 (here.trans here'.symm))
  exact tree.way_unique way way'

end

/-! ## The code table (R60) -/

/-- The entry CGEN writes for a path (R173). -/
def entryOfPath (p : Bits) : CtEntry := ⟨true, BitVec.ofNat 7 p.length, p⟩

/-- The table holds the path of each symbol in FT and nothing else. -/
structure CodesWritten (s : State) : Prop where
  written : ∀ x ∈ s.ftList.map FtEntry.sym, ∀ p, s.codePath x = some p → s.ctAt x = entryOfPath p
  absent : ∀ x, x ∉ s.ftList.map FtEntry.sym → (s.ctAt x).valid = false

section
variable {s : State} (tree : WholeTree s) (codes : CodesWritten s)
include tree codes

theorem ctAt_of_mem {x : Sym} (hx : x ∈ s.ftList.map FtEntry.sym) : ∃ p, s.IsCode x p ∧ s.ctAt x = entryOfPath p := by
  obtain ⟨p, found⟩ := tree.exists_codePath hx
  exact ⟨p, codePath_isCode found, codes.written x hx p found⟩

theorem present_iff_mem (x : Sym) : (s.ctAt x).valid = true ↔ x ∈ s.ftList.map FtEntry.sym := by
  constructor
  · intro present
    by_contra hx
    exact absurd (codes.absent x hx) (by simp [present])
  · intro hx
    obtain ⟨p, -, entry⟩ := ctAt_of_mem tree codes hx
    rw [entry]
    rfl

/-- A symbol that is present has its path, with the path's length, which 7 bits hold (R175). -/
theorem present_entry {x : Sym} (present : (s.ctAt x).valid = true) :
    s.IsCode x (s.ctAt x).bits ∧ (s.ctAt x).len.toNat = (s.ctAt x).bits.length ∧
    1 ≤ (s.ctAt x).bits.length ∧ (s.ctAt x).bits.length ≤ s.ftLen.toNat - 1 := by
  obtain ⟨p, code, entry⟩ := ctAt_of_mem tree codes ((present_iff_mem tree codes x).1 present)
  obtain ⟨m, way, -⟩ := id code
  have most := tree.most
  have deep := tree.length_le way
  rw [entry]
  refine ⟨code, ?_, List.length_pos_iff.2 (tree.isCode_ne_nil code), deep⟩
  show (BitVec.ofNat 7 p.length).toNat = p.length
  rw [BitVec.toNat_ofNat]
  omega

/-- A present code that begins another is that other: both are ways to leaves. -/
theorem present_prefix_free {x y : Sym} (hx : (s.ctAt x).valid = true) (hy : (s.ctAt y).valid = true)
    (isPrefix : (s.ctAt x).bits <+: (s.ctAt y).bits) : x = y := by
  obtain ⟨m, way, leaf, rfl⟩ := (present_entry tree codes hx).1
  obtain ⟨m', way', -, rfl⟩ := (present_entry tree codes hy).1
  rw [eq_of_leadsTo_leaf way leaf way' isPrefix] at way
  exact congrArg (fun i => (s.nodeAt i).sym) (leadsTo_unique way way')

/-- A bitstring of `L - 1` bits or more runs into a leaf, whose code it begins with. -/
theorem exists_present_prefix (distinct : (s.ftList.map FtEntry.sym).Nodup) {b : Bits}
    (long : s.ftLen.toNat - 1 ≤ b.length) : ∃ x, (s.ctAt x).valid = true ∧ (s.ctAt x).bits <+: b := by
  rcases leadsTo_internal_or_leaf (s := s) s.root b with ⟨c, way, internal⟩ | ⟨p, rest, m, rfl, way, leaf⟩
  · have := tree.length_le_of_internal way internal
    omega
  · have code : s.IsCode (s.nodeAt m).sym p := ⟨m, way, leaf, rfl⟩
    obtain ⟨q, code', entry⟩ := ctAt_of_mem tree codes (tree.mem_of_isCode code)
    obtain rfl := tree.isCode_unique distinct code code'
    rw [show p ++ rest = (entryOfPath p).bits ++ rest from rfl, ← entry]
    exact ⟨_, entry ▸ rfl, List.prefix_append ..⟩

/-- The paths of a tree with different symbols are a code table. -/
theorem codeTable_of_codesWritten (distinct : (s.ftList.map FtEntry.sym).Nodup) : s.CodeTable where
  present := present_iff_mem tree codes
  path x hx := (present_entry tree codes hx).1
  len x hx := (present_entry tree codes hx).2
  prefix_free x y := present_prefix_free tree codes
  complete b long := by
    obtain ⟨x, hx, isPrefix⟩ := exists_present_prefix tree codes distinct long
    refine ⟨x, ⟨hx, isPrefix⟩, fun y ⟨hy, isPrefix'⟩ => ?_⟩
    rcases List.prefix_or_prefix_of_prefix isPrefix' isPrefix with first | second
    · exact present_prefix_free tree codes hy hx first
    · exact (present_prefix_free tree codes hx hy second).symm

end

/-! ## CGEN writes it (R171 to R173) -/

/-- The search reads NODE alone. -/
theorem search_congr {s t : State} (node : t.node = s.node) (x : Sym) (fuel : ℕ) (n : NodeIdx) (path : Bits) :
    t.search x fuel n path = s.search x fuel n path := by
  have nodeAt : t.nodeAt = s.nodeAt := by funext i; rw [State.nodeAt, State.nodeAt, node]
  induction fuel generalizing n path with
  | zero => rfl
  | succ fuel ih => simp only [State.search, nodeAt, ih]

theorem codePath_congr {s t : State} (node : t.node = s.node) (root : t.root = s.root) (x : Sym) :
    t.codePath x = s.codePath x := by
  rw [State.codePath, State.codePath, root, search_congr node]

theorem codePath_writeCode (s : State) (y x : Sym) : (s.writeCode y).codePath x = s.codePath x :=
  codePath_congr (by rw [s.writeCode_frame]) (by rw [s.writeCode_frame]) x

theorem writeCode_of_found {s : State} {x : Sym} {p : Bits} (found : s.codePath x = some p) :
    s.writeCode x = { s with ct := s.ct.set x.toNat (entryOfPath p) x.isLt } := by
  rw [State.writeCode]
  split
  next q found' =>
    obtain rfl : p = q := Option.some.inj (found.symm.trans found')
    rfl
  next lost => cases lost.symm.trans found

theorem ctAt_writeCode_self {s : State} {x : Sym} {p : Bits} (found : s.codePath x = some p) :
    (s.writeCode x).ctAt x = entryOfPath p := by
  rw [writeCode_of_found found, State.ctAt, Vector.getElem_set_self]

theorem ctAt_writeCode_of_ne {s : State} {x y : Sym} (ne : y ≠ x) : (s.writeCode y).ctAt x = s.ctAt x := by
  have apart : y.toNat ≠ x.toNat := fun h => ne (BitVec.eq_of_toNat_eq h)
  unfold State.writeCode
  split
  · simp [State.ctAt, apart]
  · rfl

theorem ctAt_writeCodes_of_not_mem {xs : List Sym} {x : Sym} (hx : x ∉ xs) (s : State) :
    (xs.foldl State.writeCode s).ctAt x = s.ctAt x := by
  induction xs generalizing s with
  | nil => rfl
  | cons y xs ih =>
    obtain ⟨ne, hx⟩ := not_or.1 (mt List.mem_cons.2 hx)
    rw [List.foldl_cons, ih hx, ctAt_writeCode_of_ne (Ne.symm ne)]

theorem ctAt_writeCodes_of_mem {xs : List Sym} {x : Sym} (hx : x ∈ xs) {s : State} {p : Bits}
    (found : s.codePath x = some p) : (xs.foldl State.writeCode s).ctAt x = entryOfPath p := by
  induction xs generalizing s with
  | nil => cases hx
  | cons y xs ih =>
    rw [List.foldl_cons]
    by_cases later : x ∈ xs
    · exact ih later ((codePath_writeCode s y x).trans found)
    · obtain rfl : x = y := (List.mem_cons.1 hx).resolve_right later
      rw [ctAt_writeCodes_of_not_mem later, ctAt_writeCode_self found]

/-- The state CGEN leaves on a tree (R170). -/
def cgenDone (s : State) : State := { s with
  phase := .idle, done := true, err := false, errcode := 0, erridx := 0, errval := 0
  ctValid := true, ct := (s.ftSyms.foldl State.writeCode s.dropCodes).ct }

theorem runCgen_of_tree {s : State} (valid : s.treeValid = true) :
    ∃ t, runCgen s = .ok t ∧ t.completeOk = cgenDone s := by
  rcases runCgen_cases s with ⟨invalid, -⟩ | ⟨-, run⟩
  · exact absurd (invalid.symm.trans valid) Bool.false_ne_true
  · refine ⟨_, run, ?_⟩
    rw [State.writeCodes_frame]
    rfl

theorem exec_cgen_of_tree {s : State} (valid : s.treeValid = true) : exec .cgen s = .next (cgenDone s) := by
  obtain ⟨t, run, done⟩ := runCgen_of_tree valid
  exact congrArg Host.Outcome.next ((congrArg Run.complete run).trans done)

theorem treeTable_cgenDone {s : State} (h : s.TreeTable) : (cgenDone s).TreeTable :=
  ⟨h.count, h.root_last, h.leaves, h.internal, h.one_parent⟩

theorem ctAt_cgenDone (s : State) (x : Sym) :
    (cgenDone s).ctAt x = (s.ftSyms.foldl State.writeCode s.dropCodes).ctAt x := by
  rw [State.ctAt, State.ctAt, cgenDone]

theorem codesWritten_cgenDone (s : State) : CodesWritten (cgenDone s) where
  written x hx p found := by
    have found' : s.dropCodes.codePath x = some p := by
      rw [codePath_congr (s := cgenDone s) (t := s.dropCodes) rfl rfl, found]
    rw [ctAt_cgenDone, ctAt_writeCodes_of_mem (xs := s.ftSyms) hx found']
  absent x hx := by rw [ctAt_cgenDone, ctAt_writeCodes_of_not_mem (xs := s.ftSyms) hx, s.ctAt_dropCodes]

theorem cgenDone_codeTable {s : State} (tree : WholeTree s) (distinct : (s.ftList.map FtEntry.sym).Nodup) :
    (cgenDone s).CodeTable :=
  codeTable_of_codesWritten ⟨treeTable_cgenDone tree.table, tree.two, tree.most⟩ (codesWritten_cgenDone s) distinct

/-- Settles O46: the search finds each symbol's one path, and the paths to the leaves of a tree are prefix-free and
complete. -/
theorem cgenWritesThePaths : Obligations.CgenWritesThePaths := fun s valid table two most distinct =>
  ⟨cgenDone s, exec_cgen_of_tree valid, ⟨rfl, rfl, rfl, rfl, rfl, rfl⟩, cgenDone_codeTable ⟨table, two, most⟩ distinct,
    rfl⟩

/-- Settles O45: without a tree CGEN stops at its first check, on the state unchanged. -/
theorem cgenNeedsATree : Obligations.CgenNeedsATree := by
  intro s invalid
  rcases runCgen_cases s with ⟨-, stop⟩ | ⟨valid, -⟩
  · exact congrArg (fun r : Run => Host.Outcome.next r.complete) stop
  · exact absurd (invalid.symm.trans valid) Bool.false_ne_true

end Sys2Proof.Proofs
end

section
/-! The four commands with an output (43_bit_packer.md R185 to R200, 44_encode_decode.md R210 to R220): their input
checks, and what they output on input that passes. -/

namespace Sys2Proof.Proofs
open Sys2Proof Sys2Proof.Machine Sys2Proof.Claims

/-! ## Outcomes and input checks -/

theorem next_of_raise {r : Run} {e : Raise} {s : State} (h : r = .raise e s) :
    (.next r.complete : Host.Outcome State Fault Refusal) = .next (errDone s e.error.code e.idx e.val) := by
  rw [h]
  rfl

theorem next_of_ok {r : Run} {s : State} (h : r = .ok s) :
    (.next r.complete : Host.Outcome State Fault Refusal) = .next (okDone s) := by
  rw [h]
  rfl

section
variable {s : State} {text : Bool} {check : Elem → Option CmdError}

theorem onInput_of_error {e : Raise} (h : s.inputError text check = some e) (k : State → Run) :
    s.onInput text check k = .raise e s := by rw [State.onInput, h]

theorem onInput_of_pass (h : s.inputError text check = none) (k : State → Run) : s.onInput text check k = k s := by
  rw [State.onInput, h]

end

/-- The error of an element that is no character (R186). -/
theorem checkChar_of_not {e : Elem} (h : ¬ IsBitChar e) :
    checkChar e = some (if e.tag then .io else .invalidBitstring) := by
  rw [IsBitChar, not_and_or, not_or] at h
  rw [checkChar]
  cases tag : e.tag with
  | true => rfl
  | false => exact if_pos (h.resolve_left (not_not_intro tag))

theorem checkByte_of_tag {e : Elem} (h : e.tag = true) : checkByte e = some .io := if_pos h

theorem high_bit_iff (e : Elem) : e.data.getLsbD 7 = true ↔ 128 ≤ e.data.toNat := by
  have h := BitVec.msb_eq_true_iff_two_mul_ge (x := e.data)
  rw [BitVec.msb_eq_getLsbD_last] at h
  exact h.trans (by omega)

theorem checkSymbol_of_tag {e : Elem} (h : e.tag = true) : checkSymbol e = some .io := if_pos h

theorem checkSymbol_of_high {e : Elem} (tag : e.tag = false) (high : 128 ≤ e.data.toNat) :
    checkSymbol e = some .alphabet := by
  simp [checkSymbol, tag, (high_bit_iff e).2 high]

/-- The element has a code in the table (R211). -/
def IsCoded (s : State) (e : Elem) : Prop := IsSymbol e ∧ (s.ctAt (symOf e)).valid = true

theorem checkCoded_eq_none_iff (s : State) (e : Elem) : checkCoded s e = none ↔ IsCoded s e := by
  rw [IsCoded, ← checkSymbol_eq_none_iff, ← elem_sym_eq_symOf, checkCoded]
  split
  next err h => simp [h]
  next h => simp [h]

/-- The error of an element that has no code, in the order of R211. -/
theorem checkCoded_of_not {s : State} {e : Elem} (h : ¬ IsCoded s e) :
    checkCoded s e = some (if e.tag then .io else if 128 ≤ e.data.toNat then .alphabet else .noCode) := by
  rw [checkCoded]
  cases tag : e.tag with
  | true => rw [checkSymbol_of_tag tag]; rfl
  | false =>
    by_cases high : 128 ≤ e.data.toNat
    · simp [checkSymbol_of_high tag high, high]
    · have symbol : IsSymbol e := ⟨tag, Nat.lt_of_not_le high⟩
      have absent : ¬ (s.ctAt (symOf e)).valid = true := fun present => h ⟨symbol, present⟩
      simp [(checkSymbol_eq_none_iff e).2 symbol, elem_sym_eq_symOf, absent, high]

/-! ## PACK -/

theorem runPack_of_error {s : State} {e : Raise} (h : s.inputError false checkChar = some e) :
    runPack s = .raise e s.emptyObuf :=
  onInput_of_error (s := s.emptyObuf) h _

theorem inputError_of_chars {s : State} (whole : s.iovf = false) (chars : ∀ e ∈ s.ibuf, IsBitChar e) :
    s.inputError false checkChar = none :=
  (s.inputError_none false checkChar).2 ⟨whole, nofun, fun e he => (checkChar_eq_none_iff e).2 (chars e he)⟩

theorem runPack_of_chars {s : State} (whole : s.iovf = false) (chars : ∀ e ∈ s.ibuf, IsBitChar e) :
    runPack s = s.emptyObuf.emitPacked s.inputBits :=
  onInput_of_pass (s := s.emptyObuf) (inputError_of_chars whole chars) _

theorem inputBits_length (s : State) : s.inputBits.length = s.ibuf.length := List.length_map _

/-- Settles O47: the checks come in the order of R270, then the output's length; OBUF is emptied first. -/
theorem packChecksItsInput : Obligations.PackChecksItsInput := by
  refine fun s => ⟨fun overflowed => ?_, fun pre e post whole text before bad => ?_, fun whole chars long => ?_⟩
  · exact next_of_raise (runPack_of_error (s.inputError_iovf false checkChar overflowed))
  · have first := s.inputError_first false checkChar pre post e _ whole text
      (fun p hp => (checkChar_eq_none_iff p).2 (before p hp)) (checkChar_of_not bad)
    refine (next_of_raise (runPack_of_error first)).trans ?_
    cases e.tag <;> rfl
  · rcases s.emptyObuf.emitPacked_cases s.inputBits with ⟨fits, -⟩ | ⟨-, stop⟩
    · rw [inputBits_length] at fits
      exact absurd fits long.not_ge
    · exact next_of_raise ((runPack_of_chars whole chars).trans stop)

theorem packedAs_packBits (b : Bits) : PackedAs (packBits b) b := by
  refine ⟨?_, packBits_length b⟩
  rw [bits8_eq_bitsOfByte, (packBits_markedBy b).bits, padded, paddingLength, Nat.sub_right_comm]

theorem inputBits_eq {s : State} (chars : ∀ e ∈ s.ibuf, IsBitChar e) :
    s.inputBits = s.ibuf.map fun e => decide (e.data = 0x31) := by
  refine List.map_congr_left fun e he => ?_
  obtain ⟨-, zero | one⟩ := chars e he
  · rw [Elem.bit, zero]; rfl
  · rw [Elem.bit, one]; rfl

/-- Settles O48: the bits of the packed bytes are the marker and the payload. -/
theorem packOutputsThePaddedBits : Obligations.PackOutputsThePaddedBits := by
  intro s whole chars fits
  refine ⟨packBits s.inputBits, next_of_ok ((runPack_of_chars whole chars).trans ?_),
    inputBits_eq chars ▸ packedAs_packBits _⟩
  rcases s.emptyObuf.emitPacked_cases s.inputBits with ⟨-, done⟩ | ⟨long, -⟩
  · exact done
  · rw [inputBits_length] at long
    exact absurd fits long.not_ge

/-! ## UNPACK -/

theorem runUnpack_of_error {s : State} {e : Raise} (h : s.inputError false checkByte = some e) :
    runUnpack s = .raise e s.emptyObuf :=
  onInput_of_error (s := s.emptyObuf) h _

theorem inputError_of_bytes {s : State} (whole : s.iovf = false) (bytes : ∀ e ∈ s.ibuf, e.tag = false) :
    s.inputError false checkByte = none :=
  (s.inputError_none false checkByte).2 ⟨whole, nofun, fun e he => (checkByte_eq_none_iff e).2 (bytes e he)⟩

/-- The first tagged element decides (R263). -/
theorem inputError_of_tagged {s : State} {pre post : List Elem} {e : Elem} (whole : s.iovf = false)
    (text : s.ibuf = pre ++ e :: post) (before : ∀ p ∈ pre, p.tag = false) (tag : e.tag = true) :
    s.inputError false checkByte = some ⟨.io, BitVec.ofNat 32 pre.length, e.data⟩ :=
  s.inputError_first false checkByte pre post e _ whole text
    (fun p hp => (checkByte_eq_none_iff p).2 (before p hp)) (checkByte_of_tag tag)

/-- The scan for the marker, in the words of R197 and R198. -/
theorem dropMarker_cases (k : ℕ) (s : Bits) :
    (∃ j, j < k ∧ s = List.replicate j false ++ true :: dropMarker k s) ∨
    ((∀ j, j < k → s[j]? ≠ some true) ∧ dropMarker k s = s.drop k) := by
  by_cases noMarker : ∀ j, j < k → s[j]? ≠ some true
  · exact .inr ⟨noMarker, dropMarker_no_marker k s noMarker⟩
  · push Not at noMarker
    obtain ⟨i, hi, marker⟩ := noMarker
    obtain ⟨zeros, rest, rfl, first⟩ := List.eq_append_cons_of_mem (List.mem_of_getElem? marker)
    obtain ⟨j, rfl⟩ : ∃ j, zeros = List.replicate j false :=
      ⟨_, List.eq_replicate_of_mem fun b hb => Bool.eq_false_iff.2 fun h => first (h ▸ hb)⟩
    have early : j ≤ i := by
      by_contra later
      rw [List.getElem?_append_left (by rw [List.length_replicate]; omega)] at marker
      exact first (List.mem_of_getElem? marker)
    exact .inl ⟨j, by omega, by rw [dropMarker_marker k j rest (by omega)]⟩

/-- `unpack` gives the one bitstring the bytes unpack to (R197 to R199). -/
theorem unpackedAs_iff {ys : List Byte} {r : Bits} : UnpackedAs ys r ↔ r = unpackBytes ys := by
  rw [UnpackedAs, bits8_eq_bitsOfByte, unpackBytes]
  constructor
  · rintro (⟨k, hk, bits⟩ | ⟨noMarker, rfl⟩)
    · rw [bits, dropMarker_marker 8 k r hk]
    · exact (dropMarker_no_marker 8 _ noMarker).symm
  · rintro rfl
    exact dropMarker_cases 8 _

theorem runUnpack_of_bytes {s : State} (whole : s.iovf = false) (bytes : ∀ e ∈ s.ibuf, e.tag = false) :
    runUnpack s = State.emit { s with obuf := [], bitbuf := [] } ((unpackBytes s.inputBytes).map charOfBit) :=
  onInput_of_pass (s := s.emptyObuf) (inputError_of_bytes whole bytes) _

/-- Settles O49: the checks come in the order of R270; the two cases of `UnpackedAs` are those of the marker scan. -/
theorem unpackOutputsTheBitsAfterTheMarker : Obligations.UnpackOutputsTheBitsAfterTheMarker := by
  refine fun s => ⟨fun overflowed => ?_, fun pre e post whole text before tag => ?_, fun r whole bytes unpacked => ?_⟩
  · exact next_of_raise (runUnpack_of_error (s.inputError_iovf false checkByte overflowed))
  · exact next_of_raise (runUnpack_of_error (inputError_of_tagged whole text before tag))
  · obtain rfl : r = unpackBytes s.inputBytes := unpackedAs_iff.1 unpacked
    have run := runUnpack_of_bytes whole bytes
    rcases State.emit_cases { s with obuf := [], bitbuf := [] } ((unpackBytes s.inputBytes).map charOfBit) with
      ⟨fits, done⟩ | ⟨long, stop⟩
    · rw [List.length_map] at fits
      exact ⟨fun _ => next_of_ok (run.trans done), fun long => absurd fits (Nat.not_le.2 long)⟩
    · rw [List.length_map] at long
      exact ⟨fun fits => absurd fits (Nat.not_le.2 long), fun _ => next_of_raise (run.trans stop)⟩

/-! ## ENCODE -/

theorem inputError_of_coded {s : State} (whole : s.iovf = false) (nonempty : s.ibuf ≠ [])
    (codes : ∀ e ∈ s.ibuf, IsCoded s e) :
    s.inputError true (checkCoded s) = none :=
  (s.inputError_none true (checkCoded s)).2
    ⟨whole, fun _ => nonempty, fun e he => (checkCoded_eq_none_iff s e).2 (codes e he)⟩

theorem codeBits_inputSyms (s : State) :
    s.codeBits s.inputSyms = s.ibuf.flatMap fun e => (s.ctAt (symOf e)).bits := by
  rw [State.codeBits, State.inputSyms, List.flatMap_map]
  exact List.flatMap_congr fun e _ => by rw [elem_sym_eq_symOf]

section
variable {s : State} (coded : s.ctValid = true)
include coded

theorem runEncode_of_error {e : Raise} (h : s.inputError true (checkCoded s) = some e) :
    runEncode s = .raise e s.emptyObuf := by
  have run := onInput_of_error (s := s.emptyObuf) h fun s => s.emitPacked (s.codeBits s.inputSyms)
  rw [← run, runEncode, State.emptyObuf_ctValid, coded]
  rfl

theorem runEncode_of_coded (whole : s.iovf = false) (nonempty : s.ibuf ≠ []) (codes : ∀ e ∈ s.ibuf, IsCoded s e) :
    runEncode s = s.emptyObuf.emitPacked (s.codeBits s.inputSyms) := by
  have run := onInput_of_pass (s := s.emptyObuf) (inputError_of_coded whole nonempty codes)
    fun s => s.emitPacked (s.codeBits s.inputSyms)
  have ctAt : s.emptyObuf.codeBits s.emptyObuf.inputSyms = s.codeBits s.inputSyms := rfl
  rw [← ctAt, ← run, runEncode, State.emptyObuf_ctValid, coded]
  rfl

end

/-- Settles O52: the table is needed first, then the checks of R270 on coded elements, then the output's length. -/
theorem encodeChecksItsInput : Obligations.EncodeChecksItsInput := by
  refine fun s => ⟨fun none => ?_, fun coded overflowed => ?_, fun coded whole empty => ?_,
    fun pre e post coded whole text before bad => ?_, fun coded whole nonempty codes long => ?_⟩
  · rcases runEncode_cases s with ⟨-, stop⟩ | ⟨some, -⟩ | ⟨some, -⟩ | ⟨some, -⟩
    · exact next_of_raise stop
    all_goals exact absurd (none.symm.trans some) Bool.false_ne_true
  · exact next_of_raise (runEncode_of_error coded (s.inputError_iovf true _ overflowed))
  · exact next_of_raise (runEncode_of_error coded (s.inputError_empty _ whole empty))
  · have first := s.inputError_first true (checkCoded s) pre post e _ whole text
      (fun p hp => (checkCoded_eq_none_iff s p).2 (before p hp)) (checkCoded_of_not bad)
    refine (next_of_raise (runEncode_of_error coded first)).trans ?_
    cases e.tag
    · by_cases high : 128 ≤ e.data.toNat <;> simp only [high] <;> rfl
    · rfl
  · rcases s.emptyObuf.emitPacked_cases (s.codeBits s.inputSyms) with ⟨fits, -⟩ | ⟨-, stop⟩
    · rw [codeBits_inputSyms] at fits
      exact absurd fits long.not_ge
    · exact next_of_raise ((runEncode_of_coded coded whole nonempty codes).trans stop)

/-- Settles O53: what ENCODE packs is the concatenation of the codes. -/
theorem encodeOutputsTheCodesInOrder : Obligations.EncodeOutputsTheCodesInOrder := by
  intro s coded whole nonempty codes fits
  refine ⟨packBits (s.codeBits s.inputSyms), next_of_ok ((runEncode_of_coded coded whole nonempty codes).trans ?_),
    codeBits_inputSyms s ▸ packedAs_packBits _⟩
  rcases s.emptyObuf.emitPacked_cases (s.codeBits s.inputSyms) with ⟨-, done⟩ | ⟨long, -⟩
  · exact done
  · rw [codeBits_inputSyms] at long
    exact absurd fits long.not_ge

/-! ## DECODE -/

theorem runDecode_of_error {s : State} {e : Raise} (valid : s.treeValid = true)
    (h : s.inputError false checkByte = some e) : runDecode s = .raise e s.clearDecode := by
  rcases runDecode_cases s with ⟨invalid, -⟩ | ⟨-, e', h', stop⟩ | ⟨-, pass, -⟩ | ⟨-, pass, -⟩
  · exact absurd (invalid.symm.trans valid) Bool.false_ne_true
  · obtain rfl : e = e' := Option.some.inj (h.symm.trans h')
    exact stop
  · cases h.symm.trans pass
  · cases h.symm.trans pass

/-- Settles O54: the tree is needed first, then the checks of R270; OBUF and the walker are cleared before them. -/
theorem decodeChecksItsInput : Obligations.DecodeChecksItsInput := by
  refine fun s => ⟨fun invalid => ?_, fun valid overflowed => ?_, fun pre e post valid whole text before tag => ?_⟩
  · rcases runDecode_cases s with ⟨-, stop⟩ | ⟨valid, -⟩ | ⟨valid, -⟩ | ⟨valid, -⟩
    · exact next_of_raise stop
    all_goals exact absurd (invalid.symm.trans valid) Bool.false_ne_true
  · exact next_of_raise (runDecode_of_error valid (s.inputError_iovf false _ overflowed))
  · exact next_of_raise (runDecode_of_error valid (inputError_of_tagged whole text before tag))

/-- DECODE's two outcomes on untagged bytes, by the walk's result (R218, R220). -/
theorem exec_decode_of_walk {s : State} {r : List Sym × NodeIdx} (valid : s.treeValid = true) (whole : s.iovf = false)
    (bytes : ∀ e ∈ s.ibuf, e.tag = false) (walk : s.walk s.root (unpackBytes s.inputBytes) = r) :
    (r.1.length ≤ s.obufCap → exec .decode s = .next (decodeDone s r)) ∧
    (s.obufCap < r.1.length → exec .decode s =
      .next (errDone { s with obuf := [], bitbuf := [], cur := 0xFF, midcode := false } 8 0 2)) := by
  refine ⟨exec_decode_of_fits valid whole bytes walk, fun long => ?_⟩
  subst walk
  have passes := inputError_of_bytes whole bytes
  rcases runDecode_cases s with ⟨invalid, -⟩ | ⟨-, _, h, -⟩ | ⟨-, -, -, stop⟩ | ⟨-, -, fits, -⟩
  · exact absurd (invalid.symm.trans valid) Bool.false_ne_true
  · cases passes.symm.trans h
  · exact next_of_raise stop
  · exact absurd fits long.not_ge

/-- Bits that end at an internal node emit nothing (R219). -/
theorem walk_leadsTo_internal {s : State} {n c : NodeIdx} {left : Bits} (way : s.LeadsTo n left c)
    (internal : (s.nodeAt c).leaf = false) : s.walk n left = ([], c) := by
  induction left generalizing n with
  | nil =>
    obtain rfl : n = c := way
    rfl
  | cons b left ih =>
    obtain ⟨-, way⟩ := way
    have inside : (s.nodeAt (s.child n b)).leaf = false := by
      cases left with
      | nil =>
        obtain rfl : s.child n b = c := way
        exact internal
      | cons => exact way.1
    rw [State.walk]
    simpa [inside] using ih way

/-- The walk over root-to-leaf paths and a rest (R219). -/
theorem walk_paths {s : State} (root : (s.nodeAt s.root).leaf = false) {text : List (Sym × Bits)} {left : Bits}
    {c : NodeIdx} (codes : ∀ p ∈ text, s.IsCode p.1 p.2) (way : s.LeadsTo s.root left c)
    (internal : (s.nodeAt c).leaf = false) :
    s.walk s.root (text.flatMap Prod.snd ++ left) = (text.map Prod.fst, c) := by
  induction text with
  | nil => exact walk_leadsTo_internal way internal
  | cons p text ih =>
    obtain ⟨hp, codes⟩ := List.forall_mem_cons.1 codes
    rw [List.flatMap_cons, List.append_assoc, walk_isCode_append root hp, ih codes, List.map_cons]

/-- What DECODE leaves, in the words of the claims. -/
theorem decodeDone_eq (s : State) (text : List (Sym × Bits)) (c : NodeIdx) :
    decodeDone s (text.map Prod.fst, c) = okDone { s with
      obuf := text.map (fun p => BitVec.ofNat 8 p.1.toNat), bitbuf := []
      cur := c, midcode := decide (c ≠ s.root) } := by
  have symbols : (text.map Prod.fst).map (fun x => x.setWidth 8) = text.map fun p => BitVec.ofNat 8 p.1.toNat := by
    simp [BitVec.ofNat_toNat]
  have place : (c != s.root) = decide (c ≠ s.root) := by rw [bne, decide_not, beq_eq_decide]
  rw [decodeDone, symbols, place]
  rfl

/-- Settles O55: the walk emits a symbol at the end of each path and keeps its place in the rest. -/
theorem decodeFollowsThePaths : Obligations.DecodeFollowsThePaths := by
  intro s text left c valid whole bytes root codes way internal unpacked
  have walk : s.walk s.root (unpackBytes s.inputBytes) = (text.map Prod.fst, c) := by
    rw [show unpackBytes s.inputBytes = _ from (unpackedAs_iff.1 unpacked).symm, walk_paths root codes way internal]
  have outcome := exec_decode_of_walk valid whole bytes walk
  rwa [List.length_map, decodeDone_eq] at outcome

/-- In a tree every bitstring is the paths of some symbols and a rest that ends at an internal node (R219). -/
theorem WholeTree.exists_paths {s : State} (tree : WholeTree s) (bits : Bits) :
    ∃ (text : List (Sym × Bits)) (left : Bits) (c : NodeIdx), bits = text.flatMap Prod.snd ++ left ∧
      (∀ p ∈ text, s.IsCode p.1 p.2) ∧ s.LeadsTo s.root left c ∧ (s.nodeAt c).leaf = false := by
  induction n : bits.length using Nat.strong_induction_on generalizing bits with
  | _ n ih =>
    rcases leadsTo_internal_or_leaf (s := s) s.root bits with ⟨c, way, internal⟩ | ⟨p, rest, m, rfl, way, leaf⟩
    · exact ⟨[], bits, c, rfl, nofun, way, internal⟩
    · have code : s.IsCode (s.nodeAt m).sym p := ⟨m, way, leaf, rfl⟩
      have pos := List.length_pos_iff.2 (tree.isCode_ne_nil code)
      rw [List.length_append] at n
      obtain ⟨text, left, c, rfl, codes, way, internal⟩ := ih rest.length (by omega) rest rfl
      refine ⟨((s.nodeAt m).sym, p) :: text, left, c, ?_, List.forall_mem_cons.2 ⟨code, codes⟩, way, internal⟩
      rw [List.flatMap_cons, List.append_assoc]

/-- Settles O56: in a tree the walk leaves a leaf for the root and never gets stuck, so every bitstring has the form O55
speaks of. -/
theorem decodeCompletesOnEveryBitstring : Obligations.DecodeCompletesOnEveryBitstring := by
  intro s valid table two most whole bytes
  have tree : WholeTree s := ⟨table, two, most⟩
  obtain ⟨text, left, c, bits, codes, way, internal⟩ := tree.exists_paths (unpackBytes s.inputBytes)
  have unpacked : UnpackedAs (s.ibuf.map Elem.data) (text.flatMap Prod.snd ++ left) := unpackedAs_iff.2 bits.symm
  have below : c.toNat < s.nodeCnt.toNat := by
    have := tree.length_add_le le_rfl way
    have root := table.root_last
    have count := table.count
    omega
  exact ⟨text, left, c, unpacked, codes, way, below, internal,
    decodeFollowsThePaths s text left c valid whole bytes tree.root_internal codes way internal unpacked⟩

end Sys2Proof.Proofs
end

section
/-! The whole state invariant (10_state.md R28, R49, R58 to R60), kept by every step. FREQ makes a table, BUILD a tree
over a table, CGEN the codes of a tree; nothing else writes what the three invariants speak of. -/

namespace Sys2Proof.Proofs
open Sys2Proof Sys2Proof.Machine Sys2Proof.Claims

/-! ## The session's tables -/

/-- The flags, and what each valid flag stands for (R28, R58 to R60). -/
structure Tables (s : State) : Prop where
  flags : SessionFlags s
  table : s.ftValid = true → s.FtTable
  tree : s.treeValid = true → s.TreeTable
  codes : s.ctValid = true → s.CodeTable

/-- Flags, FT, its counts, NODE and CT are the same; everything else may differ. -/
inductive SameTables (s : State) : State → Prop
  | intro (phase : Phase) (pend : Word) (done err : Bool) (errcode : BitVec 4) (erridx : Word) (errval : Byte)
      (midcode : Bool) (cur : NodeIdx) (iovf : Bool) (sel : BitVec 8) (ibuf : List Elem) (obuf : List Byte)
      (sqHead tqHead tqTail : BitVec 8) (bitbuf : Bits) (ibufCap obufCap : Nat) (script : List HostAction)
      (reads : List Word) (left : Nat) (draws : List Nat) (issued : Nat) :
    SameTables s { s with
      phase := phase, pend := pend, done := done, err := err, errcode := errcode, erridx := erridx
      errval := errval, midcode := midcode, cur := cur, iovf := iovf, sel := sel, ibuf := ibuf, obuf := obuf
      sqHead := sqHead, tqHead := tqHead, tqTail := tqTail, bitbuf := bitbuf, ibufCap := ibufCap
      obufCap := obufCap, hostScript := script, hostReads := reads, busyLeft := left, busyDraws := draws
      issued := issued }

theorem SameTables.tables {s t : State} (same : SameTables s t) (h : Tables s) : Tables t := by
  obtain ⟨⟩ := same
  obtain ⟨⟨ct_tree, tree_ft, synth_two⟩, table, tree, codes⟩ := h
  refine ⟨⟨ct_tree, tree_ft, synth_two⟩, fun valid => ?_, fun valid => ?_, fun valid => ?_⟩
  · have h := table valid
    exact ⟨h.len_range, h.distinct, h.sorted, h.total_pos, h.total_sum, h.observed, h.synthetic⟩
  · have h := tree valid
    exact ⟨h.count, h.root_last, h.leaves, h.internal, h.one_parent⟩
  · have h := codes valid
    refine ⟨h.present, fun x present => ?_, h.len, h.prefix_free, h.complete⟩
    exact (isCode_congr (s := s) (by rfl) (by rfl)).2 (h.path x present)

theorem sameTables_complete (r : Run) : SameTables r.state r.complete := by
  cases r <;> exact .intro ..

/-- A pseudocode keeps the tables if its completion does. -/
theorem tables_of_complete {r : Run} (h : Tables r.complete) : Tables r.state := by
  refine SameTables.tables ?_ h
  cases r <;> exact .intro ..

theorem tables_beginSession (s : State) : Tables s.beginSession :=
  ⟨sessionFlags_beginSession s, nofun, nofun, nofun⟩

theorem tables_runFreq {s : State} (bound : s.ibuf.length ≤ 2 ^ 32 - 1) : Tables (runFreq s).state := by
  rcases runFreq_cases s with ⟨_, -, h⟩ | ⟨pass, h⟩
  · rw [h]
    exact tables_beginSession s
  · have nonempty : s.inputSyms ≠ [] :=
      mt List.map_eq_nil_iff.1 (((s.inputError_none true checkSymbol).1 pass).2.1 rfl)
    have table := freqDone_ftTable (inputSyms_length s ▸ bound) nonempty
    have done : (runFreq s).complete = freqDone s := by rw [h]; rfl
    have flags := sessionFlags_of_flagInv (flagInv_complete (sessionFlags_runFreq s))
    refine tables_of_complete ?_
    rw [done] at flags ⊢
    exact ⟨flags, fun _ => table, nofun, nofun⟩

theorem hasTable_of_tables {s : State} (h : Tables s) (valid : s.ftValid = true) : HasTable s :=
  ⟨valid, (h.table valid).len_range.1, (h.table valid).len_range.2⟩

theorem ftTable_buildDone {s : State} (h : s.FtTable) : (buildDone s).FtTable := by
  rw [buildDone_frame]
  exact ⟨h.len_range, h.distinct, h.sorted, h.total_pos, h.total_sum, h.observed, h.synthetic⟩

theorem tables_runBuild {s : State} (h : Tables s) : Tables (runBuild s).state := by
  rcases runBuild_cases s with ⟨-, run⟩ | ⟨valid, run⟩
  · rw [run]
    exact h
  · have done : (runBuild s).complete = buildDone s := by rw [run]; rfl
    have flags := sessionFlags_of_flagInv (flagInv_complete (sessionFlags_runBuild h.flags))
    have uncoded : (buildDone s).ctValid = false := by rw [buildDone_frame]
    refine tables_of_complete ?_
    rw [done] at flags ⊢
    exact ⟨flags, fun _ => ftTable_buildDone (h.table valid),
      fun _ => buildDone_treeTable (hasTable_of_tables h valid),
      fun coded => absurd (uncoded.symm.trans coded) Bool.false_ne_true⟩

theorem wholeTree_of_tables {s : State} (h : Tables s) (valid : s.treeValid = true) : WholeTree s :=
  ⟨h.tree valid, (h.table (h.flags.tree_ft valid)).len_range.1, (h.table (h.flags.tree_ft valid)).len_range.2⟩

theorem ftTable_cgenDone {s : State} (h : s.FtTable) : (cgenDone s).FtTable :=
  ⟨h.len_range, h.distinct, h.sorted, h.total_pos, h.total_sum, h.observed, h.synthetic⟩

theorem tables_cgenDone {s : State} (h : Tables s) (valid : s.treeValid = true) : Tables (cgenDone s) := by
  have table := h.table (h.flags.tree_ft valid)
  exact ⟨⟨fun _ => valid, h.flags.tree_ft, h.flags.synth_two⟩, fun _ => ftTable_cgenDone table,
    fun _ => treeTable_cgenDone (h.tree valid),
    fun _ => cgenDone_codeTable (wholeTree_of_tables h valid) table.distinct⟩

theorem tables_runCgen {s : State} (h : Tables s) : Tables (runCgen s).state := by
  rcases runCgen_cases s with ⟨-, run⟩ | ⟨valid, -⟩
  · rw [run]
    exact h
  · obtain ⟨t, run, done⟩ := runCgen_of_tree valid
    refine tables_of_complete ?_
    rw [run, Run.complete, done]
    exact tables_cgenDone h valid

theorem sameTables_of_sameSession {s t : State} (h : SameSession s t) : SameTables s t := by
  obtain ⟨⟩ := h
  exact .intro ..

theorem tables_runOf (i : Instr) {s : State} (bound : s.ibuf.length ≤ 2 ^ 32 - 1) (hs : Tables s) :
    Tables (runOf i s).state :=
  runOf_keeps (fun _ same _ => tables_runFreq (same.symm ▸ bound)) (fun _ => tables_runBuild)
    (fun _ => tables_runCgen) (fun t _ => tables_beginSession t)
    (fun _ _ same => (sameTables_of_sameSession same).tables) i hs

theorem tables_sameEngine {s t : State} (h : SameEngine s t) : Tables s → Tables t := by
  obtain ⟨⟩ := h
  exact SameTables.tables (.intro ..)

theorem tables_resetWith (a b : Nat) : Tables (State.resetWith a b) :=
  ⟨⟨nofun, nofun, nofun⟩, nofun, nofun, nofun⟩

theorem tables_hostEffect {s t : State} (h : HostEffect s t) (hs : Tables s) : Tables t := by
  cases h with
  | reset => exact tables_sameEngine (.intro ..) (tables_resetWith s.ibufCap s.obufCap)
  | _ => exact SameTables.tables (s := s) (.intro ..) hs

/-! ## The walker (R28, last clause) -/

/-- The walk in a tree ends at one of its nodes (R219). -/
theorem WholeTree.walk_ne_nil {s : State} (tree : WholeTree s) (bits : Bits) : (s.walk s.root bits).2 ≠ nilIdx := by
  obtain ⟨text, left, c, rfl, codes, way, internal⟩ := tree.exists_paths bits
  have most := tree.most
  have root := tree.table.root_last
  have below := tree.length_add_le le_rfl way
  rw [walk_paths tree.root_internal codes way internal]
  intro nil
  have : c.toNat = 255 := congrArg BitVec.toNat nil
  omega

theorem walkerInv_runDecode {s : State} (tree : s.treeValid = true → WholeTree s) :
    (runDecode s).state.WalkerInv := by
  rcases runDecode_cases s with ⟨-, h⟩ | ⟨-, _, -, h⟩ | ⟨-, -, -, h⟩ | ⟨valid, -, -, h⟩ <;> rw [h]
  · exact nofun
  · exact nofun
  · exact nofun
  · exact fun _ => (tree valid).walk_ne_nil _

theorem walkerInv_sessionOnly (s t : State) (h : SessionOnly s t) (hs : s.WalkerInv) : t.WalkerInv := by
  obtain ⟨⟩ := h
  exact hs

theorem walkerInv_outputOnly (s t : State) (h : OutputOnly s t) (hs : s.WalkerInv) : t.WalkerInv := by
  obtain ⟨⟩ := h
  exact hs

theorem walkerInv_runOf (i : Instr) {s : State} (tables : Tables s) (hs : s.WalkerInv) :
    (runOf i s).state.WalkerInv := by
  cases i with
  | clr => exact nofun
  | iclr => exact hs
  | freq => exact walkerInv_sessionOnly _ _ (sessionOnly_runFreq s) hs
  | build => exact walkerInv_sessionOnly _ _ (sessionOnly_runBuild s) hs
  | cgen => exact walkerInv_sessionOnly _ _ (sessionOnly_runCgen s) hs
  | encode => exact walkerInv_outputOnly _ _ (outputOnly_runEncode s) hs
  | decode => exact walkerInv_runDecode (wholeTree_of_tables tables)
  | pack => exact walkerInv_outputOnly _ _ (outputOnly_runPack s) hs
  | unpack => exact walkerInv_outputOnly _ _ (outputOnly_runUnpack s) hs
  | compress => exact runCompress_keeps walkerInv_sessionOnly walkerInv_outputOnly hs

theorem walkerInv_complete {r : Run} (h : r.state.WalkerInv) : r.complete.WalkerInv := by
  cases r <;> exact h

theorem walkerInv_hostEffect {s t : State} (h : HostEffect s t) (hs : s.WalkerInv) : t.WalkerInv := by
  cases h with
  | reset => exact nofun
  | _ => exact hs

theorem walkerInv_sameEngine {s t : State} (h : SameEngine s t) (hs : s.WalkerInv) : t.WalkerInv := by
  obtain ⟨⟩ := h
  exact hs

/-! ## The whole invariant -/

/-- The whole invariant by its four parts. -/
theorem inv_iff (s : State) : s.Inv ↔ BuffersOk s ∧ s.FlagInv ∧ s.GateInv ∧ Tables s ∧ s.WalkerInv := by
  constructor
  · rintro ⟨params, flags, walker, buffers, gates, table, tree, codes⟩
    exact ⟨⟨params, buffers⟩, flags, gates, ⟨sessionFlags_of_flagInv flags, table, tree, codes⟩, walker⟩
  · rintro ⟨⟨params, buffers⟩, flags, gates, ⟨-, table, tree, codes⟩, walker⟩
    exact ⟨params, flags, walker, buffers, gates, table, tree, codes⟩

/-- An IBUF within its capacity has fewer than `2^32` elements (R8, R49). -/
theorem ibuf_bound {s : State} (h : BuffersOk s) : s.ibuf.length ≤ 2 ^ 32 - 1 := by
  obtain ⟨⟨cap, -⟩, bounds⟩ := h
  simp only [capacityInRange, Bool.and_eq_true, decide_eq_true_iff] at cap
  exact bounds.ibuf_cap.trans cap.2

theorem inv_sameEngine (s t : State) (h : SameEngine s t) (hs : s.Inv) : t.Inv := by
  obtain ⟨buffers, flags, gates, tables, walker⟩ := (inv_iff s).1 hs
  exact (inv_iff t).2 ⟨buffersOk_sameEngine h buffers, flagInv_sameEngine h flags, gateInv_sameEngine h gates,
    tables_sameEngine h tables, walkerInv_sameEngine h walker⟩

theorem inv_hostEffect (s t : State) (h : HostEffect s t) (hs : s.Inv) : t.Inv := by
  obtain ⟨buffers, flags, gates, tables, walker⟩ := (inv_iff s).1 hs
  exact (inv_iff t).2 ⟨buffersOk_hostEffect h buffers, flagInv_hostEffect h flags, gateInv_hostEffect h gates,
    tables_hostEffect h tables, walkerInv_hostEffect h walker⟩

theorem inv_complete {r : Run} (buffers : BuffersOk r.state) (gates : r.state.GateInv) (tables : Tables r.state)
    (walker : r.state.WalkerInv) : r.complete.Inv :=
  (inv_iff _).2 ⟨buffersOk_complete buffers, flagInv_complete tables.flags, gateInv_complete gates,
    (sameTables_complete r).tables tables, walkerInv_complete walker⟩

theorem inv_command (i : Instr) (s : State) (hs : s.Inv) : (runOf i s).complete.Inv := by
  obtain ⟨buffers, -, gates, tables, walker⟩ := (inv_iff s).1 hs
  exact inv_complete (buffersOk_runOf i buffers) (gateInv_runOf i gates) (tables_runOf i (ibuf_bound buffers) tables)
    (walkerInv_runOf i tables walker)

theorem inv_illegal (s : State) (hs : s.Inv) : s.completeIllegal.Inv := by
  obtain ⟨buffers, -, gates, tables, walker⟩ := (inv_iff s).1 hs
  exact inv_complete (r := .raise ⟨.illegalCommand, s.pend, 0⟩ s) buffers gates tables walker

/-- The host's action is refused for its bus access alone (R74). -/
theorem hostStep_refused {s : State} {a : HostAction} {rest : List HostAction} {r : Refusal}
    (h : s.hostStep a rest = .refused r) : r = .notWholeRegister := by
  cases a with
  | busRd offset size | busWr offset size =>
    simp only [State.hostStep] at h
    split at h <;> cases h
    rfl
  | _ => cases h

/-- A HUFFCORE state's table has 2 to 128 entries, so BUILD is not refused (R158). -/
theorem exec_not_refused {s : State} (hs : s.Inv) (i : Instr) (r : Refusal) : exec i s ≠ .refused r := by
  rcases exec_cases i s with ⟨_, run⟩ | ⟨-, out, -⟩
  · rw [run]
    nofun
  · have range := (leavesOutOfRange_eq_false_iff s).2 fun valid => (hs.table valid).len_range
    exact absurd (range.symm.trans out) Bool.false_ne_true

theorem step_refused {s : State} (hs : s.Inv) {r : Refusal} (h : step s = .refused r) : r = .notWholeRegister := by
  rcases step_cases s with ⟨-, i, -, run⟩ | ⟨-, -, run⟩ | ⟨-, a, rest, -, run⟩ | ⟨-, -, run⟩ <;> rw [run] at h
  · exact absurd h (exec_not_refused hs i r)
  · cases h
  · exact hostStep_refused h
  · cases h

/-- Settles O30: each part of the invariant is kept; there are no faults; and BUILD is in range on a HUFFCORE state. -/
theorem wholeInvariantIsKept : Obligations.WholeInvariantIsKept := fun _ hs =>
  ⟨fun _ => step_keeps inv_sameEngine inv_hostEffect inv_command inv_illegal hs, nofun, fun _ => step_refused hs⟩

end Sys2Proof.Proofs
end

section
/-! COMPRESS (44_encode_decode.md R226, R227). Its session is that of FREQ, BUILD and CGEN; issued one by one these
differ in the record and in OBUF alone, which BUILD and CGEN do not read and ENCODE overwrites. -/

namespace Sys2Proof.Proofs
open Sys2Proof Sys2Proof.Machine Sys2Proof.Claims

/-! ## The session of COMPRESS -/

/-- The state FREQ's pseudocode leaves on a text (R134 to R139). -/
def tabled (s : State) : State := s.beginSession.countInput.buildFt

/-- The state BUILD's pseudocode leaves on a table (R150). -/
def built (s : State) : State := (mergeLoop 127 s.dropTree.loadLeaves).closeTree

/-- The state CGEN's pseudocode leaves on a tree (R170). -/
def coded (s : State) : State := { s.ftSyms.foldl State.writeCode s.dropCodes with ctValid := true }

theorem runFreq_of_pass {s : State} (h : s.inputError true checkSymbol = none) : runFreq s = .ok (tabled s) := by
  rcases runFreq_cases s with ⟨_, some, -⟩ | ⟨-, run⟩
  · cases some.symm.trans h
  · exact run

theorem runBuild_of_valid {s : State} (valid : s.ftValid = true) : runBuild s = .ok (built s) := by
  rcases runBuild_cases s with ⟨invalid, -⟩ | ⟨-, run⟩
  · exact absurd (invalid.symm.trans valid) Bool.false_ne_true
  · exact run

theorem runCgen_of_valid {s : State} (valid : s.treeValid = true) : runCgen s = .ok (coded s) := by
  rcases runCgen_cases s with ⟨invalid, -⟩ | ⟨-, run⟩
  · exact absurd (invalid.symm.trans valid) Bool.false_ne_true
  · exact run

theorem built_frame (s : State) : ∃ node sqHead tqHead tqTail nodeCnt root, built s = { s with
    treeValid := true, ctValid := false, ct := unsetAll s.ct, node := node, nodeCnt := nodeCnt, root := root
    sqHead := sqHead, tqHead := tqHead, tqTail := tqTail } := by
  obtain ⟨node, sqHead, tqHead, tqTail, loop⟩ := mergeLoop_frame 127 s.dropTree.loadLeaves
  exact ⟨node, sqHead, tqHead, tqTail, _, _, by rw [built, loop]; rfl⟩

theorem coded_frame (s : State) : ∃ ct, coded s = { s with ctValid := true, ct := ct } :=
  ⟨_, by rw [coded, State.writeCodes_frame]; rfl⟩

theorem ftList_coded_built (s : State) : (coded (built s)).ftList = s.ftList := by
  obtain ⟨_, frame⟩ := coded_frame (built s)
  obtain ⟨_, _, _, _, _, _, frame'⟩ := built_frame s
  rw [frame, frame']
  rfl

/-- Every symbol of the text is in the table (R135). -/
theorem mem_table_of_mem_text {s : State} (fits : s.inputSyms.length ≤ 2 ^ 32 - 1) {x : Sym} (hx : x ∈ s.inputSyms) :
    x ∈ (tabled s).ftList.map FtEntry.sym := by
  have table : (tabled s).ftList = (freqDone s).ftList := rfl
  rw [table]
  rcases observed_cases (List.ne_nil_of_mem hx) with ⟨y, single⟩ | several
  · have here : x ∈ observed s.inputSyms := mem_observed.2 hx
    rw [single, List.mem_singleton] at here
    simp [(freqDone_single fits single).2.2, here]
  · exact List.mem_map.2 ⟨entryOf s.inputSyms x, (mem_ftList_several fits several).2 ⟨hx, rfl⟩, rfl⟩

/-- A session ENCODE can encode its whole text with. -/
structure CodedSession (s c : State) : Prop where
  session : SessionOnly s c
  tables : Tables c
  valid : c.ftValid = true ∧ c.treeValid = true ∧ c.ctValid = true
  codes : ∀ e ∈ s.ibuf, IsCoded c e

theorem SessionOnly.trans {s t u : State} (h : SessionOnly s t) (h' : SessionOnly t u) : SessionOnly s u := by
  obtain ⟨⟩ := h
  obtain ⟨⟩ := h'
  exact .intro ..

section
variable {s : State} (pass : s.inputError true checkSymbol = none) (bound : s.ibuf.length ≤ 2 ^ 32 - 1)
include pass bound

/-- FREQ, BUILD and CGEN on a text leave such a session. -/
theorem codedSession_of_text : CodedSession s (coded (built (tabled s))) := by
  have run₁ := runFreq_of_pass pass
  have run₂ : runBuild (tabled s) = .ok (built (tabled s)) := runBuild_of_valid rfl
  have run₃ : runCgen (built (tabled s)) = .ok (coded (built (tabled s))) := runCgen_of_valid rfl
  have tables₁ : Tables (tabled s) := by simpa only [run₁, Run.state] using tables_runFreq bound
  have tables₂ : Tables (built (tabled s)) := by simpa only [run₂, Run.state] using tables_runBuild tables₁
  have tables₃ : Tables (coded (built (tabled s))) := by simpa only [run₃, Run.state] using tables_runCgen tables₂
  have session₁ : SessionOnly s (tabled s) := by simpa only [run₁, Run.state] using sessionOnly_runFreq s
  have session₂ : SessionOnly (tabled s) (built (tabled s)) := by
    simpa only [run₂, Run.state] using sessionOnly_runBuild (tabled s)
  have session₃ : SessionOnly (built (tabled s)) (coded (built (tabled s))) := by
    simpa only [run₃, Run.state] using sessionOnly_runCgen (built (tabled s))
  have tree := tables₃.flags.ct_tree rfl
  refine ⟨session₁.trans (session₂.trans session₃), tables₃, ⟨tables₃.flags.tree_ft tree, tree, rfl⟩, fun e he => ?_⟩
  have symbol := (checkSymbol_eq_none_iff e).1 (((s.inputError_none true checkSymbol).1 pass).2.2 e he)
  have known := mem_table_of_mem_text (inputSyms_length s ▸ bound) (mem_inputSyms.2 ⟨e, he, rfl⟩)
  rw [← ftList_coded_built] at known
  exact ⟨symbol, ((tables₃.codes rfl).present _).2 known⟩

end

/-! ## ENCODE on such a session -/

section
variable {s c : State} (session : CodedSession s c) (whole : s.iovf = false) (nonempty : s.ibuf ≠ [])
include session whole nonempty

theorem runEncode_of_session : runEncode c = c.emptyObuf.emitPacked (c.codeBits c.inputSyms) := by
  obtain ⟨same, -, ⟨-, -, valid⟩, codes⟩ := session
  obtain ⟨⟩ := same
  exact runEncode_of_coded valid whole nonempty codes

/-- ENCODE leaves the packed codes, or CapacityError cause 2 with OBUF empty (R213). -/
theorem encode_session_cases :
    (packedLength (c.codeBits c.inputSyms).length ≤ s.obufCap ∧ (runEncode c).complete = encodeDone c) ∨
    (s.obufCap < packedLength (c.codeBits c.inputSyms).length ∧
      (runEncode c).complete = errDone c.emptyObuf 8 0 2) := by
  have obufCap : c.emptyObuf.obufCap = s.obufCap := by
    obtain ⟨⟩ := session.session
    rfl
  rw [runEncode_of_session session whole nonempty, ← obufCap]
  rcases c.emptyObuf.emitPacked_cases (c.codeBits c.inputSyms) with ⟨fits, run⟩ | ⟨long, run⟩
  · exact .inl ⟨fits, by rw [run]; rfl⟩
  · exact .inr ⟨long, by rw [run]; rfl⟩

end

/-- COMPRESS of a text is ENCODE on the session of FREQ, BUILD and CGEN. -/
theorem runCompress_of_text {s : State} (pass : s.inputError true checkSymbol = none) :
    runCompress s = runEncode (coded (built (tabled s.emptyObuf))) := by
  have run₁ : runFreq s.emptyObuf = .ok (tabled s.emptyObuf) := runFreq_of_pass pass
  have run₂ : runBuild (tabled s.emptyObuf) = .ok (built (tabled s.emptyObuf)) := runBuild_of_valid rfl
  have run₃ : runCgen (built (tabled s.emptyObuf)) = .ok (coded (built (tabled s.emptyObuf))) :=
    runCgen_of_valid rfl
  rw [runCompress, run₁, Run.andThen, run₂, Run.andThen, run₃, Run.andThen]

/-! ## One by one (R226) -/

/-- `s` with the record and the output of `r`. -/
def besides (r s : State) : State := { s with
  phase := r.phase, done := r.done, err := r.err, errcode := r.errcode, erridx := r.erridx, errval := r.errval
  obuf := r.obuf }

theorem nodeAt_besides (r s : State) : (besides r s).nodeAt = s.nodeAt := rfl

theorem pick_besides (r s : State) : (besides r s).pick = (s.pick.1, besides r s.pick.2) := by
  have sqHead : (besides r s).sqHead = s.sqHead := rfl
  have tqHead : (besides r s).tqHead = s.tqHead := rfl
  have ftLen : (besides r s).ftLen = s.ftLen := rfl
  have tqTail : (besides r s).tqTail = s.tqTail := rfl
  rw [State.pick, State.pick, sqHead, tqHead, ftLen, tqTail, nodeAt_besides]
  split
  · rfl
  · split
    · rfl
    · split <;> rfl

theorem mergeStep_besides (r s : State) : (besides r s).mergeStep = besides r s.mergeStep := by
  rw [State.mergeStep, State.mergeStep, pick_besides, pick_besides]
  rfl

theorem mergeLoop_besides (r : State) (k : ℕ) (s : State) : mergeLoop k (besides r s) = besides r (mergeLoop k s) := by
  induction k generalizing s with
  | zero => rfl
  | succ k ih =>
    have queued : (besides r s).queued = s.queued := rfl
    rw [mergeLoop, mergeLoop, queued, mergeStep_besides, ih]
    split <;> rfl

theorem built_besides (r s : State) : built (besides r s) = besides r (built s) := by
  have loaded : (besides r s).dropTree.loadLeaves = besides r s.dropTree.loadLeaves := rfl
  rw [built, loaded, mergeLoop_besides]
  rfl

theorem writeCode_besides (r s : State) (x : Sym) : (besides r s).writeCode x = besides r (s.writeCode x) := by
  have path : (besides r s).codePath x = s.codePath x := codePath_congr (s := s) (by rfl) (by rfl) x
  rw [State.writeCode, State.writeCode, path]
  split <;> rfl

theorem writeCodes_besides (r : State) (xs : List Sym) (s : State) :
    xs.foldl State.writeCode (besides r s) = besides r (xs.foldl State.writeCode s) := by
  induction xs generalizing s with
  | nil => rfl
  | cons x xs ih => rw [List.foldl_cons, List.foldl_cons, writeCode_besides, ih]

theorem coded_besides (r s : State) : coded (besides r s) = besides r (coded s) := by
  have dropped : (besides r s).dropCodes = besides r s.dropCodes := rfl
  have syms : (besides r s).ftSyms = s.ftSyms := rfl
  rw [coded, dropped, syms, writeCodes_besides]
  rfl

theorem CodedSession.besides {s c : State} (h : CodedSession s c) (r : State) :
    CodedSession (besides r s) (besides r c) := by
  obtain ⟨session, tables, valid, codes⟩ := h
  refine ⟨?_, SameTables.tables (s := c) (.intro ..) tables, valid, codes⟩
  obtain ⟨⟩ := session
  exact .intro ..

/-- ENCODE overwrites the record and the output. -/
theorem encode_besides {s c : State} (session : CodedSession s c) (whole : s.iovf = false) (nonempty : s.ibuf ≠ [])
    (r : State) : (runEncode (besides r c)).complete = (runEncode c).complete := by
  rcases encode_session_cases session whole nonempty with ⟨fits, run⟩ | ⟨long, run⟩ <;>
    rcases encode_session_cases (session.besides r) whole nonempty with ⟨fits', run'⟩ | ⟨long', run'⟩
  · rw [run', run]
    rfl
  · exact absurd fits (Nat.not_le.2 long')
  · exact absurd fits' (Nat.not_le.2 long)
  · rw [run', run]
    rfl

theorem exec_build_of_valid {s : State} (table : HasTable s) : exec .build s = .next (built s).completeOk :=
  exec_build_of_table table.valid table.two table.most

theorem exec_cgen_of_valid {s : State} (valid : s.treeValid = true) : exec .cgen s = .next (coded s).completeOk :=
  congrArg (fun r : Run => Host.Outcome.next r.complete) (runCgen_of_valid valid)

/-- After FREQ on a text the other three commands end as COMPRESS ends. -/
theorem exec_three_of_text {s : State} (pass : s.inputError true checkSymbol = none)
    (bound : s.ibuf.length ≤ 2 ^ 32 - 1) :
    ∃ b c, exec .build (freqDone s) = .next b ∧ exec .cgen b = .next c ∧
      exec .encode c = .next (runEncode (coded (built (tabled s.emptyObuf)))).complete := by
  obtain ⟨whole, nonempty, -⟩ := (s.inputError_none true checkSymbol).1 pass
  have table : HasTable (freqDone s) := freqDone_hasTable (nonempty rfl) bound
  have session := codedSession_of_text (s := s.emptyObuf) pass bound
  obtain ⟨r, freq, record⟩ : ∃ r, freqDone s = besides r (tabled s.emptyObuf) ∧
      ∀ u, (besides r u).completeOk = besides r u := ⟨freqDone s, rfl, fun _ => rfl⟩
  rw [freq] at table ⊢
  refine ⟨_, _, exec_build_of_valid table, exec_cgen_of_valid rfl, ?_⟩
  rw [built_besides, record, coded_besides, record]
  exact congrArg Host.Outcome.next (encode_besides session whole (nonempty rfl) r)

theorem exec_compress_of_text {s : State} (pass : s.inputError true checkSymbol = none) :
    exec .compress s = .next (runEncode (coded (built (tabled s.emptyObuf)))).complete :=
  congrArg (fun r : Run => Host.Outcome.next r.complete) (runCompress_of_text pass)

/-- FREQ fails on an input error alone. -/
theorem exec_freq_cases {s f : State} (run : exec .freq s = .next f) :
    (∃ e, s.inputError true checkSymbol = some e ∧ f = s.beginSession.completeError e) ∨
    (s.inputError true checkSymbol = none ∧ f = freqDone s) := by
  obtain rfl : (runFreq s).complete = f := Host.Outcome.next.inj run
  rcases runFreq_cases s with ⟨e, error, run⟩ | ⟨pass, run⟩
  · exact .inl ⟨e, error, by rw [run]; rfl⟩
  · exact .inr ⟨pass, by rw [run]; rfl⟩

/-- Settles O57: an error of FREQ ends both; on a text BUILD and CGEN do not read the record and the output, the only
difference, and ENCODE overwrites them. -/
theorem compressIsTheFourCommands : Obligations.CompressIsTheFourCommands := by
  intro s f run
  rcases exec_freq_cases run with ⟨e, error, rfl⟩ | ⟨pass, rfl⟩
  · refine ⟨fun _ => ?_, nofun⟩
    rcases runCompress_cases s with ⟨e', error', stop⟩ | ⟨pass, -⟩
    · obtain rfl : e = e' := Option.some.inj (error.symm.trans error')
      exact congrArg (fun r : Run => Host.Outcome.next r.complete) stop
    · cases error.symm.trans pass
  · refine ⟨nofun, fun _ bound => ?_⟩
    obtain ⟨whole, nonempty, -⟩ := (s.inputError_none true checkSymbol).1 pass
    obtain ⟨b, c, build, cgen, encode⟩ := exec_three_of_text pass bound
    refine ⟨b, c, _, build, cgen, encode, exec_compress_of_text pass, ?_⟩
    have session := codedSession_of_text (s := s.emptyObuf) pass bound
    generalize coded (built (tabled s.emptyObuf)) = d at session
    obtain ⟨ft, tree, ct⟩ := session.valid
    rcases encode_session_cases session whole (nonempty rfl) with ⟨-, done⟩ | ⟨-, stop⟩
    · rw [done]
      exact ⟨ft, tree, ct, nofun⟩
    · rw [stop]
      exact ⟨ft, tree, ct, fun _ => ⟨rfl, rfl, rfl⟩⟩

/-- A code has at most 127 bits (R175), so the codes of a text have at most 127 per element. -/
theorem length_codeBits_le {c : State} (tables : Tables c) (valid : c.ctValid = true) (text : List Sym)
    (present : ∀ x ∈ text, (c.ctAt x).valid = true) : (c.codeBits text).length ≤ 127 * text.length := by
  have codes := tables.codes valid
  have most := (tables.table (tables.flags.tree_ft (tables.flags.ct_tree valid))).len_range.2
  rw [State.codeBits]
  induction text with
  | nil => rfl
  | cons x text ih =>
    obtain ⟨hx, present⟩ := List.forall_mem_cons.1 present
    have := (codes.len x hx).2.2
    have := ih present
    rw [List.flatMap_cons, List.length_append, List.length_cons]
    omega

/-- Settles O58: every symbol of the text has a code of at most 127 bits, so ENCODE's output fits. -/
theorem compressEncodesTheText : Obligations.CompressEncodesTheText := by
  intro s whole nonempty syms bound fits
  have pass := inputError_of_text whole nonempty syms
  have session := codedSession_of_text (s := s.emptyObuf) pass bound
  have compress := exec_compress_of_text pass
  generalize coded (built (tabled s.emptyObuf)) = c at session compress
  have ibuf : c.ibuf = s.ibuf := by
    obtain ⟨⟩ := session.session
    rfl
  obtain ⟨ft, tree, ct⟩ := session.valid
  have tables : Tables (encodeDone c) := SameTables.tables (s := c) (.intro ..) session.tables
  have present : ∀ x ∈ c.inputSyms, (c.ctAt x).valid = true := fun x hx => by
    obtain ⟨e, he, rfl⟩ := mem_inputSyms.1 hx
    exact (session.codes e (ibuf ▸ he)).2
  have short := length_codeBits_le session.tables ct c.inputSyms present
  rw [inputSyms_length, ibuf] at short
  rcases encode_session_cases session whole nonempty with ⟨-, done⟩ | ⟨long, -⟩
  · refine ⟨encodeDone c, done ▸ compress, ⟨rfl, rfl, rfl, rfl, rfl, rfl⟩, ft, tree, ct, tables.table ft,
      tables.tree tree, tables.codes ct, ?_, ?_⟩
    · have codes := packedAs_packBits (c.codeBits c.inputSyms)
      rw [codeBits_inputSyms, ibuf] at codes
      rw [show (encodeDone c).obuf = packBits (c.codeBits c.inputSyms) from rfl, codeBits_inputSyms, ibuf]
      exact codes
    · obtain ⟨⟩ := session.session
      obtain rfl := ft
      obtain rfl := tree
      obtain rfl := ct
      rfl
  · have : s.emptyObuf.obufCap = s.obufCap := rfl
    unfold packedLength at long
    omega

end Sys2Proof.Proofs
end

section
/-! FREQ's checks and its blindness to the order of the text (40_frequency_table.md R131 to R140, 41_tree_builder.md
R161), and the table of effects of every command by outcome (60_exceptions.md R272). -/

namespace Sys2Proof.Proofs
open Sys2Proof Sys2Proof.Machine Sys2Proof.Claims

/-! ## FREQ's checks (R132, R140) -/

/-- The state FREQ leaves on an error: the session is ended. -/
def freqFailed (s : State) (e : Raise) : State := s.beginSession.completeError e

theorem runFreq_complete_of_error {s : State} {e : Raise} (h : s.inputError true checkSymbol = some e) :
    (runFreq s).complete = freqFailed s e := by
  rcases exec_freq_cases (s := s) rfl with ⟨e', error, done⟩ | ⟨pass, -⟩
  · obtain rfl : e = e' := Option.some.inj (h.symm.trans error)
    exact done
  · cases h.symm.trans pass

/-- The counters' windows are shut after an error (R39, R40). -/
theorem readValue_freqFailed (s : State) (e : Raise) :
    (freqFailed s e).readValue 0x09 = 0 ∧ (freqFailed s e).readValue 0x0A = 0 := by
  have read := State.readValue_of_idle (s := freqFailed s e) rfl
  rw [read 0x09 .total rfl, read 0x0A .cnt rfl]
  have cntShut : (freqFailed s e).cntPresent = false := rfl
  exact ⟨rfl, by rw [State.regValue, cntShut, gated_false]⟩

/-- Settles O35: the checks come in the order of R270; the session is ended before them and nothing else is written. -/
theorem freqChecksItsInput : Obligations.FreqChecksItsInput := by
  intro s
  refine ⟨(runFreq s).complete, rfl, fun failed => ?_, fun overflowed => ?_, fun whole empty => ?_,
    fun pre e post whole text before => ⟨fun tag => ?_, fun tag high => ?_⟩, fun whole nonempty syms => ?_⟩
  · rcases exec_freq_cases (s := s) rfl with ⟨e, -, done⟩ | ⟨-, done⟩ <;> rw [done] at failed ⊢
    · obtain ⟨total, cnt⟩ := readValue_freqFailed s e
      exact ⟨⟨rfl, rfl, rfl, rfl, rfl, rfl, rfl, s.ctAt_beginSession⟩, total, cnt, rfl⟩
    · cases failed
  · rw [runFreq_complete_of_error (s.inputError_iovf true checkSymbol overflowed)]
    exact ⟨rfl, rfl, rfl, rfl, rfl, rfl⟩
  · rw [runFreq_complete_of_error (s.inputError_empty checkSymbol whole empty)]
    exact ⟨rfl, rfl, rfl, rfl, rfl, rfl⟩
  · rw [runFreq_complete_of_error (s.inputError_first true checkSymbol pre post e _ whole text
      (fun p hp => (checkSymbol_eq_none_iff p).2 (before p hp)) (checkSymbol_of_tag tag))]
    exact ⟨rfl, rfl, rfl, rfl, rfl, rfl⟩
  · rw [runFreq_complete_of_error (s.inputError_first true checkSymbol pre post e _ whole text
      (fun p hp => (checkSymbol_eq_none_iff p).2 (before p hp)) (checkSymbol_of_high tag high))]
    exact ⟨rfl, rfl, rfl, rfl, rfl, rfl⟩
  · rw [show (runFreq s).complete = freqDone s from
      Host.Outcome.next.inj (exec_freq_of_text whole nonempty syms)]
    exact freqDone_completedOk s

/-! ## The order of the text (R161) -/

theorem insertEntry_length (e : FtEntry) (xs : List FtEntry) : (insertEntry e xs).length = xs.length + 1 := by
  induction xs with
  | nil => rfl
  | cons x xs ih =>
    rw [insertEntry]
    split
    · rw [List.length_cons, ih, List.length_cons]
    · rfl

theorem sortEntries_length (es : List FtEntry) : (sortEntries es).length = es.length := by
  induction es with
  | nil => rfl
  | cons e es ih => rw [sortEntries, insertEntry_length, ih, List.length_cons]

theorem fixUp_length_le {es : List FtEntry} {n : ℕ} (two : 2 ≤ n) (h : es.length ≤ n) : (fixUp es).1.length ≤ n := by
  match es with
  | [_] => exact two
  | [] | _ :: _ :: _ => exact h

/-- The list E, with the synthetic entry where there is one, has at most 128 entries (R137). -/
theorem fixUp_entries_length_le (cnt : Vector Word 128) (total : Word) :
    (fixUp (entries cnt total)).1.length ≤ 128 :=
  fixUp_length_le (by decide) ((List.length_filterMap_le _ _).trans (List.length_finRange (n := 128)).le)

/-- The list E, fixed up, from the counters FREQ leaves. -/
def fixedEntries (s : State) : List FtEntry × Bool := fixUp (entries (freqDone s).cnt (freqDone s).total)

theorem synth_freqDone (s : State) : (freqDone s).synth = (fixedEntries s).2 := by
  simp only [fixedEntries, freqDone, State.completeOk_synth, State.completeOk_cnt, State.completeOk_total,
    State.buildFt_synth, State.buildFt_cnt, State.buildFt_total]

theorem toNat_ftLen_freqDone (s : State) : (freqDone s).ftLen.toNat = (sortEntries (fixedEntries s).1).length := by
  have most := fixUp_entries_length_le (freqDone s).cnt (freqDone s).total
  have ftLen : (freqDone s).ftLen = BitVec.ofNat 8 (fixedEntries s).1.length := by
    simp only [fixedEntries, freqDone, State.completeOk_ftLen, State.completeOk_cnt, State.completeOk_total,
      State.buildFt_ftLen, State.buildFt_cnt, State.buildFt_total]
  rw [sortEntries_length, ftLen, BitVec.toNat_ofNat, fixedEntries]
  omega

theorem ftList_freqDone (s : State) : (freqDone s).ftList = sortEntries (fixedEntries s).1 := by
  have most : (sortEntries (fixedEntries s).1).length ≤ 128 :=
    (sortEntries_length _).trans_le (fixUp_entries_length_le _ _)
  have ft : (freqDone s).ft = writeFt s.ft (sortEntries (fixedEntries s).1) := by
    simp only [fixedEntries, freqDone, State.completeOk_ft, State.completeOk_cnt, State.completeOk_total,
      State.buildFt_ft, State.buildFt_cnt, State.buildFt_total, State.countInput_ft, State.beginSession_ft]
  rw [State.ftList, toNat_ftLen_freqDone, ft, take_writeFt s.ft most]

/-- The counters depend on how often each symbol stands in the text (R133). -/
theorem countSyms_perm {text text' : List Sym} (h : text.Perm text') : countSyms text = countSyms text' := by
  simp only [countSyms, h.count_eq]

/-- Settles O39: counting sees the same counts, and everything else is made from them. -/
theorem freqIgnoresTheOrderOfTheText : Obligations.FreqIgnoresTheOrderOfTheText := by
  intro s s' t t' _ whole' perm run run' ok
  rcases exec_freq_cases run with ⟨e, -, rfl⟩ | ⟨pass, rfl⟩
  · cases ok
  · obtain ⟨-, nonempty, syms⟩ := (s.inputError_none true checkSymbol).1 pass
    have pass' : s'.inputError true checkSymbol = none := (s'.inputError_none true checkSymbol).2
      ⟨whole', fun h empty => nonempty h (empty ▸ perm).eq_nil, fun e he => syms e (perm.mem_iff.2 he)⟩
    rcases exec_freq_cases run' with ⟨e, error, -⟩ | ⟨-, rfl⟩
    · cases error.symm.trans pass'
    · have cnt : (freqDone s).cnt = (freqDone s').cnt := countSyms_perm (perm.map Elem.sym)
      have total : (freqDone s).total = (freqDone s').total := congrArg (BitVec.ofNat 32) perm.length_eq
      have same : fixedEntries s = fixedEntries s' := by rw [fixedEntries, fixedEntries, cnt, total]
      refine ⟨rfl, ?_, cnt, total, ?_⟩
      · rw [ftList_freqDone, ftList_freqDone, same]
      · rw [synth_freqDone, synth_freqDone, same]

/-! ## Effects by outcome (R272) -/

section
variable {s t : State}

theorem freq_effects (run : exec .freq s = .next t) :
    t.obuf = s.obuf ∧ t.ibuf = s.ibuf ∧ t.iovf = s.iovf ∧ t.midcode = s.midcode ∧ t.cur = s.cur ∧
    t.treeValid = false ∧ t.ctValid = false ∧ t.ftValid = !t.err ∧ (t.err = true → t.synth = false) := by
  rcases exec_freq_cases run with ⟨e, -, rfl⟩ | ⟨-, rfl⟩
  · exact ⟨rfl, rfl, rfl, rfl, rfl, rfl, rfl, rfl, fun _ => rfl⟩
  · exact ⟨rfl, rfl, rfl, rfl, rfl, rfl, rfl, rfl, nofun⟩

/-- BUILD's zeros in the table on an error are those the flag invariants imply. -/
theorem build_effects (flags : SessionFlags s) (run : exec .build s = .next t) :
    t.obuf = s.obuf ∧ t.ibuf = s.ibuf ∧ t.iovf = s.iovf ∧ t.midcode = s.midcode ∧ t.cur = s.cur ∧
    t.ftValid = s.ftValid ∧ t.ftValid = !t.err ∧ t.treeValid = !t.err ∧ t.ctValid = false ∧ t.synth = s.synth := by
  cases valid : s.ftValid with
  | false =>
    have noTree : s.treeValid = false := Bool.eq_false_iff.2 fun h => absurd (flags.tree_ft h) (by simp [valid])
    have noCodes : s.ctValid = false := Bool.eq_false_iff.2 fun h => absurd (flags.ct_tree h) (by simp [noTree])
    cases (exec_build_of_no_table valid).symm.trans run
    exact ⟨rfl, rfl, rfl, rfl, rfl, valid, valid, noTree, noCodes, rfl⟩
  | true =>
    obtain ⟨-, rfl⟩ := hasTable_of_exec_build valid run
    rw [buildDone_frame]
    exact ⟨rfl, rfl, rfl, rfl, rfl, valid, valid, rfl, rfl, rfl⟩

theorem cgen_effects (flags : SessionFlags s) (run : exec .cgen s = .next t) :
    t.obuf = s.obuf ∧ t.ibuf = s.ibuf ∧ t.iovf = s.iovf ∧ t.midcode = s.midcode ∧ t.cur = s.cur ∧
    t.ftValid = s.ftValid ∧ t.treeValid = s.treeValid ∧ t.treeValid = !t.err ∧ t.ctValid = !t.err ∧
    t.synth = s.synth := by
  cases valid : s.treeValid with
  | false =>
    have noCodes : s.ctValid = false := Bool.eq_false_iff.2 fun h => absurd (flags.ct_tree h) (by simp [valid])
    cases (cgenNeedsATree s valid).symm.trans run
    exact ⟨rfl, rfl, rfl, rfl, rfl, rfl, valid, valid, noCodes, rfl⟩
  | true =>
    cases (exec_cgen_of_tree valid).symm.trans run
    exact ⟨rfl, rfl, rfl, rfl, rfl, rfl, valid, valid, rfl, rfl⟩

theorem packBits_ne_nil (b : Bits) : packBits b ≠ [] := by
  rw [← List.length_pos_iff, packBits_length]
  exact Nat.succ_pos _

theorem encode_effects (run : exec .encode s = .next t) :
    (t.err = true → t.obuf = []) ∧ (t.err = false → s.ctValid = true ∧ t.obuf ≠ []) ∧
    t.ibuf = s.ibuf ∧ t.iovf = s.iovf ∧ t.midcode = s.midcode ∧ t.cur = s.cur ∧
    t.ftValid = s.ftValid ∧ t.treeValid = s.treeValid ∧ t.ctValid = s.ctValid ∧ t.synth = s.synth := by
  obtain rfl : (runEncode s).complete = t := Host.Outcome.next.inj run
  rcases runEncode_cases s with ⟨-, h⟩ | ⟨-, _, -, h⟩ | ⟨-, -, -, h⟩ | ⟨coded, -, -, h⟩ <;> rw [h]
  · exact ⟨fun _ => rfl, nofun, rfl, rfl, rfl, rfl, rfl, rfl, rfl, rfl⟩
  · exact ⟨fun _ => rfl, nofun, rfl, rfl, rfl, rfl, rfl, rfl, rfl, rfl⟩
  · exact ⟨fun _ => rfl, nofun, rfl, rfl, rfl, rfl, rfl, rfl, rfl, rfl⟩
  · exact ⟨nofun, fun _ => ⟨coded, packBits_ne_nil _⟩, rfl, rfl, rfl, rfl, rfl, rfl, rfl, rfl⟩

theorem decode_effects (run : exec .decode s = .next t) :
    (t.err = true → t.obuf = [] ∧ t.midcode = false ∧ t.cur = 0xFF) ∧ (t.err = false → s.treeValid = true) ∧
    t.ibuf = s.ibuf ∧ t.iovf = s.iovf ∧
    t.ftValid = s.ftValid ∧ t.treeValid = s.treeValid ∧ t.ctValid = s.ctValid ∧ t.synth = s.synth := by
  obtain rfl : (runDecode s).complete = t := Host.Outcome.next.inj run
  rcases runDecode_cases s with ⟨-, h⟩ | ⟨-, _, -, h⟩ | ⟨-, -, -, h⟩ | ⟨valid, -, -, h⟩ <;> rw [h]
  · exact ⟨fun _ => ⟨rfl, rfl, rfl⟩, nofun, rfl, rfl, rfl, rfl, rfl, rfl⟩
  · exact ⟨fun _ => ⟨rfl, rfl, rfl⟩, nofun, rfl, rfl, rfl, rfl, rfl, rfl⟩
  · exact ⟨fun _ => ⟨rfl, rfl, rfl⟩, nofun, rfl, rfl, rfl, rfl, rfl, rfl⟩
  · exact ⟨nofun, fun _ => valid, rfl, rfl, rfl, rfl, rfl, rfl⟩

theorem pack_effects (run : exec .pack s = .next t ∨ exec .unpack s = .next t) :
    (t.err = true → t.obuf = []) ∧
    t.ibuf = s.ibuf ∧ t.iovf = s.iovf ∧ t.midcode = s.midcode ∧ t.cur = s.cur ∧
    t.ftValid = s.ftValid ∧ t.treeValid = s.treeValid ∧ t.ctValid = s.ctValid ∧ t.synth = s.synth := by
  rcases run with run | run
  · obtain rfl : (runPack s).complete = t := Host.Outcome.next.inj run
    rcases runPack_cases s with ⟨_, -, h⟩ | ⟨-, -, h⟩ | ⟨-, -, h⟩ <;> rw [h]
    · exact ⟨fun _ => rfl, rfl, rfl, rfl, rfl, rfl, rfl, rfl, rfl⟩
    · exact ⟨fun _ => rfl, rfl, rfl, rfl, rfl, rfl, rfl, rfl, rfl⟩
    · exact ⟨nofun, rfl, rfl, rfl, rfl, rfl, rfl, rfl, rfl⟩
  · obtain rfl : (runUnpack s).complete = t := Host.Outcome.next.inj run
    rcases runUnpack_cases s with ⟨_, -, h⟩ | ⟨-, -, h⟩ | ⟨-, -, h⟩ <;> rw [h]
    · exact ⟨fun _ => rfl, rfl, rfl, rfl, rfl, rfl, rfl, rfl, rfl⟩
    · exact ⟨fun _ => rfl, rfl, rfl, rfl, rfl, rfl, rfl, rfl, rfl⟩
    · exact ⟨nofun, rfl, rfl, rfl, rfl, rfl, rfl, rfl, rfl⟩

theorem compress_effects (bound : s.ibuf.length ≤ 2 ^ 32 - 1) (run : exec .compress s = .next t) :
    t.ibuf = s.ibuf ∧ t.iovf = s.iovf ∧ t.midcode = s.midcode ∧ t.cur = s.cur ∧
    t.treeValid = t.ftValid ∧ t.ctValid = t.ftValid ∧ (t.err = true → t.obuf = []) ∧
    (t.ftValid = false → t.err = true ∧ t.synth = false) ∧
    (t.ftValid = true → t.err = true → t.errcode = 8 ∧ t.errval = 2) := by
  cases pass : s.inputError true checkSymbol with
  | some e =>
    rcases runCompress_cases s with ⟨e, -, stop⟩ | ⟨none, -⟩
    · obtain rfl : (runCompress s).complete = t := Host.Outcome.next.inj run
      rw [stop]
      exact ⟨rfl, rfl, rfl, rfl, rfl, rfl, fun _ => rfl, fun _ => ⟨rfl, rfl⟩, nofun⟩
    · cases none.symm.trans pass
  | none =>
    obtain ⟨whole, nonempty, -⟩ := (s.inputError_none true checkSymbol).1 pass
    have session := codedSession_of_text (s := s.emptyObuf) pass bound
    obtain rfl := Host.Outcome.next.inj ((exec_compress_of_text pass).symm.trans run)
    generalize coded (built (tabled s.emptyObuf)) = c at session
    obtain ⟨ft, tree, ct⟩ := session.valid
    have outcome := encode_session_cases session whole (nonempty rfl)
    obtain ⟨⟩ := session.session
    rcases outcome with ⟨-, done⟩ | ⟨-, stop⟩
    · rw [done]
      exact ⟨rfl, rfl, rfl, rfl, tree.trans ft.symm, ct.trans ft.symm, nofun,
        fun h => absurd (h.symm.trans ft) Bool.false_ne_true, nofun⟩
    · rw [stop]
      exact ⟨rfl, rfl, rfl, rfl, tree.trans ft.symm, ct.trans ft.symm, fun _ => rfl,
        fun h => absurd (h.symm.trans ft) Bool.false_ne_true, fun _ _ => ⟨rfl, rfl⟩⟩

end

/-- Settles O60: command by command, by the ways its pseudocode can end. -/
theorem flagsAndBuffersByOutcome : Obligations.FlagsAndBuffersByOutcome := by
  intro s t flags bound
  refine ⟨freq_effects, build_effects (sessionFlags_of_flagInv flags), cgen_effects (sessionFlags_of_flagInv flags),
    encode_effects, decode_effects, pack_effects, compress_effects bound, fun run => ?_, fun run => ?_⟩
  · obtain rfl : (runClr s).complete = t := Host.Outcome.next.inj run
    exact ⟨rfl, rfl, rfl, rfl, rfl, rfl, rfl, rfl, rfl, rfl⟩
  · obtain rfl : (runIclr s).complete = t := Host.Outcome.next.inj run
    exact ⟨rfl, rfl, rfl, rfl, rfl, rfl, rfl, rfl, rfl, rfl⟩

end Sys2Proof.Proofs
end

section
/-! The weights' sum (00_scope.md R14). A sum of at most 53 significant bits has a pattern of its own; a longer one is
rounded at the scale of its top bits, like the quotient, and does not overflow where it does not exceed the largest
finite number. -/

namespace Sys2Proof.Proofs
open Sys2Proof Sys2Proof.Machine Sys2Proof.Claims

/-- The number of a pattern, by its significand and scale (R12). -/
theorem weightValue_eq_mul_ulp (w : Weight) : weightValue w = weightSig w * ulp (weightScale w) := mul_div_assoc ..

theorem ulp_add (e k : ℕ) : ulp (e + k) = 2 ^ k * ulp e := by
  rw [ulp, ulp, pow_add, mul_comm, mul_div_assoc]

theorem weightValue_inj {a b : Weight} : weightValue a = weightValue b ↔ a = b := by
  rw [weightValue_eq_patternValue, weightValue_eq_patternValue, patternValue_strictMono.injective.eq_iff,
    BitVec.toNat_inj]

/-- A number that has a pattern is nearest to itself. -/
theorem isNearest_of_weightValue_eq {w : Weight} {x : ℚ} (finite : weightFinite w = true) (h : weightValue w = x) :
    IsNearest w x := by
  subst h
  refine ⟨finite, fun y _ ne => .inl ?_⟩
  rw [sub_self, abs_zero, abs_pos, sub_ne_zero]
  exact mt weightValue_inj.1 ne

/-- The largest finite number (R12). -/
def largestFinite : Weight := 0x7FEFFFFFFFFFFFFF

theorem lt_infinityBits_of_patternValue_le {b : ℕ} (h : patternValue b ≤ weightValue largestFinite) :
    b < infinityBits := by
  rw [weightValue_eq_patternValue, patternValue_strictMono.le_iff_le] at h
  exact Nat.lt_of_le_of_lt h (by decide)

theorem toNat_packWeight {m e : ℕ} (h : (e - 1) * 2 ^ 52 + m < infinityBits) :
    (packWeight m e).toNat = (e - 1) * 2 ^ 52 + m := by
  have inf : infinityBits < 2 ^ 64 := by decide
  simp only [packWeight, h, if_true, BitVec.toNat_ofNat]
  exact Nat.mod_eq_of_lt (h.trans inf)

/-! ## Short sums -/

/-- The magnitude of a packed significand without its hidden bit, which only the lowest scale admits. -/
theorem magnitude_pack_subnormal {m : ℕ} (h : m < 2 ^ 52) : magnitude ((1 - 1) * 2 ^ 52 + m) = m * 2 ^ 1 :=
  magnitude_of_fields h

/-- A significand that is shifted up as far as the scale admits is packed exactly. -/
theorem magnitude_shifted {n e : ℕ} (he : 1 ≤ e) (short : n.log2 ≤ 52) (zero : n = 0 → e = 1) :
    let k := min (52 - n.log2) (e - 1)
    magnitude ((e - k - 1) * 2 ^ 52 + n * 2 ^ k) = n * 2 ^ k * 2 ^ (e - k) := by
  intro k
  by_cases hidden : 2 ^ 52 ≤ n * 2 ^ k
  · refine magnitude_pack (by omega) hidden ?_
    calc n * 2 ^ k
      _ ≤ 2 ^ (n.log2 + 1) * 2 ^ (52 - n.log2) :=
        Nat.mul_le_mul Nat.lt_log2_self.le (Nat.pow_le_pow_right two_pos (min_le_left _ _))
      _ = 2 ^ 53 := by rw [← pow_add]; congr 1; omega
  · have lowest : e - k = 1 := by
      by_contra higher
      have shift : k = 52 - n.log2 := by omega
      have nonzero : n ≠ 0 := fun h => by have := zero h; omega
      refine hidden ?_
      calc 2 ^ 52
        _ = 2 ^ n.log2 * 2 ^ k := by rw [shift, ← pow_add]; congr 1; omega
        _ ≤ n * 2 ^ k := Nat.mul_le_mul_right _ (Nat.log2_self_le nonzero)
    rw [lowest]
    exact magnitude_pack_subnormal (Nat.lt_of_not_le hidden)

theorem nearestWeight_of_short {n e : ℕ} (he : 1 ≤ e) (short : n.log2 ≤ 52) (zero : n = 0 → e = 1)
    (fits : n * ulp e ≤ weightValue largestFinite) : IsNearest (nearestWeight n e) (n * ulp e) := by
  have magnitude := magnitude_shifted he short zero
  have pack : nearestWeight n e =
      packWeight (n * 2 ^ min (52 - n.log2) (e - 1)) (e - min (52 - n.log2) (e - 1)) := if_pos short
  have le := min_le_right (52 - n.log2) (e - 1)
  rw [pack]
  generalize min (52 - n.log2) (e - 1) = k at magnitude le
  have value : patternValue ((e - k - 1) * 2 ^ 52 + n * 2 ^ k) = n * ulp e := by
    rw [patternValue_of_magnitude magnitude]
    conv_rhs => rw [show e = e - k + k by omega, ulp_add]
    push_cast
    ring
  have finite := lt_infinityBits_of_patternValue_le (value.trans_le fits)
  have toNat := toNat_packWeight finite
  refine isNearest_of_weightValue_eq ?_ ?_
  · simpa [weightFinite, toNat] using finite
  · rw [weightValue_eq_patternValue, toNat, value]

/-! ## Long sums -/

theorem sameOrder_self (g n : ℕ) : SameOrder g n n := fun j =>
  ⟨by rw [← Nat.cast_mul, Nat.cast_le], by rw [← Nat.cast_mul, Nat.cast_le]⟩

/-- Rounding up leaves something over. -/
theorem roundShift_cases (n k : ℕ) :
    roundShift n k = n / 2 ^ k ∨ (roundShift n k = n / 2 ^ k + 1 ∧ n / 2 ^ k * 2 ^ k < n) := by
  have pos : 0 < 2 ^ k := Nat.two_pow_pos k
  have split := Nat.div_add_mod' n (2 ^ k)
  simp only [roundShift]
  split_ifs with up
  · exact .inr ⟨rfl, by omega⟩
  · exact .inl rfl

section
variable {n e k : ℕ} (hlog : n.log2 = k + 53)
include hlog

theorem quotient_bounds : 2 ^ 52 ≤ n / 2 ^ (k + 1) ∧ n / 2 ^ (k + 1) < 2 ^ 53 := by
  have nonzero : n ≠ 0 := by
    rintro rfl
    simp at hlog
  have lo : 2 ^ 52 * 2 ^ (k + 1) ≤ n := by
    rw [← pow_add, show 52 + (k + 1) = n.log2 by omega]
    exact Nat.log2_self_le nonzero
  have hi : n < 2 ^ (k + 1) * 2 ^ 53 := by
    rw [← pow_add, show k + 1 + 53 = n.log2 + 1 by omega]
    exact Nat.lt_log2_self
  exact ⟨(Nat.le_div_iff_mul_le (Nat.two_pow_pos _)).2 lo, Nat.div_lt_of_lt_mul hi⟩

/-- The number of the truncated significand does not exceed the sum. -/
theorem patternValue_quotient :
    patternValue ((e + k) * 2 ^ 52 + n / 2 ^ (k + 1)) = (n / 2 ^ (k + 1) * 2 ^ (k + 1) : ℕ) * ulp e := by
  obtain ⟨lo, hi⟩ := quotient_bounds hlog
  have magnitude := magnitude_pack (e := e + (k + 1)) (by omega) lo hi.le
  rw [show e + (k + 1) - 1 = e + k by omega] at magnitude
  rw [patternValue_of_magnitude magnitude, ulp_add]
  push_cast
  ring

/-- A sum within the finite numbers is not rounded up to infinity. -/
theorem roundShift_finite (fits : n * ulp e ≤ weightValue largestFinite) :
    (e + k) * 2 ^ 52 + roundShift n (k + 1) < infinityBits := by
  have truncated := patternValue_quotient (e := e) hlog
  rcases roundShift_cases n (k + 1) with down | ⟨up, exceeds⟩
  · rw [down]
    refine lt_infinityBits_of_patternValue_le (truncated.trans_le (le_trans ?_ fits))
    exact mul_le_mul_of_nonneg_right (Nat.cast_le.2 (Nat.div_mul_le_self ..)) (ulp_pos e).le
  · have below : patternValue ((e + k) * 2 ^ 52 + n / 2 ^ (k + 1)) < weightValue largestFinite :=
      truncated.trans_lt (lt_of_lt_of_le (mul_lt_mul_of_pos_right (Nat.cast_lt.2 exceeds) (ulp_pos e)) fits)
    rw [weightValue_eq_patternValue, patternValue_strictMono.lt_iff_lt] at below
    rw [up]
    exact Nat.lt_of_le_of_lt below (by decide)

theorem nearestWeight_of_long (fits : n * ulp e ≤ weightValue largestFinite) :
    IsNearest (nearestWeight n e) (n * ulp e) := by
  obtain ⟨lo, hi⟩ := quotient_bounds hlog
  have scale : n * ulp e / ulp (e + (k + 1)) = n / 2 ^ (k + 1) := by
    have := ulp_pos e
    rw [ulp_add]
    field_simp
  have pack : nearestWeight n e = packWeight (roundShift n (k + 1)) (e + (k + 1)) := by
    rw [nearestWeight, hlog, if_neg (by omega), Nat.add_sub_assoc (by norm_num)]
  have rounds : RoundsAt (n * ulp e) (roundShift n (k + 1)) (e + (k + 1)) := by
    refine ⟨by omega, ?_, (roundShift_le n (k + 1)).trans hi, ?_, roundShift_finite hlog fits⟩
    · rw [scale, le_div_iff₀ (by positivity)]
      exact_mod_cast (Nat.le_div_iff_mul_le (Nat.two_pow_pos _)).1 lo
    · rw [scale]
      exact roundsTo_roundShift (sameOrder_self (2 ^ k) n)
  rw [pack]
  exact rounds.isNearest

end

/-! ## The sum and the order -/

/-- The exact sum at a common scale (R14). -/
theorem weightValue_at_scale {e : ℕ} {w : Weight} (h : e ≤ weightScale w) :
    weightValue w = (weightSig w * 2 ^ (weightScale w - e) : ℕ) * ulp e := by
  rw [weightValue_eq_mul_ulp]
  conv_lhs => rw [show weightScale w = e + (weightScale w - e) by omega, ulp_add]
  push_cast
  ring

/-- Only zero has no significand, and its scale is the lowest. -/
theorem weightScale_of_sig_eq_zero {w : Weight} (h : weightSig w = 0) : weightScale w = 1 := by
  unfold weightSig at h
  unfold weightScale
  split at h
  next subnormal => rw [subnormal]; rfl
  next => omega

theorem wAdd_isNearest {a b : Weight} (ha : weightFinite a = true) (hb : weightFinite b = true)
    (fits : weightValue a + weightValue b ≤ weightValue largestFinite) :
    IsNearest (wAdd a b) (weightValue a + weightValue b) := by
  have sum : wAdd a b = nearestWeight (weightSig a * 2 ^ (weightScale a - min (weightScale a) (weightScale b)) +
      weightSig b * 2 ^ (weightScale b - min (weightScale a) (weightScale b)))
      (min (weightScale a) (weightScale b)) := if_pos (by rw [ha, hb]; rfl)
  have scale : 1 ≤ min (weightScale a) (weightScale b) := le_min (le_max_left _ _) (le_max_left _ _)
  rw [sum]
  rw [weightValue_at_scale (min_le_left (weightScale a) (weightScale b)),
    weightValue_at_scale (min_le_right (weightScale a) (weightScale b)), ← add_mul, ← Nat.cast_add] at fits ⊢
  generalize hn : weightSig a * 2 ^ (weightScale a - min (weightScale a) (weightScale b)) +
      weightSig b * 2 ^ (weightScale b - min (weightScale a) (weightScale b)) = n at fits ⊢
  rcases Nat.lt_or_ge 52 n.log2 with long | short
  · exact nearestWeight_of_long (k := n.log2 - 53) (by omega) fits
  · refine nearestWeight_of_short scale short (fun zero => ?_) fits
    rw [zero, Nat.add_eq_zero_iff, Nat.mul_eq_zero, Nat.mul_eq_zero] at hn
    have sigA := hn.1.resolve_right (Nat.two_pow_pos _).ne'
    rw [weightScale_of_sig_eq_zero sigA] at scale ⊢
    exact le_antisymm (min_le_left _ _) scale

/-- Settles O32: the exact sum is a natural number of units at the smaller scale, rounded once; patterns are ordered as
their numbers. -/
theorem wAddIsTheNearestSum : Obligations.WAddIsTheNearestSum := by
  intro a b ha hb
  refine ⟨wAdd_isNearest ha hb, ?_⟩
  rw [wLe_of_finite ha hb, decide_eq_true_iff, weightValue_eq_patternValue, weightValue_eq_patternValue,
    patternValue_strictMono.le_iff_le]

end Sys2Proof.Proofs
end

section
/-! The tier-1 statements: the decoder's illegal words, one step while IDLE and while BUSY, the registers' fields, reset
and CLR; and the bounded completion of a pending command. -/

namespace Sys2Proof.Proofs
open Sys2Proof Sys2Proof.Machine Sys2Proof.Claims

/-! ## Words (R100 to R103) -/

/-- The commands in the order of their opcodes (R101). -/
def commandsByOpcode : List Instr :=
  [.clr, .iclr, .freq, .build, .cgen, .encode, .decode, .pack, .unpack, .compress]

theorem toNat_encode_commandsByOpcode (k : Fin 10) : (encode commandsByOpcode[k]).toNat = k + 1 := by
  revert k
  decide

/-- The legal words are those of 1 to 10 (R101, R102). -/
theorem exists_decodeWord_iff (w : Word) : (∃ i, decodeWord w = .ok i) ↔ 1 ≤ w.toNat ∧ w.toNat ≤ 10 := by
  simp only [decodeWord_eq_ok_iff]
  constructor
  · rintro ⟨i, rfl⟩
    cases i <;> decide
  · rintro ⟨lo, hi⟩
    have word := toNat_encode_commandsByOpcode ⟨w.toNat - 1, by omega⟩
    exact ⟨_, BitVec.eq_of_toNat_eq (by rw [word]; exact (Nat.sub_add_cancel lo).symm)⟩

/-- Settles O2: the ten legal words are the numbers 1 to 10. -/
theorem reservedWordsAreIllegal : Obligations.ReservedWordsAreIllegal := by
  intro w
  rw [← not_exists, exists_decodeWord_iff]
  omega

theorem tableWord_toNat (w : Word) : tableWord 32 w.toNat = w := by
  rw [tableWord, Nat.mod_eq_of_lt w.isLt, BitVec.ofNat_toNat, BitVec.setWidth_eq]

/-- Settles O3: the decoder accepts a command's own word, and the table's numbering is that of the word. -/
theorem encodedCommandsDecodeBack : Obligations.EncodedCommandsDecodeBack := by
  intro i
  have decode : decodeWord (encode i) = .ok i := decodeWord_eq_ok_iff.2 rfl
  refine ⟨by cases i <;> rfl, decode, ?_⟩
  rw [decodeTableWord, tableWord_toNat, decode]

/-- Settles O4: seven of the words are encodings; the other three are refused by the test of their fields. -/
theorem sampleWordsDecode : Obligations.SampleWordsDecode :=
  ⟨decodeWord_eq_ok_iff.2 rfl, decodeWord_eq_ok_iff.2 rfl, decodeWord_eq_ok_iff.2 rfl, decodeWord_eq_ok_iff.2 rfl,
    decodeWord_eq_ok_iff.2 rfl, decodeWord_eq_ok_iff.2 rfl, decodeWord_eq_ok_iff.2 rfl, rfl, rfl, rfl⟩

/-! ## Completion (R235, R237) -/

theorem completionDue_iff (s : State) :
    s.completionDue = true ↔ s.phase = .busy ∧ (s.busyLeft = 0 ∨ s.hostScript = []) := by
  simp [State.completionDue, State.busyBit]

theorem step_of_due {s : State} (due : s.completionDue = true) : step s = s.completion := if_pos due

theorem step_of_not_due {s : State} (due : s.completionDue = false) {a : HostAction} {rest : List HostAction}
    (script : s.hostScript = a :: rest) : step s = s.hostStep a rest := by
  rcases step_cases s with ⟨now, -⟩ | ⟨now, -⟩ | ⟨-, b, rest', script', run⟩ | ⟨-, script', -⟩
  · exact absurd (due.symm.trans now) Bool.false_ne_true
  · exact absurd (due.symm.trans now) Bool.false_ne_true
  · obtain ⟨rfl, rfl⟩ := List.cons.inj (script.symm.trans script')
    exact run
  · cases script.symm.trans script'

theorem completion_of_legal {s : State} {i : Instr} (h : decodeWord s.pend = .ok i) : s.completion = exec i s := by
  rw [State.completion, h]

/-- Settles O5: the pending command is due, and its word is legal. -/
theorem stepCompletesThePendingCommand : Obligations.StepCompletesThePendingCommand := fun s _ busy left legal =>
  (step_of_due ((completionDue_iff s).2 ⟨busy, left⟩)).trans (completion_of_legal legal)

/-- Settles O6: a placed command is pending with nothing left to wait for. -/
theorem placedCommandRunsAtTheNextStep : Obligations.PlacedCommandRunsAtTheNextStep := by
  intro s i
  have placed : s.withFetchWord 32 (encode i).toNat = s.accept (encode i) 0 := by
    rw [State.withFetchWord, State.placeCommand, tableWord_toNat]
  rw [placed]
  exact ⟨stepCompletesThePendingCommand _ i rfl (.inl rfl) (decodeWord_eq_ok_iff.2 rfl), rfl⟩

/-- Settles O7: a word outside 1 to 10 decodes to no command. -/
theorem illegalWordRecordsOnlyItself : Obligations.IllegalWordRecordsOnlyItself := by
  intro s busy left illegal
  rw [step_of_due ((completionDue_iff s).2 ⟨busy, left⟩), State.completion]
  split
  next i legal =>
    have range := (exists_decodeWord_iff s.pend).1 ⟨i, legal⟩
    simp only [List.mem_cons, List.not_mem_nil, or_false] at illegal
    omega
  next => rfl

/-! ## STATUS (R31, R48) -/

theorem toNat_statusWord (s : State) :
    s.statusWord.toNat = 2 ^ 12 * s.errcode.toNat + 2 ^ 8 * s.iovf.toNat + 2 ^ 7 * s.midcode.toNat
      + 2 ^ 6 * s.synth.toNat + 2 ^ 5 * s.ctValid.toNat + 2 ^ 4 * s.treeValid.toNat + 2 ^ 3 * s.ftValid.toNat
      + 2 ^ 2 * s.err.toNat + 2 * s.done.toNat + s.busyBit.toNat := by
  simp only [State.statusWord, toNat_append_eq_add, BitVec.toNat_ofBool]
  have high : (0 : BitVec 16).toNat = 0 := rfl
  have gap : (0 : BitVec 3).toNat = 0 := rfl
  omega

theorem statusDigits_le (s : State) :
    s.busyBit.toNat ≤ 1 ∧ s.done.toNat ≤ 1 ∧ s.err.toNat ≤ 1 ∧ s.ftValid.toNat ≤ 1 ∧ s.treeValid.toNat ≤ 1 ∧
    s.ctValid.toNat ≤ 1 ∧ s.synth.toNat ≤ 1 ∧ s.midcode.toNat ≤ 1 ∧ s.iovf.toNat ≤ 1 := by
  simp only [Bool.toNat_le, and_self]

/-- A bit of a word is set when its number's digit is 1. -/
theorem getLsbD_eq_of_digit {w : Word} {i : ℕ} {b : Bool} (h : w.toNat / 2 ^ i % 2 = b.toNat) : w.getLsbD i = b := by
  rw [BitVec.getLsbD, Nat.testBit_eq_decide_div_mod_eq, h]
  cases b <;> rfl

theorem statusWord_bits (s : State) :
    s.statusWord.getLsbD 0 = s.busyBit ∧ s.statusWord.getLsbD 1 = s.done ∧ s.statusWord.getLsbD 2 = s.err ∧
    s.statusWord.getLsbD 3 = s.ftValid ∧ s.statusWord.getLsbD 4 = s.treeValid ∧
    s.statusWord.getLsbD 5 = s.ctValid ∧ s.statusWord.getLsbD 6 = s.synth ∧ s.statusWord.getLsbD 7 = s.midcode ∧
    s.statusWord.getLsbD 8 = s.iovf := by
  have word := toNat_statusWord s
  have digits := statusDigits_le s
  and_intros <;> exact getLsbD_eq_of_digit (by omega)

theorem statusWord_high (s : State) :
    s.statusWord.toNat / 2 ^ 9 % 8 = 0 ∧ s.statusWord.toNat / 2 ^ 12 = s.errcode.toNat := by
  have word := toNat_statusWord s
  have digits := statusDigits_le s
  omega

theorem readValue_status (s : State) : s.readValue 1 = s.statusWord := rfl

/-- What STATUS shows from an issue on (R236). -/
theorem statusWord_issue (s : State) (w : Word) :
    (s.issue w).statusWord.toNat % 8 = 1 ∧ (s.issue w).statusWord.toNat / 2 ^ 9 = 0 ∧
    (s.issue w).statusWord.toNat / 8 % 64 = s.statusWord.toNat / 8 % 64 := by
  have before := toNat_statusWord s
  have after : (s.issue w).statusWord.toNat = 2 ^ 12 * 0 + 2 ^ 8 * s.iovf.toNat + 2 ^ 7 * s.midcode.toNat
      + 2 ^ 6 * s.synth.toNat + 2 ^ 5 * s.ctValid.toNat + 2 ^ 4 * s.treeValid.toNat + 2 ^ 3 * s.ftValid.toNat
      + 2 ^ 2 * 0 + 2 * 0 + 1 := toNat_statusWord (s.issue w)
  have digits := statusDigits_le s
  omega

/-- Settles O18: STATUS as a sum of its fields, and the issue's changes in it. -/
theorem statusFields : Obligations.StatusFields := by
  refine ⟨fun s => ?_, fun s w idle => ?_⟩
  · obtain ⟨busy, done, err, ft, tree, ct, synth, midcode, iovf⟩ := statusWord_bits s
    obtain ⟨gap, code⟩ := statusWord_high s
    have level : s.busyBit = decide (s.phase = .busy) := beq_eq_decide ..
    exact ⟨busy.trans level, done, err, ft, tree, ct, synth, midcode, iovf, gap, code, done.symm, err.symm⟩
  · rw [State.hostWrite_cmd_of_idle idle]
    exact statusWord_issue s w

/-! ## Accesses while IDLE (R235 to R243) -/

theorem State.hostWrite_push_of_idle {s : State} (idle : s.phase = .idle) (w : Word) :
    s.hostWrite 0x04 w = s.pushElem (elemOfWord w) :=
  if_neg (Bool.eq_false_iff.1 (State.busyBit_of_idle idle))

/-- Settles O13: the element is the word's bit 8 and its low byte. -/
theorem pushAppendsOrMarksOverflow : Obligations.PushAppendsOrMarksOverflow := by
  intro s w idle
  rw [State.hostWrite_push_of_idle idle]
  rcases s.pushElem_cases (elemOfWord w) with ⟨room, push⟩ | ⟨full, push⟩
  · exact ⟨fun _ => push, fun full => absurd room full.not_gt⟩
  · exact ⟨fun room => absurd room full.not_gt, fun _ => push⟩

/-- Settles O17: OBUF_POP has one index, and the two write-only registers show 0. -/
theorem onlyThePopReadHasAnEffect : Obligations.OnlyThePopReadHasAnEffect := fun s _ idle =>
  ⟨fun ne => s.afterRead_eq_self fun pop => ne (eq_of_regAt_eq_some pop rfl),
    State.readValue_of_idle idle 0x00 .cmd rfl, State.readValue_of_idle idle 0x04 .ibufPush rfl⟩

theorem wholeRegister_iff {offset size : ℕ} : wholeRegister offset size = true ↔ size = 4 ∧ offset % 4 = 0 := by
  simp [wholeRegister]

section
variable (s : State) (rest : List HostAction) {offset size : ℕ}

theorem hostStep_bus_whole (whole : size = 4 ∧ offset % 4 = 0) (w : Word) :
    s.hostStep (.busRd offset size) rest = s.hostStep (.rd (offset / 4)) rest ∧
    s.hostStep (.busWr offset size w) rest = s.hostStep (.wr (offset / 4) w) rest :=
  ⟨if_pos (wholeRegister_iff.2 whole), if_pos (wholeRegister_iff.2 whole)⟩

theorem hostStep_bus_part (part : ¬ (size = 4 ∧ offset % 4 = 0)) (w : Word) :
    s.hostStep (.busRd offset size) rest = .refused .notWholeRegister ∧
    s.hostStep (.busWr offset size w) rest = .refused .notWholeRegister :=
  ⟨if_neg (mt wholeRegister_iff.1 part), if_neg (mt wholeRegister_iff.1 part)⟩

end

/-- Settles O11: the bus access tests just this. -/
theorem busAccessIsAWholeRegister : Obligations.BusAccessIsAWholeRegister := fun s rest _ _ w _ =>
  ⟨fun whole => hostStep_bus_whole s rest whole w, fun part => hostStep_bus_part s rest part w⟩

theorem afterRead_setScript (s : State) (rest : List HostAction) (i : ℕ) :
    (s.setScript rest).afterRead i = (s.afterRead i).setScript rest := by
  have busy : (s.setScript rest).busyBit = s.busyBit := rfl
  rw [State.afterRead, State.afterRead, busy]
  split
  · rfl
  · split <;> rfl

theorem hostWrite_setScript (s : State) (rest : List HostAction) (i : ℕ) (w : Word) :
    (s.setScript rest).hostWrite i w = (s.hostWrite i w).setScript rest := by
  have busy : (s.setScript rest).busyBit = s.busyBit := rfl
  rw [State.hostWrite, State.hostWrite, busy]
  split
  · rfl
  · split
    · rfl
    · rw [State.pushElem, State.pushElem, apply_ite (State.setScript · rest)]
      rfl
    · rfl
    · rfl

theorem readValue_setScript (s : State) (rest : List HostAction) (i : ℕ) :
    (s.setScript rest).readValue i = s.readValue i := rfl

section
variable {s : State} (idle : s.phase = .idle)
include idle

theorem step_of_idle {a : HostAction} {rest : List HostAction} (script : s.hostScript = a :: rest) :
    step s = s.hostStep a rest := by
  refine step_of_not_due ?_ script
  rw [State.completionDue, State.busyBit_of_idle idle, Bool.false_and]

theorem spendDelay_of_idle : s.spendDelay = s := by
  rw [State.spendDelay, State.busyBit_of_idle idle]
  rfl

theorem hostStep_rd_of_idle (rest : List HostAction) (i : ℕ) : s.hostStep (.rd i) rest =
    .next { s.afterRead i with hostScript := rest, hostReads := s.hostReads ++ [s.readValue i] } := by
  rw [State.hostStep, spendDelay_of_idle idle, State.hostRead, afterRead_setScript, readValue_setScript]
  rfl

theorem hostStep_wr_of_idle (rest : List HostAction) (i : ℕ) (w : Word) :
    s.hostStep (.wr i w) rest = .next { s.hostWrite i w with hostScript := rest } := by
  rw [State.hostStep, spendDelay_of_idle idle, hostWrite_setScript]
  rfl

/-- WAIT reads BUSY = 0 and is over (R117). -/
theorem hostStep_wait_of_idle (rest : List HostAction) : s.hostStep .wait rest =
    .next { s with hostScript := rest, hostReads := s.hostReads ++ [s.statusWord] } := by
  have idleBit : ((s.setScript rest).readValue statusIndex).getLsbD 0 = false :=
    (statusWord_bits s).1.trans (State.busyBit_of_idle idle)
  rw [State.hostStep, spendDelay_of_idle idle]
  simp only [idleBit, Bool.false_eq_true, if_false]
  rw [State.hostRead, State.afterRead_eq_self _ (by decide)]
  rfl

/-- POPALL pops an element and stays at the head of the script (R117). -/
theorem hostStep_popAll_of_cons {rest : List HostAction} {b : Byte} {bs : List Byte} (obuf : s.obuf = b :: bs) :
    s.hostStep .popAll rest = .next { s with
      obuf := bs, hostScript := .popAll :: rest, hostReads := s.hostReads ++ [b.setWidth 32] } := by
  have value : (s.setScript rest).readValue obufPopIndex = b.setWidth 32 := by
    rw [readValue_setScript, obufPopIndex, State.readValue_of_idle idle 0x06 .obufPop rfl, State.regValue, obuf]
  have more : (b.setWidth 32).getLsbD 31 = false := by
    rw [BitVec.getLsbD_setWidth, BitVec.getLsbD_of_ge _ _ (by norm_num), Bool.and_false]
  rw [State.hostStep, spendDelay_of_idle idle]
  simp only [value, more, Bool.false_eq_true, if_false]
  rw [State.hostRead, value, afterRead_setScript, obufPopIndex, State.afterRead_pop_of_idle idle, obuf]
  rfl

/-- POPALL reads an empty OBUF and is over (R117). -/
theorem hostStep_popAll_of_nil {rest : List HostAction} (obuf : s.obuf = []) :
    s.hostStep .popAll rest =
      .next { s with hostScript := rest, hostReads := s.hostReads ++ [0x80000000] } := by
  have value : (s.setScript rest).readValue obufPopIndex = 0x80000000 := by
    rw [readValue_setScript, obufPopIndex, State.readValue_of_idle idle 0x06 .obufPop rfl, State.regValue, obuf]
  have same : { s with obuf := s.obuf.tail } = s := by rw [obuf, List.tail_nil, ← obuf]
  have lastWord : (0x80000000 : Word).getLsbD 31 = true := rfl
  rw [State.hostStep, spendDelay_of_idle idle]
  simp only [value, lastWord, if_true]
  rw [State.hostRead, value, afterRead_setScript, obufPopIndex, State.afterRead_pop_of_idle idle, same]
  rfl

end

/-- Settles O8: while IDLE no delay is spent, and each action is its access on the state without the action. -/
theorem idleStepIsTheHostsAccess : Obligations.IdleStepIsTheHostsAccess := by
  intro s rest idle
  refine ⟨fun i script => ?_, fun i w script => ?_, fun script => ⟨?_, ?_⟩, fun script => ⟨fun b bs obuf => ?_,
    fun obuf => ?_⟩, fun offset size script => ⟨fun whole => ?_, fun part => ?_⟩,
    fun offset size w script => ⟨fun whole => ?_, fun part => ?_⟩, fun script => ?_⟩
  · exact (step_of_idle idle script).trans (hostStep_rd_of_idle idle rest i)
  · exact (step_of_idle idle script).trans (hostStep_wr_of_idle idle rest i w)
  · exact (step_of_idle idle script).trans (hostStep_wait_of_idle idle rest)
  · exact (statusWord_bits s).1.trans (State.busyBit_of_idle idle)
  · refine ⟨b.setWidth 32, toNat_byteWord b, ?_⟩
    rw [step_of_idle idle script, hostStep_popAll_of_cons idle obuf, ← script]
  · exact (step_of_idle idle script).trans (hostStep_popAll_of_nil idle obuf)
  · rw [step_of_idle idle script, (hostStep_bus_whole s rest whole 0).1, hostStep_rd_of_idle idle]
  · rw [step_of_idle idle script, (hostStep_bus_part s rest part 0).1]
  · rw [step_of_idle idle script, (hostStep_bus_whole s rest whole w).2, hostStep_wr_of_idle idle]
  · rw [step_of_idle idle script, (hostStep_bus_part s rest part w).2]
  · rw [step, State.nextEvent, State.completionDue, State.busyBit_of_idle idle, script]
    rfl

/-! ## Accesses while BUSY (R235, R238) -/

/-- The next event is not the completion while accesses are left to fall before it. -/
theorem not_due_of_left {s : State} {n : ℕ} {a : HostAction} {rest : List HostAction} (left : s.busyLeft = n + 1)
    (script : s.hostScript = a :: rest) : s.completionDue = false := by
  simp [State.completionDue, left, script]

/-- `s` with the host's side moved on. -/
def movedHost (s : State) (script : List HostAction) (reads : List Word) (left : ℕ) : State :=
  { s with hostScript := script, hostReads := reads, busyLeft := left }

theorem onlyHostSideMoved_movedHost (s : State) (script : List HostAction) (reads : List Word) (left : ℕ) :
    OnlyHostSideMoved s (movedHost s script reads left) := rfl

theorem hostRead_of_busy {s : State} (busy : s.phase = .busy) (i : ℕ) :
    s.hostRead i = { s with hostReads := s.hostReads ++ [s.readValue i] } := by
  rw [State.hostRead, s.afterRead_busy i busy]

/-- While BUSY an access moves the host's side alone; a loop may stay at the head of the script. -/
theorem hostStep_of_busy {s : State} {n : ℕ} {a : HostAction} (rest : List HostAction) (busy : s.phase = .busy)
    (left : s.busyLeft = n + 1) (access : IsAccess a) :
    ∃ reads script, s.hostStep a rest = .next (movedHost s script reads n) ∧ (script = rest ∨ script = a :: rest) := by
  have spent : s.spendDelay.setScript rest = movedHost s rest s.hostReads n := by
    have bit : s.busyBit = true := by rw [State.busyBit, busy]; rfl
    rw [State.spendDelay, bit, if_pos rfl, left]
    rfl
  have busy' : (movedHost s rest s.hostReads n).phase = .busy := busy
  have read (i : ℕ) : ∃ reads, (movedHost s rest s.hostReads n).hostRead i = movedHost s rest reads n :=
    ⟨_, hostRead_of_busy busy' i⟩
  cases a with
  | rd i =>
    obtain ⟨reads, h⟩ := read i
    exact ⟨reads, rest, by rw [State.hostStep, spent, h], .inl rfl⟩
  | wr i w => exact ⟨_, rest, by rw [State.hostStep, spent, State.hostWrite_busy _ i w busy'], .inl rfl⟩
  | wait =>
    obtain ⟨reads, h⟩ := read statusIndex
    simp only [State.hostStep, spent, h]
    split
    · exact ⟨reads, .wait :: rest, rfl, .inr rfl⟩
    · exact ⟨reads, rest, rfl, .inl rfl⟩
  | popAll =>
    obtain ⟨reads, h⟩ := read obufPopIndex
    simp only [State.hostStep, spent, h]
    split
    · exact ⟨reads, rest, rfl, .inl rfl⟩
    · exact ⟨reads, .popAll :: rest, rfl, .inr rfl⟩
  | busRd offset size =>
    obtain ⟨reads, h⟩ := read (offset / 4)
    have whole := wholeRegister_iff.1 access
    exact ⟨reads, rest, by rw [(hostStep_bus_whole s rest whole 0).1, State.hostStep, spent, h], .inl rfl⟩
  | busWr offset size w =>
    have whole := wholeRegister_iff.1 access
    exact ⟨_, rest, by rw [(hostStep_bus_whole s rest whole w).2, State.hostStep, spent,
      State.hostWrite_busy _ _ w busy'], .inl rfl⟩
  | rst => cases access

/-- Settles O9: the access spends one of the delay's and moves the host's side; BUSY gates every register but STATUS. -/
theorem busyAccessesAreLost : Obligations.BusyAccessesAreLost := by
  intro s a rest n busy left script access
  have bit : s.busyBit = true := by rw [State.busyBit, busy]; rfl
  refine ⟨?_, fun i w => ⟨s.hostWrite_busy i w busy, s.afterRead_busy i busy, fun ne => ?_⟩, readValue_status s,
    (statusWord_bits s).1.trans bit⟩
  · obtain ⟨reads, script', run, -⟩ := hostStep_of_busy rest busy left access
    exact ⟨_, (step_of_not_due (not_due_of_left left script) script).trans run,
      onlyHostSideMoved_movedHost s script' reads n, rfl⟩
  · rw [State.readValue]
    split
    · rfl
    · next status => exact absurd (eq_of_regAt_eq_some status rfl) ne
    · rw [bit, if_pos rfl]

/-! ## Bounded completion (R235, R237) -/

/-- A pending command that is due completes, BUILD in range. -/
theorem step_completes {s : State} (due : s.completionDue = true) (inRange : s.leavesOutOfRange = false) :
    ∃ t, step s = .next t ∧ t.phase = .idle ∧ t.done = true := by
  rw [step_of_due due, State.completion]
  split
  next i _ =>
    rcases exec_cases i s with ⟨r, run⟩ | ⟨-, out, -⟩
    · exact ⟨_, run, r.complete_phase, r.complete_done⟩
    · exact absurd (inRange.symm.trans out) Bool.false_ne_true
  next => exact ⟨_, rfl, rfl, rfl⟩

theorem run_succ {M : Host.Core} {s t : M.State} (h : M.step s = .next t) (k : ℕ) : M.run (k + 1) s = M.run k t := by
  rw [Host.Core.run, h]

theorem onlyHostSideMoved_trans {s t u : State} (h : OnlyHostSideMoved s t) (h' : OnlyHostSideMoved t u) :
    OnlyHostSideMoved s u := by
  rw [OnlyHostSideMoved] at h h' ⊢
  conv_lhs => rw [h', h]

theorem completes_within (n : ℕ) {s : State} (left : s.busyLeft = n) (busy : s.phase = .busy)
    (inRange : s.leavesOutOfRange = false) (accesses : ∀ a ∈ s.hostScript, IsAccess a) :
    ∃ k u t, k ≤ n ∧ Sys2Proof.core.run k s = .next u ∧ OnlyHostSideMoved s u ∧
      step u = .next t ∧ t.phase = .idle ∧ t.done = true := by
  induction n generalizing s with
  | zero =>
    obtain ⟨t, run, idle, done⟩ := step_completes ((completionDue_iff s).2 ⟨busy, .inl left⟩) inRange
    exact ⟨0, s, t, le_rfl, rfl, rfl, run, idle, done⟩
  | succ n ih =>
    cases script : s.hostScript with
    | nil =>
      obtain ⟨t, run, idle, done⟩ := step_completes ((completionDue_iff s).2 ⟨busy, .inr script⟩) inRange
      exact ⟨0, s, t, Nat.zero_le _, rfl, rfl, run, idle, done⟩
    | cons a rest =>
      rw [script] at accesses
      obtain ⟨reads, script', access, next⟩ := hostStep_of_busy rest busy left (accesses a (by simp))
      have moved := (step_of_not_due (not_due_of_left left script) script).trans access
      have accesses' : ∀ b ∈ script', IsAccess b := by
        rcases next with rfl | rfl
        · exact fun b hb => accesses b (List.mem_cons_of_mem a hb)
        · exact accesses
      obtain ⟨k, u, t, le, run, same, step, idle, done⟩ :=
        ih (s := movedHost s script' reads n) rfl busy inRange accesses'
      exact ⟨k + 1, u, t, Nat.succ_le_succ le, (run_succ (M := Sys2Proof.core) moved k).trans run,
        onlyHostSideMoved_trans (onlyHostSideMoved_movedHost ..) same, step, idle, done⟩

/-- Settles O10: each access while BUSY spends one of those left before the completion. -/
theorem pendingCommandCompletes : Obligations.PendingCommandCompletes := fun _ busy inRange accesses =>
  completes_within _ rfl busy inRange accesses

/-! ## Reset and CLR (R57, R244, R290) -/

/-- Settles O25: the reset is the host's next action, and replaces the state whatever is pending. -/
theorem resetAbandonsThePendingCommand : Obligations.ResetAbandonsThePendingCommand := by
  intro s rest n script waiting
  have due : s.completionDue = false := by
    rcases waiting with idle | left
    · rw [State.completionDue, State.busyBit_of_idle idle, Bool.false_and]
    · exact not_due_of_left left script
  rw [step_of_not_due due script, State.hostStep, s.spendDelay_frame]
  rfl

/-- Settles O26: at reset every valid flag is 0 and every buffer is empty. -/
theorem resetSatisfiesTheInvariant : Obligations.ResetSatisfiesTheInvariant := by
  intro a b ha hb
  have capacity {n : ℕ} (h : 1 ≤ n ∧ n ≤ 2 ^ 32 - 1) : capacityInRange n = true := by
    rw [capacityInRange, Bool.and_eq_true, decide_eq_true_iff, decide_eq_true_iff]
    exact h
  exact (inv_iff _).2 ⟨⟨⟨capacity ha, capacity hb⟩, bufferInv_resetWith a b⟩, flagInv_resetWith a b,
    gateInv_resetWith a b, tables_resetWith a b, nofun⟩

/-- Settles O33: CLR's assignments are those of a new session and of empty buffers. -/
theorem clrLeavesTheResetState : Obligations.ClrLeavesTheResetState :=
  ⟨decodeWord_eq_ok_iff.2 rfl, fun s => ⟨(runClr s).complete, rfl, ⟨rfl, rfl, rfl, rfl, rfl, rfl⟩,
    ⟨rfl, rfl, rfl, rfl, rfl, rfl, rfl, s.ctAt_beginSession⟩, BitVec.eq_of_toNat_eq (toNat_statusWord _), rfl⟩⟩

end Sys2Proof.Proofs
end
